-- ==== Sys2Proof/Word.lean ====
section
/-! DEFINITION. The word types of the logo_gen CORE and the pixel (00_scope R7). -/

namespace Sys2Proof

/-- A byte: 8 bits (00_scope section 5). -/
abbrev Byte := BitVec 8

/-- A header field or a dimension: "unsigned 32-bit" (00_scope R7, `FIELD_BITS`). -/
abbrev Word32 := BitVec 32

/-- A channel sample of the image source: "unsigned 16-bit" (43_raw_pixconv R194). -/
abbrev Sample := BitVec 16

/-- A 24-bit pixel: a triple of bytes, not an integer, in storage order blue, green, red
(20_memory R61). Two pixels are equal when all three bytes are (10_state R25). -/
structure Pixel where
  b : Byte
  g : Byte
  r : Byte
deriving DecidableEq, Repr

end Sys2Proof
end

