-- ==== Sys2Proof/Config.lean ====
section
/-! DEFINITION. The constants the source fixes (00_scope R7) and the parameters it leaves to the
implementation (00_scope R8). -/

namespace Sys2Proof

/-- `HEADER_SIZE` (00_scope R7). -/
abbrev headerSize : Nat := 512

/-- `MAX_RUN`: the cap on the pixels of one run entry (00_scope R7). -/
abbrev maxRun : Nat := 128

/-- `PIXEL_BYTES` (00_scope R7). -/
abbrev pixelBytes : Nat := 3

/-- `BLOCK_SIZE` (00_scope R7). -/
abbrev blockSize : Nat := 512

/-- `KIND_RAW` (00_scope R7). -/
abbrev kindRaw : Word32 := 0

/-- `KIND_RLE` (00_scope R7). -/
abbrev kindRle : Word32 := 1

/-- `BLOCKCOUNT_MODE` (40_header R124): what the advisory field `blockCount` counts. -/
inductive BlockCountMode where
  | blocks512
  | bytes
deriving DecidableEq, Repr

/-- The implementation's parameters (00_scope R8). `DIM_MAX` is OPEN within its bounds
(92_eei_decisions D13); a claim is made for every value of it. -/
structure Config where
  dimMax : Nat
  blockCountMode : BlockCountMode
  one_le_dimMax : 1 ≤ dimMax
  dimMax_le : dimMax ≤ 2 ^ 32 - 1

/-- The open part of `DIM_MAX`: no value of it can be evaluated or proved, so that a theorem about
the machine holds for every legal `DIM_MAX` (log 8). -/
opaque Config.dimMaxPred : Fin 4294967295

/-- The configuration of the machine: `DIM_MAX` open, `BLOCKCOUNT_MODE = blocks512` (40_header R124,
92_eei_decisions D7). -/
def Config.machine : Config where
  dimMax := Config.dimMaxPred.val + 1
  blockCountMode := .blocks512
  one_le_dimMax := Nat.le_add_left 1 _
  dimMax_le := Config.dimMaxPred.isLt

end Sys2Proof
end

