-- ==== Sys2Proof/Syntax.lean ====
section
/-! DEFINITION. The instructions: the two kinds of run entry (00_scope R2, 30_encoding R95), one
constructor per row of spec/opcode_table.json. -/

namespace Sys2Proof

/-- A run entry: control byte and payload (30_encoding R95, notation of R108). -/
inductive Instr where
  /-- `LIT n: p0 ... p(n-1)`: a literal run of the pixels listed, `n` of them (30_encoding R97). -/
  | lit (pixels : List Pixel)
  /-- `REP n, p`: `n` copies of the pixel `p` (30_encoding R98). -/
  | rep (n : Nat) (pixel : Pixel)
deriving DecidableEq, Repr

/-- The run length `n` of an entry (30_encoding R96). -/
def Instr.runLength : Instr → Nat
  | .lit pixels => pixels.length
  | .rep n _ => n

/-- The pixels an entry stands for (30_encoding R97, R98). -/
def Instr.pixels : Instr → List Pixel
  | .lit pixels => pixels
  | .rep n pixel => List.replicate n pixel

/-- The number of payload bytes of an entry (30_encoding R102). -/
def Instr.payloadLength : Instr → Nat
  | .lit pixels => pixelBytes * pixels.length
  | .rep _ _ => pixelBytes

end Sys2Proof
end

