-- ==== Sys2Proof/WellFormed.lean ====
section
/-! DEFINITION. Which run entries have an encoding: "1-128 consecutive pixels" and "1-128 repetitions
of one pixel" (30_encoding R95, R96). -/

namespace Sys2Proof

/-- A run has 1 to 128 pixels: the field `N` of the control byte is `n - 1` in 7 bits (30_encoding R96). -/
def runLengthOk (n : Nat) : Bool := 1 ≤ n && n ≤ maxRun

/-- An entry is well formed when its run length has a control byte (30_encoding R96). -/
def Instr.wellFormed : Instr → Bool
  | .lit pixels => runLengthOk pixels.length
  | .rep n _ => runLengthOk n

end Sys2Proof
end

