-- ==== Sys2Proof/Decode.lean ====
section
/-! DEFINITION. The run-entry decoder and encoder (30_encoding R95 to R102), and the byte forms of a
pixel that both use. -/

namespace Sys2Proof

/-- `rep(0x00, n)`: `n` zero bytes (00_scope section 5). -/
def zeroBytes (n : Nat) : List Byte := List.replicate n 0

/-- `pixbytes`: a pixel in storage order blue, green, red (20_memory R61). -/
def pixbytes (p : Pixel) : List Byte := [p.b, p.g, p.r]

/-- The bytes of a sequence of pixels, each in storage order (30_encoding R97). -/
def pixelsBytes (ps : List Pixel) : List Byte := ps.flatMap pixbytes

/-- `n` pixels from the front of a byte sequence and the bytes after them, `mkpix` of each three bytes
(30_encoding R101); none where fewer than `3 * n` bytes are there. -/
def takePixels : Nat → List Byte → Option (List Pixel × List Byte)
  | 0, bytes => some ([], bytes)
  | n + 1, b :: g :: r :: rest =>
    match takePixels n rest with
    | some (ps, after) => some (⟨b, g, r⟩ :: ps, after)
    | none => none
  | _ + 1, _ => none

/-- Why a byte sequence does not begin with a run entry. There is no illegal control byte
(30_encoding R102): only bytes can be missing. -/
inductive DecodeReject where
  /-- No byte is left at an entry boundary (42_rle_decode R173). -/
  | noControlByte
  /-- The payload the control byte declares is not wholly there (42_rle_decode R175). -/
  | payloadCut
deriving DecidableEq, Repr

/-- `count` of a control byte: the byte plus one, a 9-bit value that never wraps (30_encoding R100). -/
def controlCount (c : Byte) : Nat := c.toNat + 1

/-- The kind of run a control byte selects: repeat where `count > 128` (30_encoding R100). -/
def controlIsRepeat (c : Byte) : Bool := maxRun < controlCount c

/-- The run length a control byte declares (30_encoding R100, 42_rle_decode R174). -/
def controlRunLength (c : Byte) : Nat :=
  if controlIsRepeat c then controlCount c - maxRun else controlCount c

/-- The payload bytes a control byte declares (30_encoding R102, 42_rle_decode R175). -/
def controlPayloadLength (c : Byte) : Nat :=
  if controlIsRepeat c then pixelBytes else pixelBytes * controlRunLength c

/-- Decode one run entry from the front of a byte sequence: the entry and the bytes after it
(30_encoding R97 to R102). Total; what is no entry is rejected by name. -/
def decode : List Byte → Except DecodeReject (Instr × List Byte)
  | [] => .error .noControlByte
  | c :: payload =>
    if controlIsRepeat c then
      match payload with
      | b :: g :: r :: rest => .ok (.rep (controlRunLength c) ⟨b, g, r⟩, rest)
      | _ => .error .payloadCut
    else
      match takePixels (controlRunLength c) payload with
      | some (ps, rest) => .ok (.lit ps, rest)
      | none => .error .payloadCut

/-- The control byte of a literal run of `n` pixels: `n - 1` (30_encoding R96, 41_rle_encode R151). -/
def litControl (n : Nat) : Byte := BitVec.ofNat 8 (n - 1)

/-- The control byte of a repeat run of `n` pixels: `n - 1 + 128` (30_encoding R96, 41_rle_encode R152). -/
def repControl (n : Nat) : Byte := BitVec.ofNat 8 (n - 1 + 128)

/-- The bytes of a run entry (30_encoding R97, R98, R108). -/
def encode : Instr → List Byte
  | .lit pixels => litControl pixels.length :: pixelsBytes pixels
  | .rep n pixel => repControl n :: pixbytes pixel

/-- The bytes of a sequence of run entries, concatenated (30_encoding R105). -/
def encodeAll (entries : List Instr) : List Byte := entries.flatMap encode

/-- The first `k` bytes of a number, least significant first: the bytes of the opcode table's word. -/
def tableBytes : Nat → Nat → List Byte
  | 0, _ => []
  | k + 1, w => BitVec.ofNat 8 w :: tableBytes k (w / 256)

/-- The bytes of an opcode-table word as they stand in a body: the word's bytes, then zeros up to the end
of the entry its control byte declares (30_encoding R99). -/
def tableWordBytes (nbits w : Nat) : List Byte :=
  match tableBytes (nbits / 8) w with
  | [] => []
  | c :: payload => c :: payload ++ zeroBytes (controlPayloadLength c - payload.length)

/-- The instruction the decoder reads from an opcode-table word. -/
def decodeTableWord (nbits w : Nat) : Option Instr :=
  match decode (tableWordBytes nbits w) with
  | .ok (i, _) => some i
  | .error _ => none

end Sys2Proof
end

