-- ==== Sys2Proof/Machine/State.lean ====
section
/-! DEFINITION. The state of the CORE (10_state), plain data: the working registers of the units, the
spaces, STATUS, the outcome of the last operation, the unit at work and the call presented. -/

namespace Sys2Proof.Machine

/-- `RENC.mode`, the comparison mode of the run being accumulated (10_state R22, R23). -/
inductive RencMode where
  | none
  | lit
  | rep
deriving DecidableEq, Repr

/-- The working registers of `RENC` (10_state R22). -/
structure Renc where
  mode : RencMode
  count : Byte
  cur : Pixel
  nxt : Pixel
  i : Nat
  row : Nat
  W : Word32
  H : Word32
  /-- 128 entries (10_state R27). -/
  runbuf : List Pixel
deriving DecidableEq, Repr

/-- The working registers of `RDEC` (10_state R28); `cursor` is the program counter (10_state R29). -/
structure Rdec where
  cursor : Nat
  emitted : Nat
  total : Nat
  blen : Nat
  ctrl : Byte
  n : Byte
  pix : Pixel
  W : Word32
  H : Word32
deriving DecidableEq, Repr

/-- The field latches of the header units and `HSER`'s input `bodyLength` (10_state R32). -/
structure HeaderLatches where
  width : Word32
  height : Word32
  kind : Word32
  blockCount : Word32
  bodyLength : Nat
deriving DecidableEq, Repr

/-- The spaces that hold data (10_state R42): `HDR`, `BODY` and `GRID`, each a finite sequence
addressed from 0. `ROW` and `CONT` are windows of these, computed in Machine/Ops.lean. -/
structure Memory where
  hdr : List Byte
  body : List Byte
  grid : List Pixel
deriving DecidableEq, Repr

/-- The five error kinds (60_exceptions R210 to R215). -/
inductive ErrorKind where
  | headerFormatError
  | unsupportedKind
  | unexpectedEndOfData
  | sizeMismatch
  | dimensionError
deriving DecidableEq, Repr

/-- The complete result of an operation (60_exceptions R230, 43_raw_pixconv R194). -/
inductive Result where
  /-- `HDR_ENC`: the 512 bytes of a header. -/
  | header (bytes : List Byte)
  /-- `HDR_DEC`: the four fields. -/
  | fields (width height kind blockCount : Word32)
  /-- `BODY_ENC`: the body bytes. -/
  | body (bytes : List Byte)
  /-- `BODY_DEC`: the pixel grid in linear order. -/
  | grid (pixels : List Pixel)
  /-- `PIXCONV`: one pixel. -/
  | pixel (p : Pixel)
deriving DecidableEq, Repr

/-- The outcome an operation leaves: a complete result or an error kind, never both (00_scope R9,
60_exceptions R218). -/
inductive OpOutcome where
  | ok (result : Result)
  | err (kind : ErrorKind)
deriving DecidableEq, Repr

/-- A call of the host: a command with its operands (60_exceptions R230), or a sample for `PIXCONV`
(43_raw_pixconv R194, log 6). -/
inductive Call where
  | hdrEnc (width height kind : Word32) (bodyLength : Nat)
  | hdrDec (buf : List Byte)
  | bodyEnc (grid : List Pixel) (W H : Word32) (rleEnable : Bool)
  | bodyDec (body : List Byte) (W H kind : Word32)
  | pixConv (r16 g16 b16 a16 : Sample)
deriving DecidableEq, Repr

/-- The unit at work, with those of its operands for which it has no register (20_memory R80,
60_exceptions R222). -/
inductive Activity where
  /-- No operation runs (70_reset_and_hazards R242). -/
  | idle
  | hser
  /-- `HDES` with the length of its input, of which `HDR` holds the first 512 bytes (10_state R42,
  40_header R127, R129; log 14). -/
  | hdes (length : Nat)
  | renc
  | rdec
  | rawEnc (W H : Word32)
  | rawDec (W H : Word32)
  | pixConv (r16 g16 b16 a16 : Sample)
deriving DecidableEq, Repr

/-- The whole state of the CORE. -/
structure State where
  /-- The call the host has presented and no step has started (log 4). -/
  call : Option Call
  active : Activity
  renc : Renc
  rdec : Rdec
  hdrLatch : HeaderLatches
  mem : Memory
  /-- `STATUS.code` (10_state R40). -/
  status : BitVec 3
  /-- The outcome of the last operation; none from the start of an operation to its end. -/
  outcome : Option OpOutcome
deriving DecidableEq, Repr

/-- A stop of the model that is no outcome of the CORE. No step from a state that meets the invariant
of Safety.lean raises one. -/
inductive Fault where
  /-- Raised by `RENC` when it would fetch a pixel outside `GRID` (20_memory R66: such a read does not
  happen). Safe. -/
  | outsideGrid (index : Nat)
deriving DecidableEq, Repr

/-- Calls the spec gives no meaning (00_scope R9, 60_exceptions R220). -/
inductive Refusal where
  /-- Raised by the dispatch for an instruction without a meaning. Safe. -/
  | notModelled (mnemonic : String)
  /-- Raised by `EncodeBody` and `EncodeRaw` for a grid whose size is not `W * H`
  (41_rle_encode R142, 43_raw_pixconv R190). Safe: the spec refuses it. -/
  | gridSize
  /-- Raised by `HSER` for a block count that does not fit 32 bits (40_header R124). Safe: the spec
  refuses it. -/
  | blockCount
  /-- Raised by `EncodeRow` for a row of width 0 (41_rle_encode R140, 93 U13); no step passes one.
  Safe: the spec refuses it. -/
  | emptyRow
deriving DecidableEq, Repr

/-- The value at reset of a pixel register for which 10_state R48 specifies none (DESIGN CHOICE, log 2). -/
def resetPixel : Pixel := ⟨0, 0, 0⟩

/-- `runbuf` at reset: R48 specifies no value for its entries (DESIGN CHOICE, log 2). -/
def resetRunbuf : List Pixel := List.replicate 128 resetPixel

/-- The working registers of `RENC` at the start of an operation on a `W` by `H` image (10_state R48).
`cur`, `nxt` and `runbuf` hold the values of log 2. -/
def Renc.start (W H : Word32) : Renc where
  mode := .none
  count := 0
  cur := resetPixel
  nxt := resetPixel
  i := 0
  row := 0
  W := W
  H := H
  runbuf := resetRunbuf

/-- The working registers of `RDEC` at the start of an operation on a `W` by `H` image with a body of
`blen` bytes (10_state R48); `total` is the exact product (42_rle_decode R186). `ctrl`, `n` and `pix`
hold the values of log 2. -/
def Rdec.start (W H : Word32) (blen : Nat) : Rdec where
  cursor := 0
  emitted := 0
  total := W.toNat * H.toNat
  blen := blen
  ctrl := 0
  n := 0
  pix := resetPixel
  W := W
  H := H

/-- The header latches before a call loads them (DESIGN CHOICE, log 3). -/
def HeaderLatches.zero : HeaderLatches where
  width := 0
  height := 0
  kind := 0
  blockCount := 0
  bodyLength := 0

/-- The spaces at reset: `HDR` all zero, the streams empty (10_state R48). -/
def Memory.empty : Memory where
  hdr := zeroBytes headerSize
  body := []
  grid := []

/-- The machine right after reset (10_state R48, 70_reset_and_hazards R240): idle, no call, no outcome.
`W`, `H`, `total` and the header latches, which R48 takes from a call, are zero (log 3). -/
def State.reset : State where
  call := none
  active := .idle
  renc := Renc.start 0 0
  rdec := Rdec.start 0 0 0
  hdrLatch := HeaderLatches.zero
  mem := Memory.empty
  status := 0
  outcome := none

end Sys2Proof.Machine
end

