-- ==== Sys2Proof/Machine/Flags.lean ====
section
/-! DEFINITION. The condition state: `STATUS.code`, the comparison mode of `RENC`, and the conditions
that are recomputed where they are used and not stored (10_state R22, R40, R41). There are no
arithmetic flags. -/

namespace Sys2Proof.Machine

/-- `STATUS.code` of an error kind (10_state R40). -/
def ErrorKind.code : ErrorKind → BitVec 3
  | .headerFormatError => 1
  | .unsupportedKind => 2
  | .unexpectedEndOfData => 3
  | .sizeMismatch => 4
  | .dimensionError => 5

/-- `STATUS.code` of `OK` (10_state R40). -/
def okCode : BitVec 3 := 0

/-- The 2-bit code of `RENC.mode`; the code 3 never occurs (10_state R22). -/
def RencMode.code : RencMode → BitVec 2
  | .none => 0
  | .lit => 1
  | .rep => 2

/-- The encoder's comparison: equality of the three 8-bit channels (10_state R25). -/
def pixelsEqual (cur nxt : Pixel) : Bool := cur.b == nxt.b && cur.g == nxt.g && cur.r == nxt.r

/-- The accumulated run has reached the 128-pixel cap (41_rle_encode R147, R149). -/
def atCap (r : Renc) : Bool := r.count == 128

/-- The decode loop's test `emitted < total` (42_rle_decode R172). -/
def morePixels (r : Rdec) : Bool := r.emitted < r.total

end Sys2Proof.Machine
end

