-- ==== Sys2Proof/Machine/Ops.lean ====
section
/-! DEFINITION. The named operations over registers and spaces: reads and writes of a space, the
windows `ROW` and `CONT`, the registers' accessors, the end of an operation with a result, and taking
an error (60_exceptions R218). -/

namespace Sys2Proof.Machine

/-- What one step of the machine answers. -/
abbrev StepOutcome := Host.Outcome State Fault Refusal

/-- Sequencing inside a step: go on from a next state, keep a stop. -/
def andThen (o : StepOutcome) (k : State → StepOutcome) : StepOutcome :=
  match o with
  | .next s => k s
  | .fault f => .fault f
  | .refused r => .refused r

/-! ### Spaces -/

/-- `MemRead(space, addr, n)` (00_scope section 5): defined only inside the space (20_memory R66). -/
def memRead (space : List Byte) (addr n : Nat) : Option (List Byte) :=
  if addr + n ≤ space.length then some ((space.drop addr).take n) else none

/-- `MemWrite(space, addr, n, v)` with `n` the length of `v` (00_scope section 5): the bytes at `addr`
and after are those of `v`, every other byte stays, and the size of the space stays. -/
def memWrite (space : List Byte) (addr : Nat) (v : List Byte) : List Byte :=
  (space.take addr ++ v ++ space.drop (addr + v.length)).take space.length

/-- The form every reachable memory has: `HDR` is "exactly 512 bytes" (10_state R43,
70_reset_and_hazards R250). `BODY` and `GRID` are sequences of any length (10_state R44, R45). -/
def Memory.wf (m : Memory) : Bool := m.hdr.length == headerSize

/-- Write into `HDR`. -/
def Memory.writeHdr (m : Memory) (addr : Nat) (v : List Byte) : Memory :=
  { m with hdr := memWrite m.hdr addr v }

/-- `Emit(OUT, v)`: append bytes to the body stream (20_memory R80). -/
def Memory.emitBody (m : Memory) (v : List Byte) : Memory :=
  { m with body := m.body ++ v }

/-- `Emit(GRID, p)` for each pixel: append to the grid in linear order (10_state R45). -/
def Memory.emitGrid (m : Memory) (ps : List Pixel) : Memory :=
  { m with grid := m.grid ++ ps }

/-- `ROW`: the window of `GRID` for the row `y` of width `W` (10_state R45). -/
def gridRow (grid : List Pixel) (W y : Nat) : List Pixel := (grid.drop (y * W)).take W

/-- `ROW` of the row being encoded (10_state R42, R45). -/
def State.rowWindow (s : State) : List Pixel := gridRow s.mem.grid s.renc.W.toNat s.renc.row

/-- `CONT`: the container, `HDR ++ BODY` (10_state R46). -/
def State.cont (s : State) : List Byte := s.mem.hdr ++ s.mem.body

/-- The body bytes from the program counter up to `blen`: what `RDEC` may still read (20_memory R66). -/
def State.unread (s : State) : List Byte := (s.mem.body.take s.rdec.blen).drop s.rdec.cursor

/-- Append bytes to the body stream. -/
def State.emitBody (s : State) (v : List Byte) : State := { s with mem := s.mem.emitBody v }

/-! ### Register writes -/

/-- Replace the registers of `RENC`. -/
def State.setRenc (s : State) (r : Renc) : State := { s with renc := r }

/-- Replace the registers of `RDEC`. -/
def State.setRdec (s : State) (r : Rdec) : State := { s with rdec := r }

/-- Replace the header latches. -/
def State.setHdrLatch (s : State) (l : HeaderLatches) : State := { s with hdrLatch := l }

/-- Replace the spaces. -/
def State.setMem (s : State) (m : Memory) : State := { s with mem := m }

/-- Put a unit to work. -/
def State.setActive (s : State) (a : Activity) : State := { s with active := a }

/-! ### The end of an operation -/

/-- An operation ends with `OK(result)`: `STATUS.code` is 0, the complete result is the outcome, and no
activity continues (00_scope R9, 70_reset_and_hazards R242). -/
def finish (result : Result) (s : State) : State :=
  { s with active := .idle, status := okCode, outcome := some (.ok result) }

/-- The output of the unit at work is void: the stream it has emitted to is emptied, and the output
latches of `HDES` hold no field (60_exceptions R218, log 11). -/
def voidOutput (s : State) : State :=
  match s.active with
  | .idle => s
  | .hser => { s with mem := { s.mem with hdr := zeroBytes headerSize } }
  | .hdes _ => { s with hdrLatch := HeaderLatches.zero }
  | .renc => { s with mem := { s.mem with body := [] } }
  | .rawEnc _ _ => { s with mem := { s.mem with body := [] } }
  | .rdec => { s with mem := { s.mem with grid := [] } }
  | .rawDec _ _ => { s with mem := { s.mem with grid := [] } }
  | .pixConv _ _ _ _ => s

/-- `raise Kind`, taking an error (60_exceptions R218): the operation stops, `STATUS.code` takes the
kind's code, the outcome is `ERR(Kind)` and carries no data, and the machine is ready for the next
call; nothing is saved and there is no handler. -/
def raise (kind : ErrorKind) (s : State) : State :=
  { voidOutput s with active := .idle, status := kind.code, outcome := some (.err kind) }

/-- The host's next move after an error: there is no return from an error (60_exceptions R219), so this
is the same move as after a result: present the next call to an idle machine. None where the machine is
busy: the host cannot redirect an operation (60_exceptions R222, 70_reset_and_hazards R247). -/
def State.present (c : Call) (s : State) : Option State :=
  match s.active, s.call with
  | .idle, none => some { s with call := some c }
  | _, _ => none

/-! ### Results of an operation as a function of its operands (00_scope R9) -/

/-- The three outcomes of an operation (00_scope R9). -/
inductive OpResult (α : Type) where
  | ok (value : α)
  | err (kind : ErrorKind)
  | refused (reason : Refusal)
deriving DecidableEq, Repr

/-- Use a result in the next operation of a composition: "Any `ERR` or `REFUSED` of a step is the
outcome of the whole" (44_container R201). -/
def OpResult.andThen {α β : Type} (o : OpResult α) (k : α → OpResult β) : OpResult β :=
  match o with
  | .ok v => k v
  | .err kind => .err kind
  | .refused reason => .refused reason

/-- End the operation at work with the outcome of a unit's function: its result, its error, or the
refusal of the call (00_scope R9). -/
def endWith {α : Type} (o : OpResult α) (onOk : α → State → State) (s : State) : StepOutcome :=
  match o with
  | .ok v => .next (onOk v s)
  | .err kind => .next (raise kind s)
  | .refused reason => .refused reason

end Sys2Proof.Machine
end

