-- ==== Sys2Proof/Machine/Operands.lean ====
section
/-! DEFINITION. The operand forms: little-endian words of a header, the payload of a run entry, the
dimensions of an image and the channel of a sample (30_encoding R92, 42_rle_decode R175,
60_exceptions R214, 43_raw_pixconv R194). -/

namespace Sys2Proof.Machine

/-- `le32(v)`: the four bytes of a 32-bit value, least significant first (30_encoding R92). -/
def le32 (v : Word32) : List Byte :=
  [v.extractLsb' 0 8, v.extractLsb' 8 8, v.extractLsb' 16 8, v.extractLsb' 24 8]

/-- `un_le32(x)`: `x[0] + 256*x[1] + 65536*x[2] + 16777216*x[3]` (00_scope section 5). -/
def unLe32 (x0 x1 x2 x3 : Byte) : Word32 :=
  BitVec.ofNat 32 (x0.toNat + 256 * x1.toNat + 65536 * x2.toNat + 16777216 * x3.toNat)

/-- `un_le32(MemRead(buf, addr, 4))` (40_header R130); none where the four bytes are not in the buffer. -/
def readWord32 (buf : List Byte) (addr : Nat) : Option Word32 :=
  match memRead buf addr 4 with
  | some [x0, x1, x2, x3] => some (unLe32 x0 x1 x2 x3)
  | _ => none

/-- The eight magic bytes `S P L A S H ! !` (30_encoding R91). -/
def magic : List Byte := [0x53, 0x50, 0x4C, 0x41, 0x53, 0x48, 0x21, 0x21]

/-- `kind` is 0 or 1; every other value of the 32 bits is illegal (30_encoding R93). -/
def kindLegal (kind : Word32) : Bool := kind == kindRaw || kind == kindRle

/-- `CheckDims(W, H)`: the error it raises, if any (60_exceptions R214). -/
def checkDims (cfg : Config) (W H : Word32) : Option ErrorKind :=
  if W == 0 || H == 0 then some .dimensionError
  else if cfg.dimMax < W.toNat || cfg.dimMax < H.toNat then some .dimensionError
  else none

/-- `width * height`, the exact product (42_rle_decode R186). -/
def pixelTotal (W H : Word32) : Nat := W.toNat * H.toNat

/-- `bits[15:8]` of a 16-bit sample: truncation, no rounding (43_raw_pixconv R194). -/
def sampleHigh (v : Sample) : Byte := v.extractLsb' 8 8

/-- The payload check of an entry: `cursor + need` is past the bytes available (42_rle_decode R175). -/
def payloadCut (need : Nat) (r : Rdec) : Bool := r.blen < r.cursor + need

/-- The overshoot check of an entry: it would produce more pixels than remain (42_rle_decode R178). -/
def overshoots (n : Nat) (r : Rdec) : Bool := r.total < r.emitted + n

end Sys2Proof.Machine
end

