-- ==== Sys2Proof/Machine/Header.lean ====
section
/-! DEFINITION. The header units `HSER` and `HDES` (40_header). -/

namespace Sys2Proof.Machine

/-! ### HSER -/

/-- `blockCount` from `bodyLength` (40_header R124): none where it does not fit 32 bits, which is a
refusal; never truncated. -/
def blockCountOf (cfg : Config) (bodyLength : Nat) : Option Word32 :=
  let bc := match cfg.blockCountMode with
    | .blocks512 => (bodyLength + (blockSize - 1)) / blockSize
    | .bytes => bodyLength
  if bc < 2 ^ 32 then some (BitVec.ofNat 32 bc) else none

/-- The validation of `HSER`, dimensions first, then `kind` (40_header R121). -/
def checkFields (cfg : Config) (width height kind : Word32) : Option ErrorKind :=
  match checkDims cfg width height with
  | some error => some error
  | none => if kindLegal kind then none else some .unsupportedKind

/-- The writes of `HSER` into `HDR`: the magic (40_header R122), the four fields (R123) and the zero
tail (R125), each at its offset (30_encoding R90). -/
def writeHeader (width height kind blockCount : Word32) (m : Memory) : Memory :=
  (((((m.writeHdr 0 magic).writeHdr 8 (le32 width)).writeHdr 12 (le32 height)).writeHdr 16
    (le32 kind)).writeHdr 20 (le32 blockCount)).writeHdr 24 (zeroBytes 488)

/-- `HSER` on its latches: validate, derive `blockCount`, write `HDR` (40_header R120, R126). -/
def hserStep (cfg : Config) (s : State) : StepOutcome :=
  match checkFields cfg s.hdrLatch.width s.hdrLatch.height s.hdrLatch.kind with
  | some error => .next (raise error s)
  | none =>
    match blockCountOf cfg s.hdrLatch.bodyLength with
    | none => .refused .blockCount
    | some bc =>
      let s1 := s.setHdrLatch { s.hdrLatch with blockCount := bc }
      let s2 := s1.setMem
        (writeHeader s1.hdrLatch.width s1.hdrLatch.height s1.hdrLatch.kind s1.hdrLatch.blockCount s1.mem)
      .next (finish (.header s2.mem.hdr) s2)

/-- The 512 bytes of a header (30_encoding R90, 40_header R126). -/
def headerBytes (width height kind blockCount : Word32) : List Byte :=
  magic ++ le32 width ++ le32 height ++ le32 kind ++ le32 blockCount ++ zeroBytes 488

/-- `HSER(width, height, kind, bodyLength)` (40_header R126). -/
def hser (cfg : Config) (width height kind : Word32) (bodyLength : Nat) : OpResult (List Byte) :=
  match checkFields cfg width height kind with
  | some error => .err error
  | none =>
    match blockCountOf cfg bodyLength with
    | none => .refused .blockCount
    | some bc => .ok (headerBytes width height kind bc)

/-! ### HDES -/

/-- The four fields `HDES` returns (40_header R127). -/
structure HeaderFields where
  width : Word32
  height : Word32
  kind : Word32
  blockCount : Word32
deriving DecidableEq, Repr

/-- The four fields at their offsets (40_header R130); none where the buffer does not reach them. -/
def extractFields (buf : List Byte) : Option HeaderFields :=
  match readWord32 buf 8, readWord32 buf 12, readWord32 buf 16, readWord32 buf 20 with
  | some width, some height, some kind, some blockCount => some ⟨width, height, kind, blockCount⟩
  | _, _, _, _ => none

/-- The checks of `HDES` on an input of this length whose first bytes are `hdr`: length, magic,
dimensions, kind, in this order (40_header R128, R131, R133). Bytes 24 to 511 are not read. -/
def hdesOn (cfg : Config) (length : Nat) (hdr : List Byte) : OpResult HeaderFields :=
  if length < headerSize then .err .headerFormatError
  else if memRead hdr 0 8 ≠ some magic then .err .headerFormatError
  else
    match extractFields hdr with
    | none => .err .headerFormatError
    | some f =>
      match checkFields cfg f.width f.height f.kind with
      | some error => .err error
      | none => .ok f

/-- `HDES(buf)` (40_header R127, R133). Bytes from 512 on are not read (R129). -/
def hdes (cfg : Config) (buf : List Byte) : OpResult HeaderFields := hdesOn cfg buf.length buf

/-- The end of `HDES` with its four fields: the latches hold them (10_state R32). `HDES` writes no
space (10_state R42). -/
def finishHdes (f : HeaderFields) (s : State) : State :=
  finish (.fields f.width f.height f.kind f.blockCount)
    (s.setHdrLatch
      { s.hdrLatch with
        width := f.width, height := f.height, kind := f.kind, blockCount := f.blockCount })

/-- `HDES` on `HDR`, which holds the first bytes of its input (10_state R42, 40_header R133). -/
def hdesStep (cfg : Config) (length : Nat) (s : State) : StepOutcome :=
  endWith (hdesOn cfg length s.mem.hdr) finishHdes s

end Sys2Proof.Machine
end

