-- ==== Sys2Proof/Machine/Raw.lean ====
section
/-! DEFINITION. `RAW`, the uncompressed body, both directions (43_raw_pixconv R190 to R192). -/

namespace Sys2Proof.Machine

/-- `EncodeRaw(GRID, W, H)`: the grid row-major as blue, green, red triplets (43_raw_pixconv R190). -/
def encodeRaw (cfg : Config) (grid : List Pixel) (W H : Word32) : OpResult (List Byte) :=
  match checkDims cfg W H with
  | some kind => .err kind
  | none => if grid.length = pixelTotal W H then .ok (pixelsBytes grid) else .refused .gridSize

/-- `DecodeRaw(BODY, W, H)`: `W * H` pixels from the front of the body; a body too short for them is
`SizeMismatch`, bytes after them are ignored (43_raw_pixconv R191, R192). -/
def decodeRaw (cfg : Config) (body : List Byte) (W H : Word32) : OpResult (List Pixel) :=
  match checkDims cfg W H with
  | some kind => .err kind
  | none =>
    if body.length < pixelBytes * pixelTotal W H then .err .sizeMismatch
    else
      match takePixels (pixelTotal W H) body with
      | some (grid, _) => .ok grid
      | none => .err .sizeMismatch

/-- `RAW` encode on `GRID`: it writes `BODY` (10_state R42). -/
def rawEncStep (cfg : Config) (W H : Word32) (s : State) : StepOutcome :=
  endWith (encodeRaw cfg s.mem.grid W H)
    (fun body t => finish (.body body) (t.setMem { t.mem with body := body })) s

/-- `RAW` decode on `BODY`: it writes `GRID` (10_state R42). -/
def rawDecStep (cfg : Config) (W H : Word32) (s : State) : StepOutcome :=
  endWith (decodeRaw cfg s.mem.body W H)
    (fun grid t => finish (.grid grid) (t.setMem { t.mem with grid := grid })) s

end Sys2Proof.Machine
end

