-- ==== Sys2Proof/Machine/RunEntry.lean ====
section
/-! DEFINITION. The meanings of the two run entries (42_rle_decode R175 to R178). Each runs after the
control byte has been fetched (R173) and decoded (R174): the cursor stands on the payload. -/

namespace Sys2Proof.Machine

/-- The two checks of an entry, in order, before any pixel is produced: payload availability
(42_rle_decode R175), then overshoot (R178); otherwise the entry's effect. -/
def checkedEntry (n need : Nat) (s : State) (effect : State) : StepOutcome :=
  if payloadCut need s.rdec then .next (raise .unexpectedEndOfData s)
  else if overshoots n s.rdec then .next (raise .sizeMismatch s)
  else .next effect

/-- Append pixels to `GRID` and move the cursor and `emitted` past an entry with a payload of `need`
bytes (42_rle_decode R176, R177). -/
def emitRun (ps : List Pixel) (need : Nat) (s : State) : State :=
  { s with
    mem := s.mem.emitGrid ps
    rdec := { s.rdec with cursor := s.rdec.cursor + need, emitted := s.rdec.emitted + ps.length } }

/-- Write `RDEC.pix`, the pixel of a repeat run (42_rle_decode R177). -/
def latchPix (p : Pixel) (s : State) : State := { s with rdec := { s.rdec with pix := p } }

/-- `LIT n: p0 ... p(n-1)`: emit the payload's pixels verbatim (42_rle_decode R176). -/
def execLit (pixels : List Pixel) (s : State) : StepOutcome :=
  checkedEntry pixels.length (pixelBytes * pixels.length) s
    (emitRun pixels (pixelBytes * pixels.length) s)

/-- `REP n, p`: latch the payload's pixel and emit it `n` times (42_rle_decode R177). -/
def execRep (n : Nat) (pixel : Pixel) (s : State) : StepOutcome :=
  checkedEntry n pixelBytes s
    (emitRun (List.replicate n pixel) pixelBytes (latchPix pixel s))

end Sys2Proof.Machine
end

