-- ==== Sys2Proof/Machine/Dispatch.lean ====
section
/-! DEFINITION. One arm per constructor of Instr: the meaning of each run entry. -/

namespace Sys2Proof.Machine

def exec (i : Instr) (s : State) : Host.Outcome State Fault Refusal :=
  match i with
  | .lit pixels => Sys2Proof.Machine.execLit pixels s
  | .rep n pixel => Sys2Proof.Machine.execRep n pixel s

end Sys2Proof.Machine
end

