-- ==== Sys2Proof/Machine/Rdec.lean ====
section
/-! DEFINITION. `RDEC`: fetching and decoding a run entry, the decode loop one entry a step, and
`DecodeBody` as a function of its operands (42_rle_decode). -/

namespace Sys2Proof.Machine

/-- The start of `DecodeBody` (42_rle_decode R171): the dimension check; the registers hold their
reset values already (10_state R48). -/
def beginRdec (cfg : Config) (W H : Word32) (s : State) : State :=
  match checkDims cfg W H with
  | some kind => raise kind (s.setActive .rdec)
  | none => s.setActive .rdec

/-- Fetch the control byte: write `ctrl`, move the cursor past it (42_rle_decode R173). -/
def fetchControl (c : Byte) (r : Rdec) : Rdec := { r with ctrl := c, cursor := r.cursor + 1 }

/-- Decode the control byte: write `n` (42_rle_decode R174). `n` is 1 to 128 and fits 8 bits. -/
def decodeControl (c : Byte) (r : Rdec) : Rdec := { r with n := BitVec.ofNat 8 (controlRunLength c) }

/-- The state in which an entry's meaning runs: the control byte at the cursor has been fetched and
decoded (42_rle_decode R173, R174). Unchanged where no byte is left. -/
def latchControl (s : State) : State :=
  match s.unread with
  | c :: _ => s.setRdec (decodeControl c (fetchControl c s.rdec))
  | [] => s

/-- Execute one run entry at the cursor (42_rle_decode R173 to R178). No byte at an entry boundary is
`SizeMismatch` (R173); a payload that is cut is `UnexpectedEndOfData`, after the control byte has been
consumed (R175). -/
def entryStep (s : State) : StepOutcome :=
  match decode s.unread with
  | .ok (i, _) => exec i (latchControl s)
  | .error .noControlByte => .next (raise .sizeMismatch s)
  | .error .payloadCut => .next (raise .unexpectedEndOfData (latchControl s))

/-- One step of the decode loop: an entry while `emitted < total`, then `OK(GRID)`
(42_rle_decode R172). -/
def rdecStep (s : State) : StepOutcome :=
  if morePixels s.rdec then entryStep s else .next (finish (.grid s.mem.grid) s)

/-- The decode loop as a function: `fuel` entries at most, of which `total` always suffice, since an
entry produces at least one pixel (42_rle_decode R172). The result is the grid and the bytes left
unread, which give the final cursor (R185). -/
def decodeLoop (total : Nat) : Nat → List Byte → List Pixel → OpResult (List Pixel × List Byte)
  | 0, bytes, grid => if grid.length < total then .err .sizeMismatch else .ok (grid, bytes)
  | fuel + 1, bytes, grid =>
    if grid.length < total then
      match decode bytes with
      | .error .noControlByte => .err .sizeMismatch
      | .error .payloadCut => .err .unexpectedEndOfData
      | .ok (i, rest) =>
        if total < grid.length + i.runLength then .err .sizeMismatch
        else decodeLoop total fuel rest (grid ++ i.pixels)
    else .ok (grid, bytes)

/-- `DecodeBody` with the bytes it leaves unread (42_rle_decode R180, R185). -/
def decodeBodyRest (cfg : Config) (body : List Byte) (W H : Word32) :
    OpResult (List Pixel × List Byte) :=
  match checkDims cfg W H with
  | some kind => .err kind
  | none => decodeLoop (pixelTotal W H) (pixelTotal W H) body []

/-- `DecodeBody(BODY, W, H)` (42_rle_decode R170, R180). -/
def decodeBody (cfg : Config) (body : List Byte) (W H : Word32) : OpResult (List Pixel) :=
  (decodeBodyRest cfg body W H).andThen fun done => .ok done.1

end Sys2Proof.Machine
end

