-- ==== Sys2Proof/Machine/Renc.lean ====
section
/-! DEFINITION. `RENC`: the step rules on its registers, one comparison step or end step a machine step
(41_rle_encode R144 to R154), and `EncodeRow`, `EncodeBody`, their closed form (R160) and streaming
form (R165) as functions of their operands. -/

namespace Sys2Proof.Machine

/-! ### The registers -/

/-- `mode <- NONE; count <- 0`, after a flush (10_state R24). -/
def endRun (s : State) : State := s.setRenc { s.renc with mode := .none, count := 0 }

/-- Write `runbuf[count]` (10_state R27). -/
def bufferPixel (p : Pixel) (s : State) : State :=
  s.setRenc { s.renc with runbuf := s.renc.runbuf.set s.renc.count.toNat p }

/-- `FlushLit(n)`: emit a literal entry of `runbuf[0 .. n-1]` (41_rle_encode R151). -/
def flushLit (n : Nat) (s : State) : State := s.emitBody (encode (.lit (s.renc.runbuf.take n)))

/-- `FlushRep(n, p)`: emit a repeat entry (41_rle_encode R152). -/
def flushRep (n : Nat) (p : Pixel) (s : State) : State := s.emitBody (encode (.rep n p))

/-- Step `D-REP`: `cur` is the last pixel of the repeat run, which is flushed (41_rle_encode R146). -/
def ruleDRep (s : State) : State :=
  let s1 := s.setRenc { s.renc with count := s.renc.count + 1 }
  endRun (flushRep s1.renc.count.toNat s1.renc.cur s1)

/-- Step `D-LIT`: `cur` is appended to the literal run, which is flushed at the cap
(41_rle_encode R147). -/
def ruleDLit (s : State) : State :=
  let s1 := bufferPixel s.renc.cur s
  let s2 := s1.setRenc { s1.renc with count := s1.renc.count + 1, mode := .lit }
  if atCap s2.renc then endRun (flushLit maxRun s2) else s2

/-- Step `E-LIT` prefix: the literal run is flushed without `cur` (41_rle_encode R148). -/
def ruleELit (s : State) : State := endRun (flushLit s.renc.count.toNat s)

/-- Step `E`: `cur` is attributed to the repeat run, which is flushed at the cap (41_rle_encode R149). -/
def ruleE (s : State) : State :=
  let s1 := s.setRenc { s.renc with count := s.renc.count + 1, mode := .rep }
  if atCap s1.renc then endRun (flushRep maxRun s1.renc.cur s1) else s1

/-- Step dispatch: by the comparison of `cur` with `nxt` and by `mode` (41_rle_encode R145). -/
def stepDispatch (s : State) : State :=
  if pixelsEqual s.renc.cur s.renc.nxt then
    match s.renc.mode with
    | .lit => ruleE (ruleELit s)
    | .none => ruleE s
    | .rep => ruleE s
  else
    match s.renc.mode with
    | .rep => ruleDRep s
    | .none => ruleDLit s
    | .lit => ruleDLit s

/-- `ROW[x]` of the row being encoded, by its linear index in `GRID` (10_state R45). -/
def rowIndex (s : State) (x : Nat) : Nat := s.renc.row * s.renc.W.toNat + x

/-- Fetch a pixel of `GRID`; a read outside the space does not happen (20_memory R66). -/
def fetchPixel (s : State) (x : Nat) (k : Pixel → StepOutcome) : StepOutcome :=
  match s.mem.grid[rowIndex s x]? with
  | some p => k p
  | none => .fault (.outsideGrid (rowIndex s x))

/-- A comparison step: `cur <- ROW[i]`, `nxt <- ROW[i+1]`, the step rule, `i <- i + 1`
(41_rle_encode R144, R145). -/
def compareStep (s : State) : StepOutcome :=
  fetchPixel s s.renc.i fun cur =>
    fetchPixel s (s.renc.i + 1) fun nxt =>
      let s1 := stepDispatch (s.setRenc { s.renc with cur := cur, nxt := nxt })
      .next (s1.setRenc { s1.renc with i := s1.renc.i + 1 })

/-- The flush of the end step: the final pixel goes to exactly one entry (41_rle_encode R150). In mode
`NONE` the count is 0 (10_state R24). -/
def endFlush (s : State) : State :=
  match s.renc.mode with
  | .rep => flushRep (s.renc.count.toNat + 1) s.renc.cur s
  | .lit => flushLit (s.renc.count.toNat + 1) (bufferPixel s.renc.cur s)
  | .none => flushLit 1 (s.setRenc { s.renc with runbuf := s.renc.runbuf.set 0 s.renc.cur })

/-- `mode <- NONE; count <- 0; i <- 0; row <- row + 1`: the start of the next row
(41_rle_encode R150, 10_state R48; log 15, log 17). -/
def nextRow (s : State) : State :=
  let s1 := endRun s
  s1.setRenc { s1.renc with i := 0, row := s1.renc.row + 1 }

/-- The end step of a row: `cur <- ROW[W-1]`, its flush, and the start of the next row
(41_rle_encode R144, R150). -/
def endStep (s : State) : StepOutcome :=
  fetchPixel s (s.renc.W.toNat - 1) fun cur =>
    .next (nextRow (endFlush (s.setRenc { s.renc with cur := cur })))

/-- One step of `EncodeBody`: a comparison step while `cur` has a successor in its row, else the end
step; after the last row `OK(BODY)` (41_rle_encode R144, R154). -/
def rencStep (s : State) : StepOutcome :=
  if s.renc.row < s.renc.H.toNat then
    if s.renc.i + 1 < s.renc.W.toNat then compareStep s else endStep s
  else .next (finish (.body s.mem.body) s)

/-- The start of `EncodeBody` (41_rle_encode R142): the dimension check, then the size of the grid. -/
def beginRenc (cfg : Config) (W H : Word32) (s : State) : StepOutcome :=
  match checkDims cfg W H with
  | some kind => .next (raise kind (s.setActive .renc))
  | none =>
    if s.mem.grid.length = pixelTotal W H then .next (s.setActive .renc) else .refused .gridSize

/-! ### The operations as functions -/

/-- A run being accumulated, as plain data: what `mode`, `count`, `runbuf` and `cur` hold of it
(10_state R23). -/
inductive Run where
  /-- No run (`mode = NONE`). -/
  | none
  /-- A literal run of these pixels, oldest first (`mode = LIT`). -/
  | lit (ps : List Pixel)
  /-- `count` pixels of a repeat run (`mode = REP`). -/
  | rep (count : Nat)
deriving DecidableEq, Repr

/-- A comparison step on a run: the run after it and the entries it emits (41_rle_encode R145 to R149,
as assembled in R153). -/
def Run.compare (cur nxt : Pixel) : Run → Run × List Instr
  | .rep n =>
    if cur = nxt then
      if n + 1 = maxRun then (.none, [.rep maxRun cur]) else (.rep (n + 1), [])
    else (.none, [.rep (n + 1) cur])
  | .lit ps =>
    if cur = nxt then (.rep 1, [.lit ps])
    else if ps.length + 1 = maxRun then (.none, [.lit (ps ++ [cur])])
    else (.lit (ps ++ [cur]), [])
  | .none => if cur = nxt then (.rep 1, []) else (.lit [cur], [])

/-- The end step on a run: the one entry it emits (41_rle_encode R150). -/
def Run.close (cur : Pixel) : Run → Instr
  | .rep n => .rep (n + 1) cur
  | .lit ps => .lit (ps ++ [cur])
  | .none => .lit [cur]

/-- The entries of a row from the pixel `cur` on, with the pixels after it and the run so far
(41_rle_encode R153). -/
def rowEntriesFrom : Run → Pixel → List Pixel → List Instr
  | run, cur, [] => [run.close cur]
  | run, cur, nxt :: rest => (run.compare cur nxt).2 ++ rowEntriesFrom (run.compare cur nxt).1 nxt rest

/-- The run entries of a row; a row of width 0 is outside the operation's domain (41_rle_encode R140). -/
def rowEntries : List Pixel → OpResult (List Instr)
  | [] => .refused .emptyRow
  | p :: ps => .ok (rowEntriesFrom .none p ps)

/-- `EncodeRow(ROW)`: the serialized run entries of a row (41_rle_encode R140, R153). -/
def encodeRow (row : List Pixel) : OpResult (List Byte) :=
  (rowEntries row).andThen fun entries => .ok (encodeAll entries)

/-- The rows of a grid of width `W`, the next `H` of them, top to bottom (10_state R45). -/
def gridRows (W : Nat) : Nat → List Pixel → List (List Pixel)
  | 0, _ => []
  | H + 1, grid => grid.take W :: gridRows W H (grid.drop W)

/-- The rows' encodings concatenated in row order (41_rle_encode R154, R159). -/
def encodeRows : List (List Pixel) → OpResult (List Byte)
  | [] => .ok []
  | row :: rows => (encodeRow row).andThen fun a => (encodeRows rows).andThen fun b => .ok (a ++ b)

/-- `EncodeBody(GRID, W, H)` (41_rle_encode R142, R154). -/
def encodeBody (cfg : Config) (grid : List Pixel) (W H : Word32) : OpResult (List Byte) :=
  match checkDims cfg W H with
  | some kind => .err kind
  | none =>
    if grid.length = pixelTotal W H then encodeRows (gridRows W.toNat H.toNat grid)
    else .refused .gridSize

/-! ### The closed form of R160 -/

/-- Put one more pixel in front of a list of equal runs (41_rle_encode R160). -/
def consEqualRun (p : Pixel) : List (Pixel × Nat) → List (Pixel × Nat)
  | (q, n) :: rest => if p = q then (q, n + 1) :: rest else (p, 1) :: (q, n) :: rest
  | [] => [(p, 1)]

/-- The maximal equal runs of a row, with their lengths (41_rle_encode R160). -/
def equalRuns : List Pixel → List (Pixel × Nat)
  | [] => []
  | p :: ps => consEqualRun p (equalRuns ps)

/-- The `REP` entries of a maximal equal run of length `L` (41_rle_encode R160): `(L - 1) div 128` full
ones, then one for the rest unless the rest is a loose pixel. -/
def blockRepeats (p : Pixel) (L : Nat) : List Instr :=
  List.replicate ((L - 1) / maxRun) (.rep maxRun p) ++
    if (L - 1) % maxRun = 0 then [] else [.rep ((L - 1) % maxRun + 1) p]

/-- The loose pixel of a maximal equal run of length `L`, if it has one (41_rle_encode R160). -/
def blockLoose (p : Pixel) (L : Nat) : List Pixel := if (L - 1) % maxRun = 0 then [p] else []

/-- The pending literal run, emitted unless it is empty (41_rle_encode R160). -/
def flushPending (pending : List Pixel) : List Instr :=
  if pending = [] then [] else [.lit pending]

/-- The entries of a list of equal runs, with the loose pixels gathered so far (41_rle_encode R160): a
pending run goes out before a block's first `REP` entry, when it holds 128 pixels, and at the end. -/
def closedEntries : List Pixel → List (Pixel × Nat) → List Instr
  | pending, [] => flushPending pending
  | pending, (p, L) :: rest =>
    if blockRepeats p L = [] then
      if (pending ++ blockLoose p L).length = maxRun then
        .lit (pending ++ blockLoose p L) :: closedEntries [] rest
      else closedEntries (pending ++ blockLoose p L) rest
    else flushPending pending ++ blockRepeats p L ++ closedEntries (blockLoose p L) rest

/-- The entries of a row by the closed form (41_rle_encode R160). -/
def closedRowEntries (row : List Pixel) : List Instr := closedEntries [] (equalRuns row)

/-! ### The streaming form of R165 -/

/-- A `RENC` that receives the row as a pixel stream: the run so far, the held pixel and the entries
emitted (41_rle_encode R165). -/
structure RowStream where
  run : Run
  cur : Option Pixel
  out : List Instr
deriving DecidableEq, Repr

/-- Before the first pixel of a row (41_rle_encode R165). -/
def RowStream.start : RowStream where
  run := .none
  cur := Option.none
  out := []

/-- A pixel arrives: the comparison step for the held pixel, then it is held; the first pixel of a row
is only loaded (41_rle_encode R165). -/
def RowStream.push (t : RowStream) (nxt : Pixel) : RowStream :=
  match t.cur with
  | some cur =>
    { run := (t.run.compare cur nxt).1, cur := some nxt, out := t.out ++ (t.run.compare cur nxt).2 }
  | Option.none => { t with cur := some nxt }

/-- The end-of-row mark arrives: the end step for the held pixel (41_rle_encode R165). -/
def RowStream.endOfRow (t : RowStream) : OpResult (List Instr) :=
  match t.cur with
  | some cur => .ok (t.out ++ [t.run.close cur])
  | Option.none => .refused .emptyRow

end Sys2Proof.Machine
end

