-- ==== Sys2Proof/Machine/Container.lean ====
section
/-! DEFINITION. The container composition contract (44_container): functions composed of the units'
operations. They are glue, not hardware (44_container R200). -/

namespace Sys2Proof.Machine

/-- The `kind` of a body, chosen by `rle_enable` alone (43_raw_pixconv R197). -/
def bodyKind (rleEnable : Bool) : Word32 := if rleEnable then kindRle else kindRaw

/-- `BODY_ENC`: `EncodeBody` where RLE is enabled, else `EncodeRaw` (43_raw_pixconv R197). -/
def bodyEnc (cfg : Config) (grid : List Pixel) (W H : Word32) (rleEnable : Bool) :
    OpResult (List Byte) :=
  if rleEnable then encodeBody cfg grid W H else encodeRaw cfg grid W H

/-- `BODY_DEC`: `DecodeBody` for `kind = 1`, `DecodeRaw` for `kind = 0`, `UnsupportedKind` for every
other kind (60_exceptions R230). -/
def bodyDec (cfg : Config) (body : List Byte) (W H kind : Word32) : OpResult (List Pixel) :=
  if kind = kindRle then decodeBody cfg body W H
  else if kind = kindRaw then decodeRaw cfg body W H
  else .err .unsupportedKind

/-- `EncodeContainer(GRID, W, H, rle_enable)`: the body, then the header that needs its length; no
padding (44_container R201, R202). -/
def encodeContainer (cfg : Config) (grid : List Pixel) (W H : Word32) (rleEnable : Bool) :
    OpResult (List Byte) :=
  (bodyEnc cfg grid W H rleEnable).andThen fun body =>
    (hser cfg W H (bodyKind rleEnable) body.length).andThen fun hdr => .ok (hdr ++ body)

/-- A decoded container: the dimensions and the grid (44_container R203). -/
structure Image where
  W : Word32
  H : Word32
  grid : List Pixel
deriving DecidableEq, Repr

/-- `DecodeContainer(CONT)`: the header first, then everything after it as the body; `blockCount` is
not used (44_container R203, R204). -/
def decodeContainer (cfg : Config) (cont : List Byte) : OpResult Image :=
  (hdes cfg cont).andThen fun f =>
    (bodyDec cfg (cont.drop headerSize) f.width f.height f.kind).andThen fun grid =>
      .ok ⟨f.width, f.height, grid⟩

end Sys2Proof.Machine
end

