-- ==== Sys2Proof/Machine/PixConv.lean ====
section
/-! DEFINITION. `PIXCONV`: a 16-bit sample to a 24-bit pixel (43_raw_pixconv R194). -/

namespace Sys2Proof.Machine

/-- `PIXCONV(r16, g16, b16, a16)`: the high byte of each channel in storage order; alpha is discarded
(43_raw_pixconv R194). -/
def pixconv (r16 g16 b16 _a16 : Sample) : Pixel where
  b := sampleHigh b16
  g := sampleHigh g16
  r := sampleHigh r16

/-- `PIXCONV` on the sample of the call; it raises no error (43_raw_pixconv R194). -/
def pixConvStep (r16 g16 b16 a16 : Sample) (s : State) : StepOutcome :=
  .next (finish (.pixel (pixconv r16 g16 b16 a16)) s)

end Sys2Proof.Machine
end

