-- ==== Sys2Proof/Machine/Command.lean ====
section
/-! DEFINITION. The commands (60_exceptions R230) and the start of an operation, which is the machine's
only reset (10_state R20, R48). -/

namespace Sys2Proof.Machine

/-- The 2-bit command code of a call (60_exceptions R230); `PIXCONV` has none (log 6). -/
def Call.cmd : Call → Option (BitVec 2)
  | .hdrEnc _ _ _ _ => some 0
  | .hdrDec _ => some 1
  | .bodyEnc _ _ _ _ => some 2
  | .bodyDec _ _ _ _ => some 3
  | .pixConv _ _ _ _ => none

/-- The dimensions a call names: what `W` and `H` hold at its start (10_state R48); zero for a call
that names none (log 3). -/
def Call.dims : Call → Word32 × Word32
  | .hdrEnc width height _ _ => (width, height)
  | .hdrDec _ => (0, 0)
  | .bodyEnc _ W H _ => (W, H)
  | .bodyDec _ W H _ => (W, H)
  | .pixConv _ _ _ _ => (0, 0)

/-- The header latches at the start of a call: the inputs of `HSER` (10_state R32), else zero (log 3). -/
def Call.latches : Call → HeaderLatches
  | .hdrEnc width height kind bodyLength =>
    { HeaderLatches.zero with width := width, height := height, kind := kind, bodyLength := bodyLength }
  | .hdrDec _ => HeaderLatches.zero
  | .bodyEnc _ _ _ _ => HeaderLatches.zero
  | .bodyDec _ _ _ _ => HeaderLatches.zero
  | .pixConv _ _ _ _ => HeaderLatches.zero

/-- The spaces at the start of a call: its input in its space, the output streams empty, `HDR` zero
before anything is written to it (10_state R42, R48). The input of `HDR_DEC` is written to `HDR`, as
many of its bytes as `HDR` has (40_header R129, log 14). -/
def Call.memory : Call → Memory
  | .hdrEnc _ _ _ _ => Memory.empty
  | .hdrDec buf => Memory.empty.writeHdr 0 buf
  | .bodyEnc grid _ _ _ => { Memory.empty with grid := grid }
  | .bodyDec body _ _ _ => { Memory.empty with body := body }
  | .pixConv _ _ _ _ => Memory.empty

/-- The state at the start of an operation: every register at its reset value, whatever the previous
operation left (10_state R20, R48). It is a function of the call alone: no state survives a call. -/
def startState (c : Call) : State where
  call := none
  active := .idle
  renc := Renc.start c.dims.1 c.dims.2
  rdec := Rdec.start c.dims.1 c.dims.2 c.memory.body.length
  hdrLatch := c.latches
  mem := c.memory
  status := okCode
  outcome := none

/-- The start of `BODY_DEC`: the unit is chosen by `kind` (60_exceptions R230, log 7). -/
def beginBodyDec (cfg : Config) (W H kind : Word32) (s : State) : State :=
  if kind = kindRle then beginRdec cfg W H s
  else if kind = kindRaw then s.setActive (.rawDec W H)
  else raise .unsupportedKind s

/-- The start of an operation: the reset of R48 with the call's operands, then its unit goes to work
(60_exceptions R230). -/
def startCall (cfg : Config) (c : Call) : StepOutcome :=
  match c with
  | .hdrEnc _ _ _ _ => .next ((startState c).setActive .hser)
  | .hdrDec buf => .next ((startState c).setActive (.hdes buf.length))
  | .bodyEnc _ W H rleEnable =>
    if rleEnable then beginRenc cfg W H (startState c)
    else .next ((startState c).setActive (.rawEnc W H))
  | .bodyDec _ W H kind => .next (beginBodyDec cfg W H kind (startState c))
  | .pixConv r16 g16 b16 a16 => .next ((startState c).setActive (.pixConv r16 g16 b16 a16))

/-- The outcome the host gets back from a call, as a function of its operands: what the machine's run
of the call must leave (00_scope R6, R9; 70_reset_and_hazards R246). -/
def callResult (cfg : Config) : Call → OpResult Result
  | .hdrEnc width height kind bodyLength =>
    (hser cfg width height kind bodyLength).andThen fun hdr => .ok (.header hdr)
  | .hdrDec buf =>
    (hdes cfg buf).andThen fun f => .ok (.fields f.width f.height f.kind f.blockCount)
  | .bodyEnc grid W H rleEnable =>
    (bodyEnc cfg grid W H rleEnable).andThen fun body => .ok (.body body)
  | .bodyDec body W H kind =>
    (bodyDec cfg body W H kind).andThen fun grid => .ok (.grid grid)
  | .pixConv r16 g16 b16 a16 => .ok (.pixel (pixconv r16 g16 b16 a16))

/-- Place the bytes of a run entry where `RDEC` fetches its next one: a decode at work, the bytes at
its cursor, and room for the longest run in `total`. It stands for the host's `BODY_DEC`
call and the start of it (log 5). -/
def placeEntry (entry : List Byte) (s : State) : State :=
  let body := s.mem.body.take s.rdec.cursor ++
    zeroBytes (s.rdec.cursor - s.mem.body.length) ++ entry
  let room := s.rdec.emitted + maxRun
  { s with
    call := none
    active := .rdec
    rdec :=
      { s.rdec with
        blen := body.length, total := room, W := BitVec.ofNat 32 room, H := 1 }
    mem := { s.mem with body := body }
    status := okCode
    outcome := none }

end Sys2Proof.Machine
end

