-- ==== Sys2Proof/Machine/Step.lean ====
section
/-! DEFINITION. One step of the machine: the unit at work takes one step, or an idle machine starts the
call presented to it. -/

namespace Sys2Proof.Machine

/-- One step under a configuration. An idle machine with no call stays as it is
(70_reset_and_hazards R242: "no activity continues in the CORE"). -/
def stepWith (cfg : Config) (s : State) : Host.Outcome State Fault Refusal :=
  match s.active with
  | .idle =>
    match s.call with
    | some c => startCall cfg c
    | none => .next s
  | .hser => hserStep cfg s
  | .hdes length => hdesStep cfg length s
  | .renc => rencStep s
  | .rdec => rdecStep s
  | .rawEnc W H => rawEncStep cfg W H s
  | .rawDec W H => rawDecStep cfg W H s
  | .pixConv r16 g16 b16 a16 => pixConvStep r16 g16 b16 a16 s

/-- One step of the machine. -/
def step (s : State) : Host.Outcome State Fault Refusal := stepWith Config.machine s

/-- The state in which the next step fetches and runs the opcode-table word `w` (log 5). -/
def State.withFetchWord (s : State) (nbits w : Nat) : State := placeEntry (tableWordBytes nbits w) s

end Sys2Proof.Machine
end

