-- ==== Sys2Proof/Safety.lean ====
section
/-! DEFINITION. What the claims are stated in: the invariant of the state, runs of the machine, and what
a run of a call leaves. -/

namespace Sys2Proof.Machine

/-! ### The invariant -/

/-- `mode = NONE` exactly when `count = 0`, and otherwise 1 ≤ `count` ≤ 127 (10_state R24). -/
def Renc.CountInv (r : Renc) : Prop := (r.mode = .none ↔ r.count = 0) ∧ r.count.toNat ≤ 127

/-- `runbuf` has 128 entries (10_state R27). -/
def Renc.BufInv (r : Renc) : Prop := r.runbuf.length = 128

/-- What holds of `STATUS.code` and the outcome: 0 while no operation has ended, and then the code of
the outcome (10_state R40). -/
def statusOf : Option OpOutcome → BitVec 3
  | none => okCode
  | some (.ok _) => okCode
  | some (.err kind) => kind.code

/-- `RENC` at work: legal dimensions, the whole grid, `i` in the row, `row` at most `H`
(10_state R22, R26; 41_rle_encode R142). -/
def Renc.WorkInv (r : Renc) (grid : List Pixel) : Prop :=
  1 ≤ r.W.toNat ∧ 1 ≤ r.H.toNat ∧ grid.length = pixelTotal r.W r.H ∧ r.i < r.W.toNat ∧
    r.row ≤ r.H.toNat

/-- `RDEC` at work: `blen` is the length of the body, the cursor is inside it, and the grid holds the
`emitted` pixels of at most `total` (10_state R28, R30). -/
def Rdec.WorkInv (r : Rdec) (body : List Byte) (grid : List Pixel) : Prop :=
  r.blen = body.length ∧ r.cursor ≤ r.blen ∧ r.emitted ≤ r.total ∧ grid.length = r.emitted

/-- The part of the invariant that belongs to the unit at work. -/
def State.WorkInv (s : State) : Prop :=
  match s.active with
  | .renc => s.renc.WorkInv s.mem.grid
  | .rdec => s.rdec.WorkInv s.mem.body s.mem.grid
  | .idle => True
  | .hser => True
  | .hdes _ => True
  | .rawEnc _ _ => True
  | .rawDec _ _ => True
  | .pixConv _ _ _ _ => True

/-- The invariant of the machine. -/
structure State.Inv (s : State) : Prop where
  /-- `HDR` is exactly 512 bytes (10_state R43, 70_reset_and_hazards R250). -/
  mem_wf : s.mem.wf = true
  count_inv : s.renc.CountInv
  buf_inv : s.renc.BufInv
  work_inv : s.WorkInv
  /-- `STATUS.code` is the code of the outcome, 0 until there is one (10_state R40). -/
  status_eq : s.status = statusOf s.outcome
  /-- An operation at work has no outcome yet, and the host presents nothing to it
  (10_state R40, 60_exceptions R222). -/
  busy : s.active ≠ .idle → s.outcome = none ∧ s.call = none

/-! ### The run held in the registers of RENC -/

/-- The registers of `RENC` hold a run between steps: of `runbuf` only the entries `0 .. count-1` count,
and only while `mode = LIT` (10_state R23, R24, R27). -/
def RunHeld (r : Renc) : Run → Prop
  | .none => r.mode = .none ∧ r.count = 0 ∧ r.runbuf.length = 128
  | .lit ps =>
    r.mode = .lit ∧ r.count.toNat = ps.length ∧ 1 ≤ ps.length ∧ ps.length ≤ 127 ∧
      r.runbuf.length = 128 ∧ r.runbuf.take ps.length = ps
  | .rep k => r.mode = .rep ∧ r.count.toNat = k ∧ 1 ≤ k ∧ k ≤ 127 ∧ r.runbuf.length = 128

/-! ### The registers that hold no specified value -/

/-- The two states differ at most in registers for which 10_state R48 and R27 specify no value there:
`cur`, `nxt`, `ctrl`, `n`, `pix`, and of `runbuf` the entries from `count` on, or all of them unless
`mode = LIT`. -/
structure SameButUnspecified (s t : State) : Prop where
  rest : t = { s with
    renc := { s.renc with cur := t.renc.cur, nxt := t.renc.nxt, runbuf := t.renc.runbuf }
    rdec := { s.rdec with ctrl := t.rdec.ctrl, n := t.rdec.n, pix := t.rdec.pix } }
  bufferLength : t.renc.runbuf.length = s.renc.runbuf.length
  run : s.renc.mode = .lit →
    t.renc.runbuf.take s.renc.count.toNat = s.renc.runbuf.take s.renc.count.toNat

/-! ### The shape of a step of RENC and of RDEC -/

/-- `RENC` is at a comparison step for `cur` and its successor `nxt` (41_rle_encode R144). -/
def State.ComparesAt (s : State) (cur nxt : Pixel) : Prop :=
  s.active = .renc ∧ s.renc.row < s.renc.H.toNat ∧ s.renc.i + 1 < s.renc.W.toNat ∧
    s.mem.grid[rowIndex s s.renc.i]? = some cur ∧ s.mem.grid[rowIndex s (s.renc.i + 1)]? = some nxt

/-- `RENC` is at the end step of a row whose last pixel is `cur` (41_rle_encode R144, R150). -/
def State.EndsRowAt (s : State) (cur : Pixel) : Prop :=
  s.active = .renc ∧ s.renc.row < s.renc.H.toNat ∧ s.renc.W.toNat ≤ s.renc.i + 1 ∧
    s.mem.grid[rowIndex s (s.renc.W.toNat - 1)]? = some cur

/-- The state after a comparison step that leaves these `mode`, `count` and `runbuf` and emits these
bytes; everything else is as before (41_rle_encode R145). -/
def State.afterCompare (s : State) (cur nxt : Pixel) (mode : RencMode) (count : Byte)
    (runbuf : List Pixel) (emitted : List Byte) : State :=
  { s with
    renc :=
      { s.renc with
        mode := mode, count := count, cur := cur, nxt := nxt, i := s.renc.i + 1,
        runbuf := runbuf }
    mem := { s.mem with body := s.mem.body ++ emitted } }

/-- The state after an end step for the pixel `cur` that leaves this `runbuf` and emits these bytes:
`mode`, `count`, `i` as at the start of a row, `row` one more, everything else as before
(41_rle_encode R150, 10_state R48). -/
def State.afterRow (s : State) (cur : Pixel) (runbuf : List Pixel) (emitted : List Byte) : State :=
  { s with
    renc :=
      { s.renc with
        mode := .none, count := 0, cur := cur, i := 0, row := s.renc.row + 1, runbuf := runbuf }
    mem := { s.mem with body := s.mem.body ++ emitted } }

/-- `RDEC` is at work and its next step executes an entry: `emitted < total` (42_rle_decode R172). -/
def State.FetchesEntry (s : State) : Prop := s.active = .rdec ∧ s.rdec.emitted < s.rdec.total

/-- The state in which an entry's meaning runs, given its control byte `c`: `ctrl` and `n` written, the
cursor past the control byte, everything else as before (42_rle_decode R173, R174). -/
def State.fetched (s : State) (c : Byte) : State :=
  { s with
    rdec :=
      { s.rdec with
        ctrl := c, n := BitVec.ofNat 8 (controlRunLength c),
        cursor := s.rdec.cursor + 1 } }

/-- The state after an entry that appends these pixels and moves the cursor by `length`; the registers
of `RDEC` other than these two are as `r` has them (42_rle_decode R176, R177). -/
def State.afterEntry (s : State) (r : Rdec) (ps : List Pixel) (length : Nat) : State :=
  { s with
    rdec := { r with cursor := s.rdec.cursor + length, emitted := s.rdec.emitted + ps.length }
    mem := { s.mem with grid := s.mem.grid ++ ps } }

/-- The unit's output is void: no byte and no pixel of it is left (60_exceptions R218). -/
def State.outputVoid (t : State) : Activity → Prop
  | .renc => t.mem.body = []
  | .rawEnc _ _ => t.mem.body = []
  | .rdec => t.mem.grid = []
  | .rawDec _ _ => t.mem.grid = []
  | .hser => t.mem.hdr = zeroBytes headerSize
  | .hdes _ => t.hdrLatch = HeaderLatches.zero
  | .idle => True
  | .pixConv _ _ _ _ => True

/-! ### Runs -/

/-- `k` steps under a configuration, stopping at the first fault or refusal. -/
def runWith (cfg : Config) : Nat → State → StepOutcome
  | 0, s => .next s
  | k + 1, s => andThen (stepWith cfg s) (runWith cfg k)

/-- The machine stands idle with an outcome and its `STATUS.code` (00_scope R9, 10_state R40). -/
def State.EndsWith (t : State) (o : OpOutcome) : Prop :=
  t.active = .idle ∧ t.outcome = some o ∧ t.status = statusOf (some o)

/-- Within `n` steps from `s` the operation ends as `o` says: with the result, with the error, or
refused (00_scope R9). -/
def Leaves (cfg : Config) (n : Nat) (s : State) (o : OpResult Result) : Prop :=
  match o with
  | .ok r => ∃ k ≤ n, ∃ t, runWith cfg k s = .next t ∧ t.EndsWith (.ok r)
  | .err kind => ∃ k ≤ n, ∃ t, runWith cfg k s = .next t ∧ t.EndsWith (.err kind)
  | .refused reason => ∃ k ≤ n, runWith cfg k s = .refused reason

/-- The states the host and the machine can reach from reset (70_reset_and_hazards R249). -/
inductive Reachable : State → Prop where
  | reset : Reachable State.reset
  | step {s t : State} : Reachable s → step s = .next t → Reachable t
  | present {s t : State} {c : Call} : Reachable s → s.present c = some t → Reachable t

/-! ### Words for the claims about rows and bodies -/

/-- Every pixel of the row differs from its successor (41_rle_encode R157). -/
def AdjacentDiffer : List Pixel → Prop
  | [] => True
  | [_] => True
  | p :: q :: rest => p ≠ q ∧ AdjacentDiffer (q :: rest)

/-- The run lengths of a list of entries, summed (41_rle_encode R155). -/
def totalRunLength (entries : List Instr) : Nat := (entries.map Instr.runLength).sum

/-- The pixels of a list of entries, in order. -/
def allPixels (entries : List Instr) : List Pixel := entries.flatMap Instr.pixels

/-- A byte sequence that ends at an entry boundary: a whole number of run entries
(42_rle_decode R187). -/
def EndsAtBoundary (bytes : List Byte) : Prop :=
  ∃ entries : List Instr, (∀ e ∈ entries, e.wellFormed = true) ∧ bytes = encodeAll entries

/-- `ceil(a/b)` (00_scope section 5). -/
def ceilDiv (a b : Nat) : Nat := (a + b - 1) / b

/-- The literal entries of a row in which every adjacent pair differs: full ones, then the rest
(41_rle_encode R157). -/
def literalChunks : Nat → List Pixel → List Instr
  | 0, _ => []
  | fuel + 1, row =>
    if row = [] then [] else .lit (row.take maxRun) :: literalChunks fuel (row.drop maxRun)

/-- Legal dimensions: `CheckDims` raises nothing (60_exceptions R214). -/
def LegalDims (cfg : Config) (W H : Word32) : Prop := checkDims cfg W H = none

end Sys2Proof.Machine
end

