-- ==== Sys2Proof/Certificates/Slice0/Obligations.lean ====
section
/-! DEFINITION. The statements for the provers. -/

open Sys2Proof Sys2Proof.Machine

/-! ### Encoding (30_encoding) -/

/-- 30_encoding R95 to R98, R101: decoding the bytes of a well-formed entry gives the entry back, with
every operand at every value, and leaves the bytes after it. -/
def Obligations.DecodeOfEncodeIsTheEntry : Prop :=
  ∀ (i : Instr) (after : List Byte), i.wellFormed = true → decode (encode i ++ after) = .ok (i, after)

/-- 30_encoding R95 to R98, R102: whatever decodes is a well-formed entry whose bytes are those read. -/
def Obligations.EncodeOfDecodeIsTheBytes : Prop :=
  ∀ (bytes after : List Byte) (i : Instr),
    decode bytes = .ok (i, after) → i.wellFormed = true ∧ encode i ++ after = bytes

/-- 30_encoding R96, R100: for all 256 control bytes `count = c + 1` is 1 to 256 without a wrap at 8 bits,
and the kind and the run length are the fields `K = c[7]` and `N + 1` with `N = c[6:0]`. -/
def Obligations.ControlByteArithmeticIsTheFieldView : Prop :=
  ∀ c : Byte,
    controlCount c = c.toNat + 1 ∧ 1 ≤ controlCount c ∧ controlCount c ≤ 256 ∧
      controlIsRepeat c = c.getLsbD 7 ∧ controlRunLength c = (c.extractLsb' 0 7).toNat + 1

/-- 30_encoding R99: the control byte alone gives the length of an entry: 4 where `c ≥ 128`, else
`1 + 3 * (c + 1)`. -/
def Obligations.ControlByteGivesEntryLength : Prop :=
  ∀ (c : Byte) (payload after : List Byte) (i : Instr),
    decode (c :: payload) = .ok (i, after) →
      (encode i).length = (if 128 ≤ c.toNat then 4 else 1 + 3 * (c.toNat + 1)) ∧
        (c :: payload).length = (encode i).length + after.length

/-- 30_encoding R102: all 256 control bytes are legal. `0x00` to `0x7F` is `LIT` with `n = c + 1` and
`3 * n` payload bytes, `0x80` to `0xFF` is `REP` with `n = c - 127` and 3; the only way not to decode is
to have fewer payload bytes. -/
def Obligations.EveryControlByteIsLegal : Prop :=
  ∀ (c : Byte) (payload : List Byte),
    (c.toNat ≤ 0x7F →
      (3 * (c.toNat + 1) ≤ payload.length →
        ∃ ps after, decode (c :: payload) = .ok (.lit ps, after) ∧ ps.length = c.toNat + 1) ∧
      (payload.length < 3 * (c.toNat + 1) → decode (c :: payload) = .error .payloadCut)) ∧
    (0x80 ≤ c.toNat →
      (3 ≤ payload.length →
        ∃ p after, decode (c :: payload) = .ok (.rep (c.toNat - 127) p, after)) ∧
      (payload.length < 3 → decode (c :: payload) = .error .payloadCut))

/-- 30_encoding R96 to R98 and the worked examples of 42_rle_decode R176, R177 and 95 D-OK1, D-OK2: words
written out from the encodings decode to the entries they stand for. -/
def Obligations.WrittenOutEntriesDecode : Prop :=
  decode [0x02, 1, 2, 3, 4, 5, 6, 7, 8, 9] = .ok (.lit [⟨1, 2, 3⟩, ⟨4, 5, 6⟩, ⟨7, 8, 9⟩], []) ∧
    decode [0x81, 0, 0, 255] = .ok (.rep 2 ⟨0, 0, 255⟩, []) ∧
    decode [0x00, 1, 2, 3] = .ok (.lit [⟨1, 2, 3⟩], []) ∧
    decode [0x80, 1, 2, 3] = .ok (.rep 1 ⟨1, 2, 3⟩, []) ∧
    decode [0xFF, 9, 9, 9, 7] = .ok (.rep 128 ⟨9, 9, 9⟩, [7])

/-! ### RDEC and the run entries (42_rle_decode) -/

/-- 42_rle_decode R172 to R174: where the bytes at the cursor decode to an entry, the step is the meaning
of that entry in the state whose only changes are `ctrl`, `n` and the cursor past the control byte. -/
def Obligations.StepRunsTheDecodedEntry : Prop :=
  ∀ (s : State) (c : Byte) (payload after : List Byte) (i : Instr),
    s.FetchesEntry → s.unread = c :: payload → decode s.unread = .ok (i, after) →
      step s = exec i (s.fetched c)

/-- 42_rle_decode R176: `LIT` completes wherever its payload is available and its pixels do not pass the
total: it appends its pixels and moves the cursor and `emitted`; nothing else changes. -/
def Obligations.LitCompletesWithItsPixels : Prop :=
  ∀ (ps : List Pixel) (s : State),
    s.rdec.cursor + 3 * ps.length ≤ s.rdec.blen → s.rdec.emitted + ps.length ≤ s.rdec.total →
      exec (.lit ps) s = .next (s.afterEntry s.rdec ps (3 * ps.length))

/-- 42_rle_decode R177: `REP` completes wherever its payload is available and its pixels do not pass the
total: it latches its pixel, appends it `n` times and moves the cursor and `emitted`; nothing else
changes. -/
def Obligations.RepCompletesWithItsPixel : Prop :=
  ∀ (n : Nat) (p : Pixel) (s : State),
    s.rdec.cursor + 3 ≤ s.rdec.blen → s.rdec.emitted + n ≤ s.rdec.total →
      exec (.rep n p) s =
        .next (s.afterEntry { s.rdec with pix := p } (List.replicate n p) 3)

/-- 42_rle_decode R175, R178, R217: an entry whose payload is cut takes `UnexpectedEndOfData`, also where
it overshoots as well; an entry that only overshoots takes `SizeMismatch`; neither produces a pixel. -/
def Obligations.EntryErrorsInOrder : Prop :=
  ∀ (i : Instr) (s : State),
    (s.rdec.blen < s.rdec.cursor + i.payloadLength →
      exec i s = .next (raise .unexpectedEndOfData s)) ∧
    (s.rdec.cursor + i.payloadLength ≤ s.rdec.blen → s.rdec.total < s.rdec.emitted + i.runLength →
      exec i s = .next (raise .sizeMismatch s))

/-- The frame of both entries, `LIT` and `REP` (42_rle_decode R176, R177, R184; 20_memory R83): a next
state of an entry has every register of `RENC`, every header latch, the call, and of `RDEC` `total`,
`blen`, `ctrl`, `n`, `W`, `H` as before; `pix` too unless the entry is a `REP`; every byte of `HDR` and of
`BODY` reads as before; and while no error is taken every pixel of `GRID` and `STATUS` stay. -/
def Obligations.EntryFrame : Prop :=
  ∀ (i : Instr) (s t : State), s.active = .rdec → exec i s = .next t →
    t.renc = s.renc ∧ t.hdrLatch = s.hdrLatch ∧ t.call = s.call ∧
    t.rdec.total = s.rdec.total ∧ t.rdec.blen = s.rdec.blen ∧ t.rdec.ctrl = s.rdec.ctrl ∧
    t.rdec.n = s.rdec.n ∧ t.rdec.W = s.rdec.W ∧ t.rdec.H = s.rdec.H ∧
    (∀ ps, i = .lit ps → t.rdec.pix = s.rdec.pix) ∧
    (∀ addr n, memRead t.mem.hdr addr n = memRead s.mem.hdr addr n) ∧
    (∀ addr n, memRead t.mem.body addr n = memRead s.mem.body addr n) ∧
    (t.active = .rdec →
      t.status = s.status ∧ t.outcome = s.outcome ∧
        ∀ (k : Nat) (p : Pixel), s.mem.grid[k]? = some p → t.mem.grid[k]? = some p)

/-- 42_rle_decode R176 with R175 and R178, over a whole step: a `LIT` at the cursor appends its `n` pixels
and moves the pc by `1 + 3 * n`, or raises `SizeMismatch` where it overshoots; where fewer than `3 * n`
payload bytes are there it raises `UnexpectedEndOfData`. No check is made on the pixels. -/
def Obligations.LitStep : Prop :=
  ∀ (s : State) (n : Nat), s.FetchesEntry → s.rdec.blen = s.mem.body.length → 1 ≤ n → n ≤ 128 →
    (∀ (ps : List Pixel) (after : List Byte), ps.length = n →
      s.unread = litControl n :: pixelsBytes ps ++ after →
        (s.rdec.emitted + n ≤ s.rdec.total →
          step s = .next (s.afterEntry (s.fetched (litControl n)).rdec ps (1 + 3 * n))) ∧
        (s.rdec.total < s.rdec.emitted + n →
          step s = .next (raise .sizeMismatch (s.fetched (litControl n))))) ∧
    (∀ payload : List Byte, payload.length < 3 * n → s.unread = litControl n :: payload →
      step s = .next (raise .unexpectedEndOfData (s.fetched (litControl n))))

/-- 42_rle_decode R177 with R175 and R178, over a whole step: a `REP` at the cursor latches its pixel,
appends it `n` times and moves the pc by 4, or raises `SizeMismatch` where it overshoots; where fewer
than 3 payload bytes are there it raises `UnexpectedEndOfData`. -/
def Obligations.RepStep : Prop :=
  ∀ (s : State) (n : Nat), s.FetchesEntry → s.rdec.blen = s.mem.body.length → 1 ≤ n → n ≤ 128 →
    (∀ (p : Pixel) (after : List Byte), s.unread = repControl n :: pixbytes p ++ after →
      (s.rdec.emitted + n ≤ s.rdec.total →
        step s =
          .next
            (s.afterEntry { (s.fetched (repControl n)).rdec with pix := p }
              (List.replicate n p) 4)) ∧
      (s.rdec.total < s.rdec.emitted + n →
        step s = .next (raise .sizeMismatch (s.fetched (repControl n))))) ∧
    (∀ payload : List Byte, payload.length < 3 → s.unread = repControl n :: payload →
      step s = .next (raise .unexpectedEndOfData (s.fetched (repControl n))))

/-- 42_rle_decode R173: with the stream exhausted at an entry boundary and pixels missing the error is
`SizeMismatch`, an empty body among the cases; else the byte at the cursor is the control byte of what
the step executes. -/
def Obligations.FetchOfTheControlByte : Prop :=
  ∀ s : State, s.FetchesEntry → s.rdec.blen = s.mem.body.length →
    (s.rdec.blen ≤ s.rdec.cursor → step s = .next (raise .sizeMismatch s)) ∧
    (s.rdec.cursor < s.rdec.blen →
      ∃ c, memRead s.mem.body s.rdec.cursor 1 = some [c] ∧ latchControl s = s.fetched c)

/-- 42_rle_decode R172: the decode ends with `OK(GRID)` as soon as `emitted` is not below `total`, whatever
bytes are left, and until then every step appends at least one pixel or ends the operation. -/
def Obligations.DecodeLoopEndsAtTheTotal : Prop :=
  ∀ s : State, s.active = .rdec → s.Inv →
    (s.rdec.total ≤ s.rdec.emitted → step s = .next (finish (.grid s.mem.grid) s)) ∧
    (s.rdec.emitted < s.rdec.total →
      ∃ t, step s = .next t ∧
        (t.active = .idle ∧ (∃ kind, t.outcome = some (.err kind)) ∨
          t.active = .rdec ∧ s.rdec.emitted < t.rdec.emitted ∧ s.rdec.cursor < t.rdec.cursor))

/-- 42_rle_decode R179, 70_reset_and_hazards R252: a decode that succeeds leaves a rest, and the same body
with any other bytes after the consumed ones decodes to the same grid. -/
def Obligations.TrailingBytesAreNotRead : Prop :=
  ∀ (cfg : Config) (body rest rest' : List Byte) (W H : Word32) (grid : List Pixel),
    decodeBodyRest cfg body W H = .ok (grid, rest) →
      ∃ used, body = used ++ rest ∧ decodeBodyRest cfg (used ++ rest') W H = .ok (grid, rest')

/-- 30_encoding R103, 42_rle_decode R181, R182, R184: any well-formed entries whose run lengths sum to
`W * H` decode to their pixels in order, canonical or not and across row boundaries or not; the bytes
after them are left. -/
def Obligations.AnyEntriesDecodeToTheirPixels : Prop :=
  ∀ (cfg : Config) (entries : List Instr) (after : List Byte) (W H : Word32),
    LegalDims cfg W H → (∀ e ∈ entries, e.wellFormed = true) →
      totalRunLength entries = pixelTotal W H →
        decodeBodyRest cfg (encodeAll entries ++ after) W H = .ok (allPixels entries, after)

/-- 42_rle_decode R170: `DecodeBody` never refuses, and its `OK` is a grid of exactly `width * height`
pixels. -/
def Obligations.DecodeBodyGridIsExact : Prop :=
  ∀ (cfg : Config) (body : List Byte) (W H : Word32),
    (∀ reason, decodeBody cfg body W H ≠ .refused reason) ∧
      ∀ grid, decodeBody cfg body W H = .ok grid → grid.length = W.toNat * H.toNat

/-! ### RENC (41_rle_encode) -/

/-- 41_rle_encode R146: step `D-REP`. `cur` differs from `nxt` in mode `REP`: the run of `count + 1` pixels
is flushed as one `REP` entry and `mode`, `count` return to `NONE`, 0. That the entries of `runbuf`, which
hold no specified value in mode `REP`, keep what they hold is the model's choice (log 15). -/
def Obligations.DifferInRepeatFlushesTheRun : Prop :=
  ∀ (s : State) (cur nxt : Pixel) (k : Nat), s.ComparesAt cur nxt → cur ≠ nxt →
    RunHeld s.renc (.rep k) →
      step s =
        .next
          (s.afterCompare cur nxt .none 0 s.renc.runbuf
            [BitVec.ofNat 8 (k + 1 - 1 + 128), cur.b, cur.g, cur.r])

/-- 41_rle_encode R147: step `D-LIT`. `cur` differs from `nxt` in mode `NONE` or `LIT` (with the literal
pixels `ps` so far): `cur` is buffered at `count`, and at 128 pixels the run is flushed as `LIT 128` and
`mode`, `count` return to `NONE`, 0. That the entries of `runbuf` with no specified value keep what they
hold is the model's choice (log 15). -/
def Obligations.DifferJoinsTheLiteralRun : Prop :=
  ∀ (s : State) (cur nxt : Pixel) (ps : List Pixel), s.ComparesAt cur nxt → cur ≠ nxt →
    (RunHeld s.renc (.lit ps) ∨ RunHeld s.renc .none ∧ ps = []) →
      (ps.length + 1 < 128 →
        step s =
          .next
            (s.afterCompare cur nxt .lit (s.renc.count + 1)
              (s.renc.runbuf.set s.renc.count.toNat cur) [])) ∧
      (ps.length + 1 = 128 →
        step s =
          .next
            (s.afterCompare cur nxt .none 0 (s.renc.runbuf.set s.renc.count.toNat cur)
              (0x7F :: pixelsBytes (ps ++ [cur]))))

/-- 41_rle_encode R148 with R149 in the same step: step `E-LIT`. `cur` equals `nxt` in mode `LIT`: the
literal run is flushed without `cur`, which starts a repeat run. That the entries of `runbuf`, which then
hold no specified value, keep what they hold is the model's choice (log 15). -/
def Obligations.EqualInLiteralFlushesWithoutCur : Prop :=
  ∀ (s : State) (cur : Pixel) (ps : List Pixel), s.ComparesAt cur cur → RunHeld s.renc (.lit ps) →
    step s =
      .next
        (s.afterCompare cur cur .rep 1 s.renc.runbuf
          (BitVec.ofNat 8 (ps.length - 1) :: pixelsBytes ps))

/-- 41_rle_encode R149: step `E`. `cur` equals `nxt` in mode `NONE` or `REP` (with `k` pixels so far): the
repeat run has one more pixel, and at 128 it is flushed as `REP 128` and `mode`, `count` return to
`NONE`, 0. That the entries of `runbuf`, which hold no specified value in these modes, keep what they hold
is the model's choice (log 15). -/
def Obligations.EqualJoinsTheRepeatRun : Prop :=
  ∀ (s : State) (cur : Pixel) (k : Nat), s.ComparesAt cur cur →
    (RunHeld s.renc (.rep k) ∨ RunHeld s.renc .none ∧ k = 0) →
      (k + 1 < 128 →
        step s = .next (s.afterCompare cur cur .rep (s.renc.count + 1) s.renc.runbuf [])) ∧
      (k + 1 = 128 →
        step s =
          .next (s.afterCompare cur cur .none 0 s.renc.runbuf [0xFF, cur.b, cur.g, cur.r]))

/-- 41_rle_encode R150, 10_state R48: the end step. The final pixel extends a repeat run or a literal run
by one, or becomes a one-pixel literal run with control byte `0x00`; exactly one entry is emitted,
`mode`, `count` and `i` have their row-start values, and `row` is one more. That `cur` and `nxt` keep what
they hold into the next row, and so do the entries of `runbuf`, is the model's choice (log 17, log 15). -/
def Obligations.EndStepPlacesTheFinalPixel : Prop :=
  ∀ (s : State) (cur : Pixel), s.EndsRowAt cur →
    (∀ k, RunHeld s.renc (.rep k) →
      step s =
        .next
          (s.afterRow cur s.renc.runbuf
            [BitVec.ofNat 8 (k + 1 - 1 + 128), cur.b, cur.g, cur.r])) ∧
    (∀ ps, RunHeld s.renc (.lit ps) →
      step s =
        .next
          (s.afterRow cur (s.renc.runbuf.set s.renc.count.toNat cur)
            (BitVec.ofNat 8 ps.length :: pixelsBytes (ps ++ [cur])))) ∧
    (RunHeld s.renc .none →
      step s =
        .next (s.afterRow cur (s.renc.runbuf.set 0 cur) [0x00, cur.b, cur.g, cur.r]))

/-- 41_rle_encode R143 to R153: on every run held in the registers, the machine's comparison step does what
the assembled encoder does: the registers hold the next run, and the bytes of the emitted entries are
appended to the body. -/
def Obligations.CompareStepRefinesTheEncoder : Prop :=
  ∀ (s : State) (cur nxt : Pixel) (run : Run), s.ComparesAt cur nxt → RunHeld s.renc run →
    ∃ t, step s = .next t ∧ RunHeld t.renc (run.compare cur nxt).1 ∧
      t = s.afterCompare cur nxt t.renc.mode t.renc.count t.renc.runbuf
        (encodeAll (run.compare cur nxt).2)

/-- 41_rle_encode R155: the run lengths of the entries of a row sum to its width, for every row of width
at least 1. -/
def Obligations.RowPixelConservation : Prop :=
  ∀ row : List Pixel, row ≠ [] →
    ∃ entries, rowEntries row = .ok entries ∧ totalRunLength entries = row.length

/-- 41_rle_encode R156: every entry of a row has 1 to 128 pixels, and every repeat entry at least 2. -/
def Obligations.EveryEmittedRunIsWithinTheCap : Prop :=
  ∀ (row : List Pixel) (entries : List Instr), rowEntries row = .ok entries →
    ∀ e ∈ entries, 1 ≤ e.runLength ∧ e.runLength ≤ 128 ∧ ∀ n p, e = .rep n p → 2 ≤ n

/-- 41_rle_encode R157: a row of `W` identical pixels has `(W - 1) div 128` entries `REP 128`, then
`REP r + 1` or, where `r = 0`, `LIT 1`; a row in which every adjacent pair differs is cut into literal
entries of 128 and a last shorter one; both have `ceil(W/128)` entries. -/
def Obligations.EntriesOfTheExtremeRows : Prop :=
  (∀ (W : Nat) (p : Pixel), 1 ≤ W →
    ∃ entries, rowEntries (List.replicate W p) = .ok entries ∧ entries.length = ceilDiv W 128 ∧
      entries = List.replicate ((W - 1) / 128) (.rep 128 p) ++
        [if (W - 1) % 128 = 0 then .lit [p] else .rep ((W - 1) % 128 + 1) p]) ∧
  (∀ row : List Pixel, row ≠ [] → AdjacentDiffer row →
    ∃ entries, rowEntries row = .ok entries ∧ entries.length = ceilDiv row.length 128 ∧
      entries = literalChunks row.length row)

/-- 41_rle_encode R158: the control bytes `RENC` emits are `0x00` to `0x7F` for a literal entry of 1 to 128
pixels and `0x81` to `0xFF` for a repeat entry of 2 to 128 pixels; `0x80` is never emitted. -/
def Obligations.EmittedControlBytes : Prop :=
  ∀ (row : List Pixel) (entries : List Instr), rowEntries row = .ok entries →
    ∀ e ∈ entries, ∃ c payload, encode e = c :: payload ∧ c ≠ 0x80 ∧
      ((∃ ps, e = .lit ps) → c.toNat ≤ 0x7F ∧ e.runLength = c.toNat + 1) ∧
      ((∃ n p, e = .rep n p) → 0x81 ≤ c.toNat ∧ c.toNat ≤ 0xFF ∧ e.runLength = c.toNat - 127)

/-- 41_rle_encode R159, 70_reset_and_hazards R255: rows are encoded independently. The body of an image cut
between two rows is the body of its upper part followed by the body of its lower part. -/
def Obligations.RowsEncodeIndependently : Prop :=
  ∀ (cfg : Config) (upper lower : List Pixel) (W H1 H2 H : Word32) (a b : List Byte),
    LegalDims cfg W H → H.toNat = H1.toNat + H2.toNat →
      encodeBody cfg upper W H1 = .ok a → encodeBody cfg lower W H2 = .ok b →
        encodeBody cfg (upper ++ lower) W H = .ok (a ++ b)

/-- 41_rle_encode R160: the closed form over the maximal equal runs of a row gives the entries of the step
rules, for every row. -/
def Obligations.ClosedFormIsTheEncoder : Prop :=
  ∀ row : List Pixel, row ≠ [] → rowEntries row = .ok (closedRowEntries row)

/-- 41_rle_encode R165: receiving the row as a pixel stream and an end-of-row mark gives the entries of the
assembled encoder. -/
def Obligations.StreamingFormIsTheEncoder : Prop :=
  ∀ row : List Pixel, (row.foldl RowStream.push RowStream.start).endOfRow = rowEntries row

/-- 41_rle_encode R162: every grid of legal dimensions encodes, decodes back to itself, and the decode
consumes the whole body. -/
def Obligations.EncodedBodyDecodesToTheGrid : Prop :=
  ∀ (cfg : Config) (grid : List Pixel) (W H : Word32),
    LegalDims cfg W H → grid.length = W.toNat * H.toNat →
      ∃ body, encodeBody cfg grid W H = .ok body ∧ decodeBodyRest cfg body W H = .ok (grid, [])

/-- 41_rle_encode R163: an encoded row has at most `3 * W + ceil(W/128)` bytes, with equality exactly where
every adjacent pair differs, and at least `4 * ceil(W/128)`, reached by identical pixels; a body has at
most `H` times the row bound. -/
def Obligations.EncodedSizeBound : Prop :=
  (∀ (row : List Pixel) (bytes : List Byte), encodeRow row = .ok bytes →
    bytes.length ≤ 3 * row.length + ceilDiv row.length 128 ∧
      (bytes.length = 3 * row.length + ceilDiv row.length 128 ↔ AdjacentDiffer row) ∧
      4 * ceilDiv row.length 128 ≤ bytes.length ∧
      (∀ p, row = List.replicate row.length p → bytes.length = 4 * ceilDiv row.length 128)) ∧
  (∀ (cfg : Config) (grid : List Pixel) (W H : Word32) (body : List Byte),
    encodeBody cfg grid W H = .ok body →
      body.length ≤ H.toNat * (3 * W.toNat + ceilDiv W.toNat 128))

/-- 42_rle_decode R187: an encoded body followed by any bytes decodes to the grid, and every proper prefix
of it is an error: `SizeMismatch` at an entry boundary, `UnexpectedEndOfData` elsewhere. -/
def Obligations.ProperPrefixesFail : Prop :=
  ∀ (cfg : Config) (grid : List Pixel) (W H : Word32) (body : List Byte),
    encodeBody cfg grid W H = .ok body →
      (∀ t, decodeBody cfg (body ++ t) W H = .ok grid) ∧
      (∀ cut t, body = cut ++ t → t ≠ [] →
        (EndsAtBoundary cut → decodeBody cfg cut W H = .err .sizeMismatch) ∧
        (¬ EndsAtBoundary cut → decodeBody cfg cut W H = .err .unexpectedEndOfData))

/-! ### HSER and HDES (40_header) -/

/-- 40_header R122, R123, R125, R126: `HSER` on its latches, at work in the machine with legal fields and a
block count that fits, completes: `HDR` holds the magic, the four little-endian fields at their offsets
and 488 zero bytes, and the result is those 512 bytes. That this is one step is the model's choice
(log 1). -/
def Obligations.HserWritesTheHeader : Prop :=
  ∀ (cfg : Config) (s : State) (bc : Word32), s.active = .hser → s.mem.wf = true →
    checkFields cfg s.hdrLatch.width s.hdrLatch.height s.hdrLatch.kind = none →
      blockCountOf cfg s.hdrLatch.bodyLength = some bc →
        ∃ t, stepWith cfg s = .next t ∧
          t.mem.hdr = headerBytes s.hdrLatch.width s.hdrLatch.height s.hdrLatch.kind bc ∧
          t.mem.hdr.length = 512 ∧ t.EndsWith (.ok (.header t.mem.hdr)) ∧
          t.hdrLatch = { s.hdrLatch with blockCount := bc } ∧ t.renc = s.renc ∧ t.rdec = s.rdec ∧
          t.mem.body = s.mem.body ∧ t.mem.grid = s.mem.grid

/-- 40_header R124: the block count is `ceil(bodyLength / 512)` under `blocks512` and `bodyLength` under
`bytes`; it is refused exactly where it does not fit 32 bits, and never truncated. -/
def Obligations.BlockCountIsNeverTruncated : Prop :=
  ∀ (cfg : Config) (bodyLength bc : Nat),
    (cfg.blockCountMode = .blocks512 → bc = ceilDiv bodyLength 512) →
    (cfg.blockCountMode = .bytes → bc = bodyLength) →
      (bc < 2 ^ 32 → ∃ v, blockCountOf cfg bodyLength = some v ∧ v.toNat = bc) ∧
      (2 ^ 32 ≤ bc → blockCountOf cfg bodyLength = none)

/-- 40_header R134: whatever `HSER` writes, `HDES` reads back with its block count, whatever follows the
header; and whatever `HDES` accepts begins with the magic and its four fields, its other bytes being
unconstrained. -/
def Obligations.HeaderRoundTrip : Prop :=
  (∀ (cfg : Config) (w h k : Word32) (L : Nat) (hdr : List Byte), hser cfg w h k L = .ok hdr →
    ∃ bc, blockCountOf cfg L = some bc ∧ hdes cfg hdr = .ok ⟨w, h, k, bc⟩ ∧
      ∀ t, hdes cfg (hdr ++ t) = hdes cfg hdr) ∧
  (∀ (cfg : Config) (buf : List Byte) (f : HeaderFields), hdes cfg buf = .ok f →
    buf.take 24 = magic ++ le32 f.width ++ le32 f.height ++ le32 f.kind ++ le32 f.blockCount ∧
      ∀ tail : List Byte, 488 ≤ tail.length → hdes cfg (buf.take 24 ++ tail) = .ok f)

/-- 40_header R128, R131, R133, 60_exceptions R217: the outcome of `HDES` by its checks in order: a short
buffer or a wrong magic is `HeaderFormatError`; then a dimension of 0 or above `DIM_MAX` is
`DimensionError`; then a kind other than 0 and 1 is `UnsupportedKind`; else the four fields. -/
def Obligations.HdesChecksInOrder : Prop :=
  ∀ (cfg : Config) (buf : List Byte),
    ((buf.length < 512 ∨ buf.take 8 ≠ magic) → hdes cfg buf = .err .headerFormatError) ∧
    (∀ (w h k bc : Word32) (tail : List Byte), 488 ≤ tail.length →
      buf = magic ++ le32 w ++ le32 h ++ le32 k ++ le32 bc ++ tail →
        ((w = 0 ∨ h = 0 ∨ cfg.dimMax < w.toNat ∨ cfg.dimMax < h.toNat) →
          hdes cfg buf = .err .dimensionError) ∧
        (w ≠ 0 → h ≠ 0 → w.toNat ≤ cfg.dimMax → h.toNat ≤ cfg.dimMax →
          (k ≠ 0 → k ≠ 1 → hdes cfg buf = .err .unsupportedKind) ∧
          (k = 0 ∨ k = 1 → hdes cfg buf = .ok ⟨w, h, k, bc⟩)))

/-- 10_state R39, 30_encoding R94, 40_header R129: `HDES` uses the first 24 bytes and the fact that 512 are
there: the reserved bytes and every byte after the header are ignored. -/
def Obligations.HdesIgnoresReservedAndLaterBytes : Prop :=
  ∀ (cfg : Config) (buf buf' : List Byte), 512 ≤ buf.length → 512 ≤ buf'.length →
    buf.take 24 = buf'.take 24 → hdes cfg buf = hdes cfg buf'

/-- 10_state R42, R32, 40_header R127, R133: `HDES` in the machine reads `HDR` and writes no space. The start
of `HDR_DEC` puts the first 512 bytes of its input into `HDR`; at work, an input shorter than that takes
`HeaderFormatError`, else the outcome is that of `HDES` on `HDR`: its error, or its four fields, in the
latches too, and everything else as before. That the start puts the input into `HDR` and its length into
the activity is the model's choice (log 14), and that the start and the unit take one step each is too
(log 1). -/
def Obligations.HdesReadsTheHeaderBuffer : Prop :=
  ∀ (cfg : Config) (s : State),
    (∀ buf : List Byte, s.active = .idle → s.call = some (.hdrDec buf) → 512 ≤ buf.length →
      ∃ t, stepWith cfg s = .next t ∧ t.active = .hdes buf.length ∧ t.mem.hdr = buf.take 512) ∧
    (∀ length : Nat, s.active = .hdes length → s.mem.wf = true →
      (∀ t, stepWith cfg s = .next t → t.mem = s.mem) ∧
      (length < 512 → stepWith cfg s = .next (raise .headerFormatError s)) ∧
      (512 ≤ length →
        (∀ kind, hdes cfg s.mem.hdr = .err kind → stepWith cfg s = .next (raise kind s)) ∧
        ∀ f, hdes cfg s.mem.hdr = .ok f →
          ∃ t, stepWith cfg s = .next t ∧
            t.EndsWith (.ok (.fields f.width f.height f.kind f.blockCount)) ∧
            t.hdrLatch = { s.hdrLatch with
              width := f.width, height := f.height, kind := f.kind, blockCount := f.blockCount } ∧
            t.renc = s.renc ∧ t.rdec = s.rdec ∧ t.mem = s.mem))

/-- 30_encoding R92, 20_memory R60: `un_le32` of the bytes of `le32(v)` is `v`, byte 0 being `v[7:0]` and byte 3 `v[31:24]`, and
`le32` of `un_le32` of four bytes is those bytes. -/
def Obligations.LittleEndianWords : Prop :=
  (∀ v : Word32, ∃ x0 x1 x2 x3, le32 v = [x0, x1, x2, x3] ∧ unLe32 x0 x1 x2 x3 = v ∧
    x0.toNat = v.toNat % 256 ∧ x1.toNat = v.toNat / 256 % 256 ∧
    x2.toNat = v.toNat / 65536 % 256 ∧ x3.toNat = v.toNat / 16777216) ∧
  ∀ x0 x1 x2 x3 : Byte, le32 (unLe32 x0 x1 x2 x3) = [x0, x1, x2, x3]

/-! ### RAW and PIXCONV (43_raw_pixconv) -/

/-- 43_raw_pixconv R190: `EncodeRaw` on a grid of legal dimensions gives `3 * W * H` bytes with pixel
`(x, y)` at `3 * (y * W + x)` in the order blue, green, red; a bad dimension is `DimensionError`, and
with legal dimensions a grid of another size is refused. -/
def Obligations.RawBodyLayout : Prop :=
  ∀ (cfg : Config) (grid : List Pixel) (W H : Word32),
    (¬ LegalDims cfg W H → encodeRaw cfg grid W H = .err .dimensionError) ∧
    (LegalDims cfg W H → grid.length ≠ W.toNat * H.toNat →
      encodeRaw cfg grid W H = .refused .gridSize) ∧
    (LegalDims cfg W H → grid.length = W.toNat * H.toNat →
      ∃ body, encodeRaw cfg grid W H = .ok body ∧ body.length = 3 * (W.toNat * H.toNat) ∧
        ∀ (x y : Nat) (p : Pixel), x < W.toNat → y < H.toNat → grid[y * W.toNat + x]? = some p →
          memRead body (3 * (y * W.toNat + x)) 3 = some [p.b, p.g, p.r])

/-- 43_raw_pixconv R191, R192: `DecodeRaw` of a body shorter than `3 * W * H` is `SizeMismatch`; of any
longer body it is the grid of its first `3 * W * H` bytes, the rest being ignored. -/
def Obligations.RawDecodeOutcomes : Prop :=
  ∀ (cfg : Config) (body : List Byte) (W H : Word32),
    (¬ LegalDims cfg W H → decodeRaw cfg body W H = .err .dimensionError) ∧
    (LegalDims cfg W H → body.length < 3 * (W.toNat * H.toNat) →
      decodeRaw cfg body W H = .err .sizeMismatch) ∧
    (LegalDims cfg W H → 3 * (W.toNat * H.toNat) ≤ body.length →
      ∃ grid, decodeRaw cfg body W H = .ok grid ∧ grid.length = W.toNat * H.toNat ∧
        ∀ t, decodeRaw cfg (body ++ t) W H = .ok grid)

/-- 43_raw_pixconv R193: the raw round trip in both directions. -/
def Obligations.RawRoundTrip : Prop :=
  (∀ (cfg : Config) (grid : List Pixel) (W H : Word32),
    LegalDims cfg W H → grid.length = W.toNat * H.toNat →
      ∃ body, encodeRaw cfg grid W H = .ok body ∧ decodeRaw cfg body W H = .ok grid) ∧
  (∀ (cfg : Config) (body : List Byte) (W H : Word32),
    LegalDims cfg W H → 3 * (W.toNat * H.toNat) ≤ body.length →
      ∃ grid, decodeRaw cfg body W H = .ok grid ∧
        encodeRaw cfg grid W H = .ok (body.take (3 * (W.toNat * H.toNat))))

/-- 43_raw_pixconv R194: `PIXCONV` is the division of each channel by 256, in the order blue, green, red;
alpha has no influence; it raises no error. That the machine runs it as a call of its own is the model's
choice (log 6), and that the call then ends in one step is too (log 1). -/
def Obligations.PixconvTruncatesEachChannel : Prop :=
  ∀ r16 g16 b16 a16 : Sample,
    (pixconv r16 g16 b16 a16).b.toNat = b16.toNat / 256 ∧
    (pixconv r16 g16 b16 a16).g.toNat = g16.toNat / 256 ∧
    (pixconv r16 g16 b16 a16).r.toNat = r16.toNat / 256 ∧
    (∀ a' : Sample, pixconv r16 g16 b16 a' = pixconv r16 g16 b16 a16) ∧
    ∀ (cfg : Config) (s : State), s.active = .pixConv r16 g16 b16 a16 →
      ∃ t, stepWith cfg s = .next t ∧ t.EndsWith (.ok (.pixel (pixconv r16 g16 b16 a16)))

/-! ### Containers (44_container) -/

/-- 44_container R205: the container round trip, for both kinds of body and with any bytes appended, of
every grid of legal dimensions whose header is not refused (40_header R124). -/
def Obligations.ContainerRoundTrip : Prop :=
  ∀ (cfg : Config) (grid : List Pixel) (W H : Word32) (rleEnable : Bool),
    LegalDims cfg W H → grid.length = W.toNat * H.toNat →
      encodeContainer cfg grid W H rleEnable = .refused .blockCount ∨
        ∃ cont, encodeContainer cfg grid W H rleEnable = .ok cont ∧
          ∀ t, decodeContainer cfg (cont ++ t) = .ok ⟨W, H, grid⟩

/-- 44_container R201, R202: a grid of legal dimensions has a body, the one `rle_enable` selects, and its
container is exactly the 512 header bytes, with the body's block count, and the body, without padding;
it is refused where the block count is; and an error or a refusal of the body is the container's. -/
def Obligations.ContainerIsHeaderThenBody : Prop :=
  ∀ (cfg : Config) (grid : List Pixel) (W H : Word32) (rleEnable : Bool),
    (LegalDims cfg W H → grid.length = W.toNat * H.toNat →
      ∃ body, bodyEnc cfg grid W H rleEnable = .ok body ∧
        (∀ bc, blockCountOf cfg body.length = some bc →
          ∃ cont, encodeContainer cfg grid W H rleEnable = .ok cont ∧
            cont = headerBytes W H (if rleEnable then 1 else 0) bc ++ body ∧
            cont.length = 512 + body.length) ∧
        (blockCountOf cfg body.length = none →
          encodeContainer cfg grid W H rleEnable = .refused .blockCount)) ∧
    (∀ kind, bodyEnc cfg grid W H rleEnable = .err kind →
      encodeContainer cfg grid W H rleEnable = .err kind) ∧
    (∀ reason, bodyEnc cfg grid W H rleEnable = .refused reason →
      encodeContainer cfg grid W H rleEnable = .refused reason)

/-- 44_container R204: header errors come before any body byte is looked at: a container whose first 512
bytes `HDES` rejects fails with that error whatever follows; and one of exactly 512 valid header bytes
fails with `SizeMismatch`, for either kind. -/
def Obligations.HeaderErrorsComeFirst : Prop :=
  (∀ (cfg : Config) (cont : List Byte) (kind : ErrorKind),
    hdes cfg (cont.take 512) = .err kind → decodeContainer cfg cont = .err kind) ∧
  (∀ (cfg : Config) (hdr : List Byte) (f : HeaderFields), hdr.length = 512 → hdes cfg hdr = .ok f →
    decodeContainer cfg hdr = .err .sizeMismatch)

/-! ### Errors, commands and reset (60_exceptions, 70_reset_and_hazards) -/

/-- 60_exceptions R216: the error kinds each operation can raise and the refusals it can give. -/
def Obligations.UnitsRaiseOnlyTheirKinds : Prop :=
  ∀ cfg : Config,
    (∀ w h k L,
      (∀ e, hser cfg w h k L = .err e → e = .unsupportedKind ∨ e = .dimensionError) ∧
      (∀ r, hser cfg w h k L = .refused r → r = .blockCount)) ∧
    (∀ buf,
      (∀ e, hdes cfg buf = .err e →
        e = .headerFormatError ∨ e = .unsupportedKind ∨ e = .dimensionError) ∧
      (∀ r, hdes cfg buf ≠ .refused r)) ∧
    (∀ row, row ≠ [] → ∃ bytes, encodeRow row = .ok bytes) ∧
    (∀ grid W H,
      (∀ e, encodeBody cfg grid W H = .err e → e = .dimensionError) ∧
      (∀ r, encodeBody cfg grid W H = .refused r → r = .gridSize)) ∧
    (∀ body W H,
      (∀ e, decodeBody cfg body W H = .err e →
        e = .unexpectedEndOfData ∨ e = .sizeMismatch ∨ e = .dimensionError) ∧
      (∀ r, decodeBody cfg body W H ≠ .refused r)) ∧
    (∀ grid W H,
      (∀ e, encodeRaw cfg grid W H = .err e → e = .dimensionError) ∧
      (∀ r, encodeRaw cfg grid W H = .refused r → r = .gridSize)) ∧
    (∀ body W H,
      (∀ e, decodeRaw cfg body W H = .err e → e = .sizeMismatch ∨ e = .dimensionError) ∧
      (∀ r, decodeRaw cfg body W H ≠ .refused r))

/-- 60_exceptions R214: `CheckDims` raises `DimensionError` exactly for a dimension that is 0 or above
`DIM_MAX`, each dimension separately, and nothing else. -/
def Obligations.CheckDimsRaisesExactly : Prop :=
  ∀ (cfg : Config) (W H : Word32),
    ((W = 0 ∨ H = 0 ∨ cfg.dimMax < W.toNat ∨ cfg.dimMax < H.toNat) →
      checkDims cfg W H = some .dimensionError) ∧
    (1 ≤ W.toNat → 1 ≤ H.toNat → W.toNat ≤ cfg.dimMax → H.toNat ≤ cfg.dimMax →
      checkDims cfg W H = none)

/-- 60_exceptions R218, 10_state R40: taking an error in any step: the machine is idle, `STATUS.code` is
the kind's code, the outcome is the kind with no data, and what the unit had emitted is void. That a
void stream stands empty is the model's choice (log 11). -/
def Obligations.ErrorEntryVoidsTheOutput : Prop :=
  ∀ (cfg : Config) (s t : State) (kind : ErrorKind), (s.active = .idle → s.call ≠ none) →
    (s.active ≠ .idle → s.outcome = none) → stepWith cfg s = .next t →
    t.outcome = some (.err kind) →
      t.active = .idle ∧ t.status = kind.code ∧ t.outputVoid s.active ∧
      (∀ grid W H rle, s.active = .idle → s.call = some (.bodyEnc grid W H rle) →
        t.mem.body = []) ∧
      (∀ body W H k, s.active = .idle → s.call = some (.bodyDec body W H k) → t.mem.grid = [])

/-- 10_state R20, 60_exceptions R219, R232: no state survives a call. From any two states, however their last
operations ended, the same call presented next runs the same steps. For the registers a call does not
name, the start writes the model's choice of a value (log 3, log 16). -/
def Obligations.NoStateSurvivesACall : Prop :=
  ∀ (cfg : Config) (c : Call) (s s' t t' : State) (k : Nat),
    s.present c = some t → s'.present c = some t' → runWith cfg (k + 1) t = runWith cfg (k + 1) t'

/-- 60_exceptions R222, 70_reset_and_hazards R247: the host can present a call to an idle machine with none
presented, changing nothing else, and to no other. The port for one call is the model's choice (log 4). -/
def Obligations.HostMovesOnlyWhenIdle : Prop :=
  ∀ (c : Call) (s : State),
    (s.active = .idle → s.call = none → s.present c = some { s with call := some c }) ∧
    (s.active ≠ .idle ∨ s.call ≠ none → s.present c = none)

/-- 10_state R48, 70_reset_and_hazards R240: the reset table at the start of an operation, for `BODY_ENC`
with RLE and for `BODY_DEC` with `kind = 1`, in the state after the starting step, which is a step of
its own by the model's choice (log 1). The values of `cur`, `nxt`, `runbuf`, `ctrl`, `n` and `pix`, which
R48 leaves unspecified, are the model's choice (log 2). -/
def Obligations.OperationStartsFromTheResetTable : Prop :=
  ∀ (cfg : Config) (s : State) (W H : Word32), s.active = .idle → LegalDims cfg W H →
    (∀ grid, grid.length = W.toNat * H.toNat → s.call = some (.bodyEnc grid W H true) →
      ∃ t, stepWith cfg s = .next t ∧ t.active = .renc ∧
        t.renc.mode = .none ∧ t.renc.count = 0 ∧ t.renc.i = 0 ∧ t.renc.row = 0 ∧
        t.renc.cur = resetPixel ∧ t.renc.nxt = resetPixel ∧ t.renc.runbuf = resetRunbuf ∧
        t.renc.W = W ∧ t.renc.H = H ∧ t.mem.grid = grid ∧ t.mem.body = [] ∧ t.status = 0 ∧
        t.outcome = none) ∧
    (∀ body, s.call = some (.bodyDec body W H 1) →
      ∃ t, stepWith cfg s = .next t ∧ t.active = .rdec ∧
        t.rdec.cursor = 0 ∧ t.rdec.emitted = 0 ∧ t.rdec.total = W.toNat * H.toNat ∧
        t.rdec.blen = body.length ∧ t.rdec.ctrl = 0 ∧ t.rdec.n = 0 ∧ t.rdec.pix = resetPixel ∧
        t.rdec.W = W ∧ t.rdec.H = H ∧ t.mem.body = body ∧ t.mem.grid = [] ∧ t.status = 0 ∧
        t.outcome = none)

/-- 60_exceptions R230, 00_scope R9, 70_reset_and_hazards R242, R246, R245: every call presented to the
machine ends, within two steps more than it has pixels, with exactly the outcome its operands determine:
the result of its unit's function, its error, or its refusal. The number of steps rests on the model's
choice of a step (log 1). -/
def Obligations.EveryCallEndsWithItsOutcome : Prop :=
  ∀ (cfg : Config) (c : Call) (s t : State), s.present c = some t →
    Leaves cfg (pixelTotal c.dims.1 c.dims.2 + 2) t (callResult cfg c)

/-- 70_reset_and_hazards R242: an idle machine with no call does nothing. That it takes such steps at all
is the model's choice (log 4). -/
def Obligations.IdleMachineStays : Prop :=
  ∀ (cfg : Config) (s : State), s.active = .idle → s.call = none → stepWith cfg s = .next s

/-! ### The invariant -/

/-- The state after reset meets the invariant (10_state R24, R27, R30, R40, R43). -/
def Obligations.ResetMeetsTheInvariant : Prop := State.reset.Inv

/-- Every step keeps the invariant, and so does the host's move: the header buffer has 512 bytes, `count`
and `mode` agree and stay below the cap, `runbuf` has 128 entries, `emitted` stays within
`total`, `STATUS.code` is the outcome's code (10_state R24, R27, R30, R40, R43). -/
def Obligations.EveryStepKeepsTheInvariant : Prop :=
  (∀ (cfg : Config) (s t : State), s.Inv → stepWith cfg s = .next t → t.Inv) ∧
    ∀ (c : Call) (s t : State), s.Inv → s.present c = some t → t.Inv

/-- 20_memory R66 and 10_state R27, R49: from a state that meets the invariant no step faults, so none
fetches a pixel outside the grid; and no step reads a register that R48 or R27 specifies no value for:
from any other values of these registers the step does the same, but for these registers. The only
refusals are of a grid, by the start of an RLE `BODY_ENC` or by `RAW` encode at work, and of a block
count, by `HSER` at work. That these registers hold values is the model's choice (log 2). -/
def Obligations.NoStepFaultsOrReadsUnspecified : Prop :=
  ∀ (cfg : Config) (s : State), s.Inv →
    (∀ f, stepWith cfg s ≠ .fault f) ∧
    (∀ (s' t : State), SameButUnspecified s s' → stepWith cfg s = .next t →
      ∃ t', stepWith cfg s' = .next t' ∧ SameButUnspecified t t') ∧
    ∀ r, stepWith cfg s = .refused r →
      (∀ s' : State, SameButUnspecified s s' → stepWith cfg s' = .refused r) ∧
      (r = .gridSize ∧
          (s.active = .idle ∧ (∃ grid W H, s.call = some (.bodyEnc grid W H true)) ∨
            ∃ W H, s.active = .rawEnc W H) ∨
        r = .blockCount ∧ s.active = .hser)

/-- 20_memory R83, R80, 70_reset_and_hazards R247: a decode never writes the body it executes and an encode
never writes the grid it reads; `RDEC` only appends to `GRID`, unless it ends with an error, and `RENC`
only appends to `BODY`. -/
def Obligations.InputsStayAndOutputsGrow : Prop :=
  ∀ (cfg : Config) (s t : State), stepWith cfg s = .next t →
    (s.active = .rdec → t.mem.body = s.mem.body ∧
      ((∃ kind, t.outcome = some (.err kind)) ∨ ∃ ps, t.mem.grid = s.mem.grid ++ ps)) ∧
    (s.active = .renc → t.mem.grid = s.mem.grid ∧ ∃ bytes, t.mem.body = s.mem.body ++ bytes)
end

