-- ==== Sys2Proof/Laws/Decode.lean ====
section
/-! SUPPORT. The small lemmas of the decoder and the encoder (30_encoding). -/

namespace Sys2Proof

@[simp] theorem maxRun_eq : maxRun = 128 := rfl

@[simp] theorem pixelBytes_eq : pixelBytes = 3 := rfl

@[simp] theorem headerSize_eq : headerSize = 512 := rfl

@[simp] theorem blockSize_eq : blockSize = 512 := rfl

@[simp] theorem zeroBytes_length (n : Nat) : (zeroBytes n).length = n := by simp [zeroBytes]

@[simp] theorem pixbytes_length (p : Pixel) : (pixbytes p).length = 3 := rfl

@[simp] theorem pixelsBytes_nil : pixelsBytes [] = [] := rfl

@[simp] theorem pixelsBytes_cons (p : Pixel) (ps : List Pixel) :
    pixelsBytes (p :: ps) = p.b :: p.g :: p.r :: pixelsBytes ps := rfl

theorem pixelsBytes_append (ps qs : List Pixel) :
    pixelsBytes (ps ++ qs) = pixelsBytes ps ++ pixelsBytes qs := by
  simp [pixelsBytes]

@[simp] theorem pixelsBytes_length (ps : List Pixel) : (pixelsBytes ps).length = 3 * ps.length := by
  induction ps with
  | nil => rfl
  | cons p ps ih => simp [ih]; omega

/-- Reading back the bytes of pixels gives the pixels and what follows. -/
theorem takePixels_pixelsBytes (ps : List Pixel) (rest : List Byte) :
    takePixels ps.length (pixelsBytes ps ++ rest) = some (ps, rest) := by
  induction ps with
  | nil => rfl
  | cons p ps ih => simp [takePixels, ih]

/-- What `takePixels` answers is `n` pixels whose bytes were at the front. -/
theorem takePixels_eq_some {n : Nat} {bytes : List Byte} {ps : List Pixel} {rest : List Byte}
    (h : takePixels n bytes = some (ps, rest)) : ps.length = n ∧ pixelsBytes ps ++ rest = bytes := by
  induction n generalizing bytes ps rest with
  | zero =>
    obtain ⟨rfl, rfl⟩ := by simpa [takePixels] using h
    exact ⟨rfl, rfl⟩
  | succ n ih =>
    match bytes, h with
    | b :: g :: r :: bs, h =>
      simp only [takePixels] at h
      split at h
      · next qs after hq =>
        obtain ⟨rfl, rfl⟩ := by simpa using h
        obtain ⟨hl, hb⟩ := ih hq
        exact ⟨by simp [hl], by simp [hb]⟩
      · simp at h

/-- `takePixels` answers exactly where `3 * n` bytes are there. -/
theorem takePixels_isSome {n : Nat} {bytes : List Byte} :
    (takePixels n bytes).isSome ↔ 3 * n ≤ bytes.length := by
  induction n generalizing bytes with
  | zero => simp [takePixels]
  | succ n ih =>
    match bytes with
    | [] => simp [takePixels]
    | [_] => simp [takePixels]; omega
    | [_, _] => simp [takePixels]; omega
    | b :: g :: r :: bs =>
      have := ih (bytes := bs)
      simp only [takePixels]
      cases h : takePixels n bs <;> simp [h] at this ⊢ <;> omega

theorem takePixels_eq_none {n : Nat} {bytes : List Byte} :
    takePixels n bytes = none ↔ bytes.length < 3 * n := by
  have := takePixels_isSome (n := n) (bytes := bytes)
  cases h : takePixels n bytes <;> simp [h] at this ⊢ <;> omega

/-! ### Control bytes -/

theorem controlIsRepeat_iff (c : Byte) : controlIsRepeat c = true ↔ 128 ≤ c.toNat := by
  simp [controlIsRepeat, controlCount]

theorem controlRunLength_of_lt {c : Byte} (h : c.toNat < 128) : controlRunLength c = c.toNat + 1 := by
  have : ¬ controlIsRepeat c = true := by rw [controlIsRepeat_iff]; omega
  simp [controlRunLength, this, controlCount]

theorem controlRunLength_of_ge {c : Byte} (h : 128 ≤ c.toNat) : controlRunLength c = c.toNat - 127 := by
  simp [controlRunLength, (controlIsRepeat_iff c).2 h, controlCount]

/-- A control byte declares 1 to 128 pixels (30_encoding R96). -/
theorem controlRunLength_bounds (c : Byte) : 1 ≤ controlRunLength c ∧ controlRunLength c ≤ 128 := by
  have := c.isLt
  by_cases h : c.toNat < 128
  · rw [controlRunLength_of_lt h]; omega
  · rw [controlRunLength_of_ge (by omega)]; omega

theorem litControl_toNat {n : Nat} (h : n ≤ 128) : (litControl n).toNat = n - 1 := by
  simp [litControl]; omega

theorem repControl_toNat {n : Nat} (h : n ≤ 128) : (repControl n).toNat = n - 1 + 128 := by
  simp [repControl]; omega

theorem litControl_controlRunLength (c : Byte) (h : c.toNat < 128) : litControl (controlRunLength c) = c := by
  apply BitVec.eq_of_toNat_eq
  rw [litControl_toNat (controlRunLength_bounds c).2, controlRunLength_of_lt h]; omega

theorem repControl_controlRunLength (c : Byte) (h : 128 ≤ c.toNat) : repControl (controlRunLength c) = c := by
  apply BitVec.eq_of_toNat_eq
  rw [repControl_toNat (controlRunLength_bounds c).2, controlRunLength_of_ge h]; omega

theorem controlRunLength_litControl {n : Nat} (h1 : 1 ≤ n) (h : n ≤ 128) :
    controlIsRepeat (litControl n) = false ∧ controlRunLength (litControl n) = n := by
  have := litControl_toNat h
  constructor
  · rw [Bool.eq_false_iff, ne_eq, controlIsRepeat_iff]; omega
  · rw [controlRunLength_of_lt (by omega)]; omega

theorem controlRunLength_repControl {n : Nat} (h1 : 1 ≤ n) (h : n ≤ 128) :
    controlIsRepeat (repControl n) = true ∧ controlRunLength (repControl n) = n := by
  have := repControl_toNat h
  constructor
  · rw [controlIsRepeat_iff]; omega
  · rw [controlRunLength_of_ge (by omega)]; omega

/-! ### Well-formed entries -/

@[simp] theorem runLengthOk_iff (n : Nat) : runLengthOk n = true ↔ 1 ≤ n ∧ n ≤ 128 := by
  simp [runLengthOk]

theorem wellFormed_iff (i : Instr) : i.wellFormed = true ↔ 1 ≤ i.runLength ∧ i.runLength ≤ 128 := by
  cases i <;> simp [Instr.wellFormed, Instr.runLength]

@[simp] theorem pixels_length (i : Instr) : i.pixels.length = i.runLength := by
  cases i <;> simp [Instr.pixels, Instr.runLength]

@[simp] theorem encode_length (i : Instr) : (encode i).length = 1 + i.payloadLength := by
  cases i with
  | lit ps => simp [encode, Instr.payloadLength]; omega
  | rep n p => simp [encode, Instr.payloadLength]

@[simp] theorem encodeAll_nil : encodeAll [] = [] := rfl

@[simp] theorem encodeAll_cons (i : Instr) (is : List Instr) :
    encodeAll (i :: is) = encode i ++ encodeAll is := rfl

theorem encodeAll_append (is js : List Instr) : encodeAll (is ++ js) = encodeAll is ++ encodeAll js := by
  simp [encodeAll]

/-! ### The decoder, by its cases -/

@[simp] theorem decode_nil : decode [] = .error .noControlByte := rfl

theorem decode_cons_lit {c : Byte} (h : c.toNat < 128) (payload : List Byte) :
    decode (c :: payload) =
      match takePixels (controlRunLength c) payload with
      | some (ps, rest) => .ok (.lit ps, rest)
      | none => .error .payloadCut := by
  have : ¬ controlIsRepeat c = true := by rw [controlIsRepeat_iff]; omega
  exact if_neg this

theorem decode_cons_rep {c : Byte} (h : 128 ≤ c.toNat) (payload : List Byte) :
    decode (c :: payload) =
      match payload with
      | b :: g :: r :: rest => .ok (.rep (controlRunLength c) ⟨b, g, r⟩, rest)
      | _ => .error .payloadCut := by
  exact if_pos ((controlIsRepeat_iff c).2 h)

/-- The only rejection of a sequence with a control byte is a payload that is cut: fewer payload bytes
than the control byte declares (42_rle_decode R175). -/
theorem decode_cons_error {c : Byte} {payload : List Byte} {e : DecodeReject}
    (h : decode (c :: payload) = .error e) :
    e = .payloadCut ∧ payload.length < controlPayloadLength c := by
  by_cases hc : c.toNat < 128
  · rw [decode_cons_lit hc] at h
    have hr : ¬ controlIsRepeat c = true := by rw [controlIsRepeat_iff]; omega
    split at h
    · simp at h
    · next hn =>
      rw [takePixels_eq_none] at hn
      simp at h
      exact ⟨h.symm, by simp [controlPayloadLength, hr]; omega⟩
  · have hr := (controlIsRepeat_iff c).2 (by omega)
    rw [decode_cons_rep (by omega)] at h
    match payload, h with
    | [], h => simp at h; exact ⟨h.symm, by simp [controlPayloadLength, hr]⟩
    | [_], h => simp at h; exact ⟨h.symm, by simp [controlPayloadLength, hr]⟩
    | [_, _], h => simp at h; exact ⟨h.symm, by simp [controlPayloadLength, hr]⟩
    | _ :: _ :: _ :: _, h => simp at h

/-- A payload that is cut is rejected (42_rle_decode R175). -/
theorem decode_cons_payloadCut {c : Byte} {payload : List Byte}
    (h : payload.length < controlPayloadLength c) : decode (c :: payload) = .error .payloadCut := by
  by_cases hc : c.toNat < 128
  · have hr : controlIsRepeat c = false := by rw [Bool.eq_false_iff, ne_eq, controlIsRepeat_iff]; omega
    have hn : takePixels (controlRunLength c) payload = none := by
      rw [takePixels_eq_none]; simpa [controlPayloadLength, hr] using h
    rw [decode_cons_lit hc, hn]
  · have hr := (controlIsRepeat_iff c).2 (by omega)
    rw [decode_cons_rep (by omega)]
    match payload, h with
    | [], _ => rfl
    | [_], _ => rfl
    | [_, _], _ => rfl
    | _ :: _ :: _ :: _, h => simp [controlPayloadLength, hr] at h; omega

end Sys2Proof
end

