-- ==== Sys2Proof/Laws/State.lean ====
section
/-! SUPPORT. One lemma per field per update of the state, so that no proof unfolds a record update. -/

namespace Sys2Proof.Machine

@[simp] theorem State.setRenc_call (s : State) (r : Renc) : (s.setRenc r).call = s.call := rfl
@[simp] theorem State.setRenc_active (s : State) (r : Renc) : (s.setRenc r).active = s.active := rfl
@[simp] theorem State.setRenc_renc (s : State) (r : Renc) : (s.setRenc r).renc = r := rfl
@[simp] theorem State.setRenc_rdec (s : State) (r : Renc) : (s.setRenc r).rdec = s.rdec := rfl
@[simp] theorem State.setRenc_hdrLatch (s : State) (r : Renc) : (s.setRenc r).hdrLatch = s.hdrLatch := rfl
@[simp] theorem State.setRenc_mem (s : State) (r : Renc) : (s.setRenc r).mem = s.mem := rfl
@[simp] theorem State.setRenc_status (s : State) (r : Renc) : (s.setRenc r).status = s.status := rfl
@[simp] theorem State.setRenc_outcome (s : State) (r : Renc) : (s.setRenc r).outcome = s.outcome := rfl

@[simp] theorem State.setRdec_call (s : State) (r : Rdec) : (s.setRdec r).call = s.call := rfl
@[simp] theorem State.setRdec_active (s : State) (r : Rdec) : (s.setRdec r).active = s.active := rfl
@[simp] theorem State.setRdec_renc (s : State) (r : Rdec) : (s.setRdec r).renc = s.renc := rfl
@[simp] theorem State.setRdec_rdec (s : State) (r : Rdec) : (s.setRdec r).rdec = r := rfl
@[simp] theorem State.setRdec_hdrLatch (s : State) (r : Rdec) : (s.setRdec r).hdrLatch = s.hdrLatch := rfl
@[simp] theorem State.setRdec_mem (s : State) (r : Rdec) : (s.setRdec r).mem = s.mem := rfl
@[simp] theorem State.setRdec_status (s : State) (r : Rdec) : (s.setRdec r).status = s.status := rfl
@[simp] theorem State.setRdec_outcome (s : State) (r : Rdec) : (s.setRdec r).outcome = s.outcome := rfl

@[simp] theorem State.setHdrLatch_call (s : State) (l : HeaderLatches) : (s.setHdrLatch l).call = s.call := rfl
@[simp] theorem State.setHdrLatch_active (s : State) (l : HeaderLatches) : (s.setHdrLatch l).active = s.active := rfl
@[simp] theorem State.setHdrLatch_renc (s : State) (l : HeaderLatches) : (s.setHdrLatch l).renc = s.renc := rfl
@[simp] theorem State.setHdrLatch_rdec (s : State) (l : HeaderLatches) : (s.setHdrLatch l).rdec = s.rdec := rfl
@[simp] theorem State.setHdrLatch_hdrLatch (s : State) (l : HeaderLatches) : (s.setHdrLatch l).hdrLatch = l := rfl
@[simp] theorem State.setHdrLatch_mem (s : State) (l : HeaderLatches) : (s.setHdrLatch l).mem = s.mem := rfl
@[simp] theorem State.setHdrLatch_status (s : State) (l : HeaderLatches) : (s.setHdrLatch l).status = s.status := rfl
@[simp] theorem State.setHdrLatch_outcome (s : State) (l : HeaderLatches) : (s.setHdrLatch l).outcome = s.outcome := rfl

@[simp] theorem State.setMem_call (s : State) (m : Memory) : (s.setMem m).call = s.call := rfl
@[simp] theorem State.setMem_active (s : State) (m : Memory) : (s.setMem m).active = s.active := rfl
@[simp] theorem State.setMem_renc (s : State) (m : Memory) : (s.setMem m).renc = s.renc := rfl
@[simp] theorem State.setMem_rdec (s : State) (m : Memory) : (s.setMem m).rdec = s.rdec := rfl
@[simp] theorem State.setMem_hdrLatch (s : State) (m : Memory) : (s.setMem m).hdrLatch = s.hdrLatch := rfl
@[simp] theorem State.setMem_mem (s : State) (m : Memory) : (s.setMem m).mem = m := rfl
@[simp] theorem State.setMem_status (s : State) (m : Memory) : (s.setMem m).status = s.status := rfl
@[simp] theorem State.setMem_outcome (s : State) (m : Memory) : (s.setMem m).outcome = s.outcome := rfl

@[simp] theorem State.setActive_call (s : State) (a : Activity) : (s.setActive a).call = s.call := rfl
@[simp] theorem State.setActive_active (s : State) (a : Activity) : (s.setActive a).active = a := rfl
@[simp] theorem State.setActive_renc (s : State) (a : Activity) : (s.setActive a).renc = s.renc := rfl
@[simp] theorem State.setActive_rdec (s : State) (a : Activity) : (s.setActive a).rdec = s.rdec := rfl
@[simp] theorem State.setActive_hdrLatch (s : State) (a : Activity) : (s.setActive a).hdrLatch = s.hdrLatch := rfl
@[simp] theorem State.setActive_mem (s : State) (a : Activity) : (s.setActive a).mem = s.mem := rfl
@[simp] theorem State.setActive_status (s : State) (a : Activity) : (s.setActive a).status = s.status := rfl
@[simp] theorem State.setActive_outcome (s : State) (a : Activity) : (s.setActive a).outcome = s.outcome := rfl

@[simp] theorem State.emitBody_call (s : State) (v : List Byte) : (s.emitBody v).call = s.call := rfl
@[simp] theorem State.emitBody_active (s : State) (v : List Byte) : (s.emitBody v).active = s.active := rfl
@[simp] theorem State.emitBody_renc (s : State) (v : List Byte) : (s.emitBody v).renc = s.renc := rfl
@[simp] theorem State.emitBody_rdec (s : State) (v : List Byte) : (s.emitBody v).rdec = s.rdec := rfl
@[simp] theorem State.emitBody_hdrLatch (s : State) (v : List Byte) : (s.emitBody v).hdrLatch = s.hdrLatch := rfl
@[simp] theorem State.emitBody_mem (s : State) (v : List Byte) : (s.emitBody v).mem = s.mem.emitBody v := rfl
@[simp] theorem State.emitBody_status (s : State) (v : List Byte) : (s.emitBody v).status = s.status := rfl
@[simp] theorem State.emitBody_outcome (s : State) (v : List Byte) : (s.emitBody v).outcome = s.outcome := rfl

@[simp] theorem finish_call (r : Result) (s : State) : (finish r s).call = s.call := rfl
@[simp] theorem finish_active (r : Result) (s : State) : (finish r s).active = .idle := rfl
@[simp] theorem finish_renc (r : Result) (s : State) : (finish r s).renc = s.renc := rfl
@[simp] theorem finish_rdec (r : Result) (s : State) : (finish r s).rdec = s.rdec := rfl
@[simp] theorem finish_hdrLatch (r : Result) (s : State) : (finish r s).hdrLatch = s.hdrLatch := rfl
@[simp] theorem finish_mem (r : Result) (s : State) : (finish r s).mem = s.mem := rfl
@[simp] theorem finish_status (r : Result) (s : State) : (finish r s).status = okCode := rfl
@[simp] theorem finish_outcome (r : Result) (s : State) : (finish r s).outcome = some (.ok r) := rfl

@[simp] theorem endRun_call (s : State) : (endRun s).call = s.call := rfl
@[simp] theorem endRun_active (s : State) : (endRun s).active = s.active := rfl
@[simp] theorem endRun_renc (s : State) : (endRun s).renc = { s.renc with mode := .none, count := 0 } := rfl
@[simp] theorem endRun_rdec (s : State) : (endRun s).rdec = s.rdec := rfl
@[simp] theorem endRun_hdrLatch (s : State) : (endRun s).hdrLatch = s.hdrLatch := rfl
@[simp] theorem endRun_mem (s : State) : (endRun s).mem = s.mem := rfl
@[simp] theorem endRun_status (s : State) : (endRun s).status = s.status := rfl
@[simp] theorem endRun_outcome (s : State) : (endRun s).outcome = s.outcome := rfl

@[simp] theorem flushLit_call (n : Nat) (s : State) : (flushLit n s).call = s.call := rfl
@[simp] theorem flushLit_active (n : Nat) (s : State) : (flushLit n s).active = s.active := rfl
@[simp] theorem flushLit_renc (n : Nat) (s : State) : (flushLit n s).renc = s.renc := rfl
@[simp] theorem flushLit_rdec (n : Nat) (s : State) : (flushLit n s).rdec = s.rdec := rfl
@[simp] theorem flushLit_hdrLatch (n : Nat) (s : State) : (flushLit n s).hdrLatch = s.hdrLatch := rfl
@[simp] theorem flushLit_mem (n : Nat) (s : State) : (flushLit n s).mem = s.mem.emitBody (encode (.lit (s.renc.runbuf.take n))) := rfl
@[simp] theorem flushLit_status (n : Nat) (s : State) : (flushLit n s).status = s.status := rfl
@[simp] theorem flushLit_outcome (n : Nat) (s : State) : (flushLit n s).outcome = s.outcome := rfl

@[simp] theorem bufferPixel_call (p : Pixel) (s : State) : (bufferPixel p s).call = s.call := rfl
@[simp] theorem bufferPixel_active (p : Pixel) (s : State) : (bufferPixel p s).active = s.active := rfl
@[simp] theorem bufferPixel_renc (p : Pixel) (s : State) : (bufferPixel p s).renc = { s.renc with runbuf := s.renc.runbuf.set s.renc.count.toNat p } := rfl
@[simp] theorem bufferPixel_rdec (p : Pixel) (s : State) : (bufferPixel p s).rdec = s.rdec := rfl
@[simp] theorem bufferPixel_hdrLatch (p : Pixel) (s : State) : (bufferPixel p s).hdrLatch = s.hdrLatch := rfl
@[simp] theorem bufferPixel_mem (p : Pixel) (s : State) : (bufferPixel p s).mem = s.mem := rfl
@[simp] theorem bufferPixel_status (p : Pixel) (s : State) : (bufferPixel p s).status = s.status := rfl
@[simp] theorem bufferPixel_outcome (p : Pixel) (s : State) : (bufferPixel p s).outcome = s.outcome := rfl

@[simp] theorem flushRep_call (n : Nat) (p : Pixel) (s : State) : (flushRep n p s).call = s.call := rfl
@[simp] theorem flushRep_active (n : Nat) (p : Pixel) (s : State) : (flushRep n p s).active = s.active := rfl
@[simp] theorem flushRep_renc (n : Nat) (p : Pixel) (s : State) : (flushRep n p s).renc = s.renc := rfl
@[simp] theorem flushRep_rdec (n : Nat) (p : Pixel) (s : State) : (flushRep n p s).rdec = s.rdec := rfl
@[simp] theorem flushRep_hdrLatch (n : Nat) (p : Pixel) (s : State) : (flushRep n p s).hdrLatch = s.hdrLatch := rfl
@[simp] theorem flushRep_mem (n : Nat) (p : Pixel) (s : State) : (flushRep n p s).mem = s.mem.emitBody (encode (.rep n p)) := rfl
@[simp] theorem flushRep_status (n : Nat) (p : Pixel) (s : State) : (flushRep n p s).status = s.status := rfl
@[simp] theorem flushRep_outcome (n : Nat) (p : Pixel) (s : State) : (flushRep n p s).outcome = s.outcome := rfl

@[simp] theorem latchPix_call (p : Pixel) (s : State) : (latchPix p s).call = s.call := rfl
@[simp] theorem latchPix_active (p : Pixel) (s : State) : (latchPix p s).active = s.active := rfl
@[simp] theorem latchPix_renc (p : Pixel) (s : State) : (latchPix p s).renc = s.renc := rfl
@[simp] theorem latchPix_rdec (p : Pixel) (s : State) : (latchPix p s).rdec = { s.rdec with pix := p } := rfl
@[simp] theorem latchPix_hdrLatch (p : Pixel) (s : State) : (latchPix p s).hdrLatch = s.hdrLatch := rfl
@[simp] theorem latchPix_mem (p : Pixel) (s : State) : (latchPix p s).mem = s.mem := rfl
@[simp] theorem latchPix_status (p : Pixel) (s : State) : (latchPix p s).status = s.status := rfl
@[simp] theorem latchPix_outcome (p : Pixel) (s : State) : (latchPix p s).outcome = s.outcome := rfl

@[simp] theorem emitRun_call (ps : List Pixel) (need : Nat) (s : State) : (emitRun ps need s).call = s.call := rfl
@[simp] theorem emitRun_active (ps : List Pixel) (need : Nat) (s : State) : (emitRun ps need s).active = s.active := rfl
@[simp] theorem emitRun_renc (ps : List Pixel) (need : Nat) (s : State) : (emitRun ps need s).renc = s.renc := rfl
@[simp] theorem emitRun_rdec (ps : List Pixel) (need : Nat) (s : State) : (emitRun ps need s).rdec = { s.rdec with cursor := s.rdec.cursor + need, emitted := s.rdec.emitted + ps.length } := rfl
@[simp] theorem emitRun_hdrLatch (ps : List Pixel) (need : Nat) (s : State) : (emitRun ps need s).hdrLatch = s.hdrLatch := rfl
@[simp] theorem emitRun_mem (ps : List Pixel) (need : Nat) (s : State) : (emitRun ps need s).mem = s.mem.emitGrid ps := rfl
@[simp] theorem emitRun_status (ps : List Pixel) (need : Nat) (s : State) : (emitRun ps need s).status = s.status := rfl
@[simp] theorem emitRun_outcome (ps : List Pixel) (need : Nat) (s : State) : (emitRun ps need s).outcome = s.outcome := rfl

@[simp] theorem Memory.writeHdr_hdr (m : Memory) (addr : Nat) (v : List Byte) : (m.writeHdr addr v).hdr = memWrite m.hdr addr v := rfl
@[simp] theorem Memory.writeHdr_body (m : Memory) (addr : Nat) (v : List Byte) : (m.writeHdr addr v).body = m.body := rfl
@[simp] theorem Memory.writeHdr_grid (m : Memory) (addr : Nat) (v : List Byte) : (m.writeHdr addr v).grid = m.grid := rfl

@[simp] theorem Memory.emitBody_hdr (m : Memory) (v : List Byte) : (m.emitBody v).hdr = m.hdr := rfl
@[simp] theorem Memory.emitBody_body (m : Memory) (v : List Byte) : (m.emitBody v).body = m.body ++ v := rfl
@[simp] theorem Memory.emitBody_grid (m : Memory) (v : List Byte) : (m.emitBody v).grid = m.grid := rfl

@[simp] theorem Memory.emitGrid_hdr (m : Memory) (ps : List Pixel) : (m.emitGrid ps).hdr = m.hdr := rfl
@[simp] theorem Memory.emitGrid_body (m : Memory) (ps : List Pixel) : (m.emitGrid ps).body = m.body := rfl
@[simp] theorem Memory.emitGrid_grid (m : Memory) (ps : List Pixel) : (m.emitGrid ps).grid = m.grid ++ ps := rfl

@[simp] theorem fetchControl_cursor (c : Byte) (r : Rdec) : (fetchControl c r).cursor = r.cursor + 1 := rfl
@[simp] theorem fetchControl_emitted (c : Byte) (r : Rdec) : (fetchControl c r).emitted = r.emitted := rfl
@[simp] theorem fetchControl_total (c : Byte) (r : Rdec) : (fetchControl c r).total = r.total := rfl
@[simp] theorem fetchControl_blen (c : Byte) (r : Rdec) : (fetchControl c r).blen = r.blen := rfl
@[simp] theorem fetchControl_ctrl (c : Byte) (r : Rdec) : (fetchControl c r).ctrl = c := rfl
@[simp] theorem fetchControl_n (c : Byte) (r : Rdec) : (fetchControl c r).n = r.n := rfl
@[simp] theorem fetchControl_pix (c : Byte) (r : Rdec) : (fetchControl c r).pix = r.pix := rfl
@[simp] theorem fetchControl_W (c : Byte) (r : Rdec) : (fetchControl c r).W = r.W := rfl
@[simp] theorem fetchControl_H (c : Byte) (r : Rdec) : (fetchControl c r).H = r.H := rfl

@[simp] theorem decodeControl_cursor (c : Byte) (r : Rdec) : (decodeControl c r).cursor = r.cursor := rfl
@[simp] theorem decodeControl_emitted (c : Byte) (r : Rdec) : (decodeControl c r).emitted = r.emitted := rfl
@[simp] theorem decodeControl_total (c : Byte) (r : Rdec) : (decodeControl c r).total = r.total := rfl
@[simp] theorem decodeControl_blen (c : Byte) (r : Rdec) : (decodeControl c r).blen = r.blen := rfl
@[simp] theorem decodeControl_ctrl (c : Byte) (r : Rdec) : (decodeControl c r).ctrl = r.ctrl := rfl
@[simp] theorem decodeControl_n (c : Byte) (r : Rdec) : (decodeControl c r).n = BitVec.ofNat 8 (controlRunLength c) := rfl
@[simp] theorem decodeControl_pix (c : Byte) (r : Rdec) : (decodeControl c r).pix = r.pix := rfl
@[simp] theorem decodeControl_W (c : Byte) (r : Rdec) : (decodeControl c r).W = r.W := rfl
@[simp] theorem decodeControl_H (c : Byte) (r : Rdec) : (decodeControl c r).H = r.H := rfl

@[simp] theorem voidOutput_call (s : State) : (voidOutput s).call = s.call := by unfold voidOutput; split <;> rfl
@[simp] theorem voidOutput_active (s : State) : (voidOutput s).active = s.active := by unfold voidOutput; split <;> rfl
@[simp] theorem voidOutput_renc (s : State) : (voidOutput s).renc = s.renc := by unfold voidOutput; split <;> rfl
@[simp] theorem voidOutput_rdec (s : State) : (voidOutput s).rdec = s.rdec := by unfold voidOutput; split <;> rfl
@[simp] theorem voidOutput_status (s : State) : (voidOutput s).status = s.status := by unfold voidOutput; split <;> rfl
@[simp] theorem voidOutput_outcome (s : State) : (voidOutput s).outcome = s.outcome := by unfold voidOutput; split <;> rfl

@[simp] theorem raise_active (kind : ErrorKind) (s : State) : (raise kind s).active = .idle := rfl
@[simp] theorem raise_status (kind : ErrorKind) (s : State) : (raise kind s).status = kind.code := rfl
@[simp] theorem raise_outcome (kind : ErrorKind) (s : State) : (raise kind s).outcome = some (.err kind) := rfl
@[simp] theorem raise_call (kind : ErrorKind) (s : State) : (raise kind s).call = s.call := voidOutput_call s
@[simp] theorem raise_renc (kind : ErrorKind) (s : State) : (raise kind s).renc = s.renc := voidOutput_renc s
@[simp] theorem raise_rdec (kind : ErrorKind) (s : State) : (raise kind s).rdec = s.rdec := voidOutput_rdec s

@[simp] theorem startState_call (c : Call) : (startState c).call = none := rfl
@[simp] theorem startState_active (c : Call) : (startState c).active = .idle := rfl
@[simp] theorem startState_renc (c : Call) : (startState c).renc = Renc.start c.dims.1 c.dims.2 := rfl
@[simp] theorem startState_rdec (c : Call) :
    (startState c).rdec = Rdec.start c.dims.1 c.dims.2 c.memory.body.length := rfl
@[simp] theorem startState_hdrLatch (c : Call) : (startState c).hdrLatch = c.latches := rfl
theorem startState_mem (c : Call) : (startState c).mem = c.memory := rfl
@[simp] theorem startState_status (c : Call) : (startState c).status = okCode := rfl
@[simp] theorem startState_outcome (c : Call) : (startState c).outcome = none := rfl

end Sys2Proof.Machine
end

