-- ==== Sys2Proof/Laws/Ops.lean ====
section
/-! SUPPORT. One lemma for each shared operation that says once what it can do, and the memory laws. -/

namespace Sys2Proof.Machine

/-! ### Sequencing -/

@[simp] theorem andThen_next (s : State) (k : State → StepOutcome) : andThen (.next s) k = k s := rfl

@[simp] theorem andThen_fault (f : Fault) (k : State → StepOutcome) :
    andThen (.fault f) k = .fault f := rfl

@[simp] theorem andThen_refused (r : Refusal) (k : State → StepOutcome) :
    andThen (.refused r) k = .refused r := rfl

theorem andThen_eq_next {o : StepOutcome} {k : State → StepOutcome} {t : State}
    (h : andThen o k = .next t) : ∃ s, o = .next s ∧ k s = .next t := by
  cases o with
  | next s => exact ⟨s, rfl, h⟩
  | fault f => simp at h
  | refused r => simp at h

/-! ### Memory -/

theorem memRead_eq {space : List Byte} {addr n : Nat} (h : addr + n ≤ space.length) :
    memRead space addr n = some ((space.drop addr).take n) := by simp [memRead, h]

@[simp] theorem memWrite_length (space : List Byte) (addr : Nat) (v : List Byte) :
    (memWrite space addr v).length = space.length := by
  simp [memWrite]; omega

/-- A read after a write to the same place gives the value written. -/
theorem memRead_memWrite_same {space v : List Byte} {addr : Nat} (h : addr + v.length ≤ space.length) :
    memRead (memWrite space addr v) addr v.length = some v := by
  rw [memRead_eq (by simpa using h)]
  have hl : (space.take addr).length = addr := by simp; omega
  rw [memWrite, List.drop_take, List.append_assoc, List.drop_append_of_le_length (by omega)]
  have hm : min v.length (space.length - addr) = v.length := by omega
  simp [List.take_take, hm]

/-- A write leaves every byte outside it alone. -/
theorem memWrite_getElem?_outside {space v : List Byte} {addr k : Nat} (hin : addr + v.length ≤ space.length)
    (h : k < addr ∨ addr + v.length ≤ k) : (memWrite space addr v)[k]? = space[k]? := by
  unfold memWrite
  rcases h with h | h
  · rw [List.getElem?_take_of_lt (by omega), List.append_assoc, List.getElem?_append_left (by simp; omega),
      List.getElem?_take_of_lt h]
  · by_cases hk : k < space.length
    · rw [List.getElem?_take_of_lt hk, List.getElem?_append_right (by simp; omega), List.getElem?_drop]
      congr 1
      simp; omega
    · rw [List.getElem?_eq_none (by simp; omega), List.getElem?_eq_none (by omega)]

@[simp] theorem Memory.wf_iff (m : Memory) : m.wf = true ↔ m.hdr.length = 512 := by
  simp [Memory.wf]

theorem Memory.wf_writeHdr (m : Memory) (addr : Nat) (v : List Byte) (h : m.wf = true) :
    (m.writeHdr addr v).wf = true := by simpa using h

theorem Memory.wf_emitBody (m : Memory) (v : List Byte) (h : m.wf = true) : (m.emitBody v).wf = true := h

theorem Memory.wf_emitGrid (m : Memory) (ps : List Pixel) (h : m.wf = true) :
    (m.emitGrid ps).wf = true := h

theorem Memory.wf_empty : Memory.empty.wf = true := by simp [Memory.empty]

/-- A write from the start of a space keeps as much of the value as the space has room for. -/
theorem memWrite_zero_of_le {space v : List Byte} (h : space.length ≤ v.length) :
    memWrite space 0 v = v.take space.length := by
  simp [memWrite, List.take_append, Nat.sub_eq_zero_of_le h]

theorem Memory.wf_call (c : Call) : c.memory.wf = true := by
  cases c with
  | hdrDec buf => exact Memory.wf_writeHdr _ _ _ Memory.wf_empty
  | hdrEnc => exact Memory.wf_empty
  | bodyEnc => exact Memory.wf_empty
  | bodyDec => exact Memory.wf_empty
  | pixConv => exact Memory.wf_empty

/-- `HDR` at the start of `HDR_DEC` holds the header of an input that has one (40_header R129). -/
theorem hdr_hdrDec {buf : List Byte} (h : 512 ≤ buf.length) :
    (Call.hdrDec buf).memory.hdr = buf.take 512 := by
  have hl : Memory.empty.hdr.length = 512 := zeroBytes_length _
  simp only [Call.memory, Memory.writeHdr_hdr]
  rw [memWrite_zero_of_le (hl.trans_le h), hl]

/-- On a header buffer of 512 bytes an input that is long enough is checked as that buffer is
(40_header R128, R129). -/
theorem hdesOn_eq_hdes (cfg : Config) {length : Nat} {hdr : List Byte} (h : 512 ≤ length)
    (hl : hdr.length = 512) : hdesOn cfg length hdr = hdes cfg hdr := by
  have h1 : ¬ length < headerSize := by simpa using h
  have h2 : ¬ hdr.length < headerSize := by simp [hl]
  simp only [hdes, hdesOn, if_neg h1, if_neg h2]

theorem reset_mem : State.reset.mem = Memory.empty := rfl

theorem Memory.wf_reset : State.reset.mem.wf = true := by rw [reset_mem]; exact Memory.wf_empty

theorem wf_voidOutput (s : State) (h : s.mem.wf = true) : (voidOutput s).mem.wf = true := by
  rw [Memory.wf_iff] at h ⊢
  unfold voidOutput
  split <;> simp [h]

theorem wf_raise (kind : ErrorKind) (s : State) (h : s.mem.wf = true) : (raise kind s).mem.wf = true :=
  wf_voidOutput s h

/-! ### The end of an operation -/

@[simp] theorem voidOutput_body_of_rdec {s : State} (h : s.active = .rdec) :
    (voidOutput s).mem.body = s.mem.body := by simp [voidOutput, h]

@[simp] theorem voidOutput_hdr_of_rdec {s : State} (h : s.active = .rdec) :
    (voidOutput s).mem.hdr = s.mem.hdr := by simp [voidOutput, h]

@[simp] theorem voidOutput_hdrLatch_of_rdec {s : State} (h : s.active = .rdec) :
    (voidOutput s).hdrLatch = s.hdrLatch := by simp [voidOutput, h]

theorem raise_mem (kind : ErrorKind) (s : State) : (raise kind s).mem = (voidOutput s).mem := rfl

theorem raise_hdrLatch (kind : ErrorKind) (s : State) :
    (raise kind s).hdrLatch = (voidOutput s).hdrLatch := rfl

/-- The host's move, in full (60_exceptions R222). -/
theorem present_eq_some {c : Call} {s t : State} :
    s.present c = some t ↔ s.active = .idle ∧ s.call = none ∧ t = { s with call := some c } := by
  unfold State.present
  constructor
  · intro h
    split at h
    · next ha hc => exact ⟨ha, hc, by simpa using h.symm⟩
    · simp at h
  · rintro ⟨ha, hc, rfl⟩
    simp [ha, hc]

/-- How an operation ends with the outcome of a unit's function (00_scope R9). -/
theorem endWith_eq_next {α : Type} {o : OpResult α} {onOk : α → State → State} {s t : State}
    (h : endWith o onOk s = .next t) :
    (∃ v, o = .ok v ∧ t = onOk v s) ∨ ∃ kind, o = .err kind ∧ t = raise kind s := by
  cases o with
  | ok v => exact .inl ⟨v, rfl, by simpa [endWith] using h.symm⟩
  | err kind => exact .inr ⟨kind, rfl, by simpa [endWith] using h.symm⟩
  | refused r => simp [endWith] at h

@[simp] theorem OpResult.andThen_ok {α β : Type} (v : α) (k : α → OpResult β) :
    OpResult.andThen (.ok v) k = k v := rfl

@[simp] theorem OpResult.andThen_err {α β : Type} (kind : ErrorKind) (k : α → OpResult β) :
    OpResult.andThen (.err kind) k = .err kind := rfl

@[simp] theorem OpResult.andThen_refused {α β : Type} (r : Refusal) (k : α → OpResult β) :
    OpResult.andThen (.refused r) k = .refused r := rfl

theorem OpResult.andThen_eq_ok {α β : Type} {o : OpResult α} {k : α → OpResult β} {b : β}
    (h : o.andThen k = .ok b) : ∃ a, o = .ok a ∧ k a = .ok b := by
  cases o with
  | ok v => exact ⟨v, rfl, h⟩
  | err kind => simp at h
  | refused r => simp at h

/-! ### Operands -/

/-- `CheckDims` in full (60_exceptions R214). -/
theorem checkDims_eq_none {cfg : Config} {W H : Word32} :
    checkDims cfg W H = none ↔
      W ≠ 0 ∧ H ≠ 0 ∧ W.toNat ≤ cfg.dimMax ∧ H.toNat ≤ cfg.dimMax := by
  simp only [checkDims]
  split
  · next h => simp at h ⊢; intro h1 h2; rcases h with h | h <;> contradiction
  · next h =>
    split
    · next h2 => simp at h h2 ⊢; intro _ _ _; omega
    · next h2 => simp at h h2 ⊢; exact ⟨h.1, h.2, h2.1, h2.2⟩

theorem checkDims_eq_some {cfg : Config} {W H : Word32} {e : ErrorKind}
    (h : checkDims cfg W H = some e) : e = .dimensionError := by
  simp only [checkDims] at h
  split at h
  · simpa using h.symm
  · split at h
    · simpa using h.symm
    · simp at h

theorem toNat_pos_of_ne_zero {W : Word32} (h : W ≠ 0) : 1 ≤ W.toNat := by
  have : W.toNat ≠ 0 := fun h0 => h (BitVec.eq_of_toNat_eq (by simpa using h0))
  omega

/-- Legal dimensions make at least one pixel (42_rle_decode R171). -/
theorem pixelTotal_pos {cfg : Config} {W H : Word32} (h : LegalDims cfg W H) : 1 ≤ pixelTotal W H := by
  obtain ⟨hW, hH, -, -⟩ := checkDims_eq_none.1 h
  have := Nat.mul_le_mul (toNat_pos_of_ne_zero hW) (toNat_pos_of_ne_zero hH)
  simpa [pixelTotal] using this

@[simp] theorem le32_length (v : Word32) : (le32 v).length = 4 := rfl

@[simp] theorem magic_length : magic.length = 8 := rfl

@[simp] theorem headerBytes_length (w h k bc : Word32) : (headerBytes w h k bc).length = 512 := by
  simp [headerBytes]

theorem readWord32_eq {buf : List Byte} {addr : Nat} {x0 x1 x2 x3 : Byte}
    (h : (buf.drop addr).take 4 = [x0, x1, x2, x3]) : readWord32 buf addr = some (unLe32 x0 x1 x2 x3) := by
  have hl : addr + 4 ≤ buf.length := by
    have := congrArg List.length h
    simp at this
    omega
  simp [readWord32, memRead_eq hl, h]

/-! ### Run entries -/

/-- The three ways an entry can go (42_rle_decode R175, R178). -/
theorem checkedEntry_cases (n need : Nat) (s effect : State) :
    (s.rdec.blen < s.rdec.cursor + need ∧
      checkedEntry n need s effect = .next (raise .unexpectedEndOfData s)) ∨
    (s.rdec.cursor + need ≤ s.rdec.blen ∧ s.rdec.total < s.rdec.emitted + n ∧
      checkedEntry n need s effect = .next (raise .sizeMismatch s)) ∨
    (s.rdec.cursor + need ≤ s.rdec.blen ∧ s.rdec.emitted + n ≤ s.rdec.total ∧
      checkedEntry n need s effect = .next effect) := by
  simp only [checkedEntry, payloadCut, overshoots, decide_eq_true_eq]
  split
  · exact .inl ⟨by assumption, rfl⟩
  · split
    · exact .inr (.inl ⟨by omega, by assumption, rfl⟩)
    · exact .inr (.inr ⟨by omega, by omega, rfl⟩)

/-- The state change of a run entry that completes (42_rle_decode R176, R177). -/
def entryEffect (i : Instr) (s : State) : State :=
  match i with
  | .lit pixels => emitRun pixels (pixelBytes * pixels.length) s
  | .rep n pixel => emitRun (List.replicate n pixel) pixelBytes (latchPix pixel s)

/-- What a run entry can do, said once for both. -/
theorem exec_cases (i : Instr) (s : State) :
    (s.rdec.blen < s.rdec.cursor + i.payloadLength ∧ exec i s = .next (raise .unexpectedEndOfData s)) ∨
    (s.rdec.cursor + i.payloadLength ≤ s.rdec.blen ∧ s.rdec.total < s.rdec.emitted + i.runLength ∧
      exec i s = .next (raise .sizeMismatch s)) ∨
    (s.rdec.cursor + i.payloadLength ≤ s.rdec.blen ∧ s.rdec.emitted + i.runLength ≤ s.rdec.total ∧
      exec i s = .next (entryEffect i s)) := by
  cases i with
  | lit ps => exact checkedEntry_cases ps.length (pixelBytes * ps.length) s _
  | rep n p => exact checkedEntry_cases n pixelBytes s _

end Sys2Proof.Machine
end

