-- ==== Sys2Proof/Laws/PerInstr.lean ====
section
/-! SUPPORT. Statements made once per instruction. -/

/-- An entry's encoding is its control byte and its payload (30_encoding R95). -/
def Sys2Proof.Laws.EncodedLength.Statement (i : Sys2Proof.Instr) : Prop :=
  (Sys2Proof.encode i).length = 1 + i.payloadLength

theorem Sys2Proof.Laws.EncodedLength.lit (pixels : List Sys2Proof.Pixel) :
    Sys2Proof.Laws.EncodedLength.Statement (.lit pixels) := by
  simp [Sys2Proof.Laws.EncodedLength.Statement, Sys2Proof.encode, Sys2Proof.Instr.payloadLength]
  omega

theorem Sys2Proof.Laws.EncodedLength.rep (n : Nat) (pixel : Sys2Proof.Pixel) :
    Sys2Proof.Laws.EncodedLength.Statement (.rep n pixel) := rfl
end

