-- ==== Sys2Proof/Laws/Rdec.lean ====
section
/-! SUPPORT. What the fetch, an entry and a step of `RDEC` can do, said once (42_rle_decode). -/

namespace Sys2Proof.Machine

/-- The fetch writes only registers of `RDEC`, and of these not `blen`, `total` and `emitted`
(42_rle_decode R173, R174). -/
theorem latchControl_eq (s : State) :
    ∃ r : Rdec, latchControl s = s.setRdec r ∧ r.blen = s.rdec.blen ∧ r.total = s.rdec.total ∧
      r.emitted = s.rdec.emitted ∧
      ((s.unread = [] ∧ r.cursor = s.rdec.cursor) ∨
        (s.unread ≠ [] ∧ r.cursor = s.rdec.cursor + 1)) := by
  unfold latchControl
  split
  · next hu => exact ⟨_, rfl, rfl, rfl, rfl, .inr ⟨by simp [hu], rfl⟩⟩
  · next hu => exact ⟨s.rdec, rfl, rfl, rfl, rfl, .inl ⟨hu, rfl⟩⟩

/-- The three ways of an entry's fetch (42_rle_decode R173, R175). -/
theorem entryStep_cases {s t : State} (h : entryStep s = .next t) :
    (∃ i rest, decode s.unread = .ok (i, rest) ∧ exec i (latchControl s) = .next t) ∨
      t = raise .sizeMismatch s ∨ t = raise .unexpectedEndOfData (latchControl s) := by
  unfold entryStep at h
  split at h
  · next i r hd => exact .inl ⟨i, r, hd, h⟩
  · simp at h; exact .inr (.inl h.symm)
  · simp at h; exact .inr (.inr h.symm)

/-- What a step of `RDEC` can do: take an error, append pixels, or end with the grid
(42_rle_decode R172 to R178). -/
theorem rdecStep_cases {s t : State} (h : rdecStep s = .next t) :
    (∃ kind r, t = raise kind (s.setRdec r)) ∨
      (∃ r ps, t = { s with rdec := r, mem := { s.mem with grid := s.mem.grid ++ ps } } ∧
        r.blen = s.rdec.blen ∧ r.total = s.rdec.total ∧ r.emitted = s.rdec.emitted + ps.length ∧
        r.emitted ≤ r.total ∧ r.cursor ≤ r.blen) ∨
      t = finish (.grid s.mem.grid) s := by
  unfold rdecStep at h
  split at h
  · obtain ⟨r, hr, h1, h2, h3, -⟩ := latchControl_eq s
    rcases entryStep_cases h with ⟨i, rest, hd, he⟩ | rfl | rfl
    · rw [hr] at he
      rcases exec_cases i (s.setRdec r) with ⟨-, hx⟩ | ⟨-, -, hx⟩ | ⟨hc, ht, hx⟩
      · rw [he] at hx; simp at hx; exact .inl ⟨_, r, hx⟩
      · rw [he] at hx; simp at hx; exact .inl ⟨_, r, hx⟩
      · rw [he] at hx; simp at hx; subst hx
        refine .inr (.inl ?_)
        cases i with
        | lit ps =>
          exact ⟨_, ps, rfl, h1, h2, by simp [h3], by simpa [Instr.runLength] using ht,
            by simpa [Instr.payloadLength] using hc⟩
        | rep n p =>
          exact ⟨_, List.replicate n p, rfl, h1, h2, by simp [h3, latchPix],
            by simpa [Instr.runLength, latchPix] using ht,
            by simpa [Instr.payloadLength, latchPix] using hc⟩
    · exact .inl ⟨_, s.rdec, rfl⟩
    · exact .inl ⟨_, r, by rw [hr]⟩
  · simp at h; exact .inr (.inr h.symm)

end Sys2Proof.Machine
end

