-- ==== Sys2Proof/Laws/Renc.lean ====
section
/-! SUPPORT. The small lemmas of `RENC`: the run buffer, the flushes and the fetch (41_rle_encode). -/

namespace Sys2Proof.Machine

@[simp] theorem resetRunbuf_length : resetRunbuf.length = 128 := List.length_replicate

/-- Writing the entry after the first `n` and reading `n + 1` gives the run with one more pixel
(41_rle_encode R147). -/
theorem take_set_self {buf : List Pixel} {n : Nat} (h : n < buf.length) (p : Pixel) :
    (buf.set n p).take (n + 1) = buf.take n ++ [p] := by
  rw [List.take_succ_eq_append_getElem (by simpa using h), List.take_set_of_le (Nat.le_refl n)]
  simp

/-- The comparison is pixel equality (10_state R25). -/
@[simp] theorem pixelsEqual_iff (p q : Pixel) : pixelsEqual p q = true ↔ p = q := by
  cases p; cases q; simp [pixelsEqual]; tauto

theorem atCap_iff (r : Renc) : atCap r = true ↔ r.count.toNat = 128 := by
  simp only [atCap, beq_iff_eq]
  constructor
  · intro h; rw [h]; rfl
  · intro h; exact BitVec.eq_of_toNat_eq h

theorem count_succ {c : Byte} (h : c.toNat ≤ 127) : (c + 1#8).toNat = c.toNat + 1 := by
  have := c.isLt
  simp [BitVec.toNat_add]; omega

theorem fetchPixel_eq {s : State} {x : Nat} {p : Pixel} (h : s.mem.grid[rowIndex s x]? = some p)
    (k : Pixel → StepOutcome) : fetchPixel s x k = k p := by simp [fetchPixel, h]

/-- Where `RENC` is at a comparison step, the step is that comparison step (41_rle_encode R144). -/
theorem step_of_comparesAt {s : State} {cur nxt : Pixel} (h : s.ComparesAt cur nxt) (cfg : Config) :
    stepWith cfg s =
      .next
        ((stepDispatch (s.setRenc { s.renc with cur := cur, nxt := nxt })).setRenc
          { (stepDispatch (s.setRenc { s.renc with cur := cur, nxt := nxt })).renc with
            i := (stepDispatch (s.setRenc { s.renc with cur := cur, nxt := nxt })).renc.i + 1 }) := by
  obtain ⟨ha, hr, hi, hc, hn⟩ := h
  simp only [stepWith, ha, rencStep, if_pos hr, if_pos hi, compareStep]
  rw [fetchPixel_eq hc, fetchPixel_eq hn]

/-- Where `RENC` is at the end of a row, the step is the end step (41_rle_encode R150). -/
theorem step_of_endsRowAt {s : State} {cur : Pixel} (h : s.EndsRowAt cur) (cfg : Config) :
    stepWith cfg s = .next (nextRow (endFlush (s.setRenc { s.renc with cur := cur }))) := by
  obtain ⟨ha, hr, hi, hc⟩ := h
  simp only [stepWith, ha, rencStep, if_pos hr, if_neg (Nat.not_lt.2 hi), endStep]
  rw [fetchPixel_eq hc]

/-- The rule of a step, by the comparison and the mode (41_rle_encode R145). -/
theorem stepDispatch_eq (s : State) :
    stepDispatch s =
      if s.renc.cur = s.renc.nxt then
        if s.renc.mode = .lit then ruleE (ruleELit s) else ruleE s
      else if s.renc.mode = .rep then ruleDRep s else ruleDLit s := by
  unfold stepDispatch
  by_cases h : s.renc.cur = s.renc.nxt
  · rw [if_pos ((pixelsEqual_iff _ _).2 h), if_pos h]
    cases hm : s.renc.mode <;> rfl
  · rw [if_neg (fun hp => h ((pixelsEqual_iff _ _).1 hp)), if_neg h]
    cases hm : s.renc.mode <;> rfl

/-! ### What the rules of `RENC` can change -/

/-- A rule of `RENC` appends to `BODY`, writes its own registers other than `W` and `H`, and leaves
everything else (10_state R42). -/
def RencFrame (s t : State) : Prop :=
  t.mem.grid = s.mem.grid ∧ t.mem.hdr = s.mem.hdr ∧ (∃ bytes, t.mem.body = s.mem.body ++ bytes) ∧
    t.active = s.active ∧ t.outcome = s.outcome ∧ t.status = s.status ∧ t.call = s.call ∧
    t.rdec = s.rdec ∧ t.hdrLatch = s.hdrLatch ∧ t.renc.W = s.renc.W ∧ t.renc.H = s.renc.H

theorem RencFrame.trans {a b c : State} (h : RencFrame a b) (g : RencFrame b c) : RencFrame a c := by
  obtain ⟨a1, a2, ⟨x, a3⟩, a4, a5, a6, a7, a8, a9, a10, a11⟩ := h
  obtain ⟨b1, b2, ⟨y, b3⟩, b4, b5, b6, b7, b8, b9, b10, b11⟩ := g
  exact ⟨b1.trans a1, b2.trans a2, ⟨x ++ y, by rw [b3, a3, List.append_assoc]⟩, b4.trans a4,
    b5.trans a5, b6.trans a6, b7.trans a7, b8.trans a8, b9.trans a9, b10.trans a10, b11.trans a11⟩

theorem RencFrame.setRenc (s : State) (r : Renc) (hW : r.W = s.renc.W) (hH : r.H = s.renc.H) :
    RencFrame s (s.setRenc r) :=
  ⟨rfl, rfl, ⟨[], by simp⟩, rfl, rfl, rfl, rfl, rfl, rfl, hW, hH⟩

theorem RencFrame.emitBody (s : State) (v : List Byte) : RencFrame s (s.emitBody v) :=
  ⟨rfl, rfl, ⟨v, rfl⟩, rfl, rfl, rfl, rfl, rfl, rfl, rfl, rfl⟩

theorem endRun_frame (s : State) : RencFrame s (endRun s) := .setRenc _ _ rfl rfl

theorem flushLit_frame (n : Nat) (s : State) : RencFrame s (flushLit n s) := .emitBody _ _

theorem flushRep_frame (n : Nat) (p : Pixel) (s : State) : RencFrame s (flushRep n p s) :=
  .emitBody _ _

theorem bufferPixel_frame (p : Pixel) (s : State) : RencFrame s (bufferPixel p s) :=
  .setRenc _ _ rfl rfl

theorem ruleDRep_frame (s : State) : RencFrame s (ruleDRep s) :=
  ((RencFrame.setRenc s _ (by rfl) (by rfl)).trans (flushRep_frame _ _ _)).trans (endRun_frame _)

theorem ruleDLit_frame (s : State) : RencFrame s (ruleDLit s) := by
  unfold ruleDLit
  have hb := (bufferPixel_frame s.renc.cur s).trans
    (RencFrame.setRenc (bufferPixel s.renc.cur s)
      { (bufferPixel s.renc.cur s).renc with
        count := (bufferPixel s.renc.cur s).renc.count + 1, mode := .lit } rfl rfl)
  simp only
  split
  · exact (hb.trans (flushLit_frame _ _)).trans (endRun_frame _)
  · exact hb

theorem ruleELit_frame (s : State) : RencFrame s (ruleELit s) :=
  (flushLit_frame _ _).trans (endRun_frame _)

theorem ruleE_frame (s : State) : RencFrame s (ruleE s) := by
  unfold ruleE
  have hb := RencFrame.setRenc s { s.renc with count := s.renc.count + 1, mode := .rep } rfl rfl
  simp only
  split
  · exact (hb.trans (flushRep_frame _ _ _)).trans (endRun_frame _)
  · exact hb

theorem stepDispatch_frame (s : State) : RencFrame s (stepDispatch s) := by
  rw [stepDispatch_eq]
  split
  · split
    · exact (ruleELit_frame s).trans (ruleE_frame _)
    · exact ruleE_frame s
  · split
    · exact ruleDRep_frame s
    · exact ruleDLit_frame s

theorem endFlush_frame (s : State) : RencFrame s (endFlush s) := by
  unfold endFlush
  split
  · exact flushRep_frame _ _ _
  · exact (bufferPixel_frame _ _).trans (flushLit_frame _ _)
  · exact (RencFrame.setRenc s _ (by rfl) (by rfl)).trans (flushLit_frame _ _)

theorem fetchPixel_eq_next {s t : State} {x : Nat} {k : Pixel → StepOutcome}
    (h : fetchPixel s x k = .next t) : ∃ p, s.mem.grid[rowIndex s x]? = some p ∧ k p = .next t := by
  unfold fetchPixel at h
  split at h
  · exact ⟨_, by assumption, h⟩
  · simp at h

theorem compareStep_frame {s t : State} (h : compareStep s = .next t) : RencFrame s t := by
  obtain ⟨p, -, h⟩ := fetchPixel_eq_next h
  obtain ⟨q, -, h⟩ := fetchPixel_eq_next h
  simp only [Host.Outcome.next.injEq] at h
  subst h
  exact ((RencFrame.setRenc s _ (by rfl) (by rfl)).trans (stepDispatch_frame _)).trans
    (.setRenc _ _ (by rfl) (by rfl))

theorem endStep_frame {s t : State} (h : endStep s = .next t) : RencFrame s t := by
  obtain ⟨p, -, h⟩ := fetchPixel_eq_next h
  simp only [Host.Outcome.next.injEq] at h
  subst h
  exact (((RencFrame.setRenc s _ (by rfl) (by rfl)).trans (endFlush_frame _)).trans
    (endRun_frame _)).trans (.setRenc _ _ (by rfl) (by rfl))

/-- What a step of `RENC` can do: a rule, or the end of the operation (41_rle_encode R144, R154). -/
theorem rencStep_cases {s t : State} (h : rencStep s = .next t) :
    RencFrame s t ∨ t = finish (.body s.mem.body) s := by
  unfold rencStep at h
  split at h
  · split at h
    · exact .inl (compareStep_frame h)
    · exact .inl (endStep_frame h)
  · simp at h; exact .inr h.symm

/-! ### The run held in the registers -/

theorem count_pos_of_ne {r : Renc} (h : r.CountInv) (hm : r.mode ≠ .none) : 1 ≤ r.count.toNat := by
  by_contra hc
  have h0 : r.count = 0 := BitVec.eq_of_toNat_eq (by simp; omega)
  exact hm (h.1.2 h0)

/-- The registers of a state that meets the invariant hold a run (10_state R24, R27). -/
theorem exists_runHeld {r : Renc} (hc : r.CountInv) (hb : r.BufInv) : ∃ run, RunHeld r run := by
  cases hm : r.mode with
  | none => exact ⟨.none, hm, hc.1.1 hm, hb⟩
  | rep => exact ⟨.rep r.count.toNat, hm, rfl, count_pos_of_ne hc (by simp [hm]), hc.2, hb⟩
  | lit =>
    have hpos := count_pos_of_ne hc (by simp [hm])
    have hle := hc.2
    have hlen : (r.runbuf.take r.count.toNat).length = r.count.toNat := by
      rw [List.length_take, show r.runbuf.length = 128 from hb]; omega
    exact ⟨.lit (r.runbuf.take r.count.toNat), hm, hlen.symm, by omega, by omega, hb, by rw [hlen]⟩

/-- Registers that hold a run meet the invariant (10_state R24, R27). -/
theorem inv_of_runHeld {r : Renc} {run : Run} (h : RunHeld r run) : r.CountInv ∧ r.BufInv := by
  cases run with
  | none =>
    obtain ⟨a, b, c⟩ := h
    exact ⟨⟨by simp [a, b], by simp [b]⟩, c⟩
  | rep k =>
    obtain ⟨a, b, c, d, e⟩ := h
    exact ⟨⟨by simp [a]; intro h; simp [h] at b; omega, by omega⟩, e⟩
  | lit ps =>
    obtain ⟨a, b, c, d, e, -⟩ := h
    exact ⟨⟨by simp [a]; intro h; simp [h] at b; omega, by omega⟩, e⟩

/-- The start of a call meets the invariant, with any unit whose own part of it holds there
(10_state R48). -/
theorem inv_startState_setActive (c : Call) {a : Activity}
    (hw : ((startState c).setActive a).WorkInv) : ((startState c).setActive a).Inv where
  mem_wf := Memory.wf_call c
  count_inv := (inv_of_runHeld (run := .none) ⟨rfl, rfl, resetRunbuf_length⟩).1
  buf_inv := (inv_of_runHeld (run := .none) ⟨rfl, rfl, resetRunbuf_length⟩).2
  work_inv := hw
  status_eq := rfl
  busy := fun _ => ⟨rfl, rfl⟩

end Sys2Proof.Machine
end

