-- ==== Sys2Proof/Tests/Slice0.lean ====
section
/-! SUPPORT. Tests: the expected results are the spec's own vectors (95_test_vectors, named at each
test). Then one witness for the hypotheses of every obligation that has some. -/

namespace Sys2Proof.Tests

open Sys2Proof Sys2Proof.Machine

/-! ### Helpers -/

/-- The pixels of 95_test_vectors. -/
def pA : Pixel := ⟨0x10, 0x20, 0x30⟩
def pB : Pixel := ⟨0x40, 0x50, 0x60⟩
def pC : Pixel := ⟨0x70, 0x80, 0x90⟩
def pD : Pixel := ⟨0xA0, 0xB0, 0xC0⟩
def red : Pixel := ⟨0, 0, 255⟩
def dPix (k : Nat) : Pixel := ⟨BitVec.ofNat 8 k, BitVec.ofNat 8 (k / 256), 85⟩

/-- A configuration with a known `DIM_MAX`, for tests. -/
def cfg (dimMax : Nat) (h1 : 1 ≤ dimMax := by decide) (h2 : dimMax ≤ 2 ^ 32 - 1 := by decide) :
    Config := ⟨dimMax, .blocks512, h1, h2⟩

/-- A state with the decoder at work on a body for `total` pixels in one row. -/
def decoding (body : List Byte) (total : Nat) : State :=
  { startState (.bodyDec body (BitVec.ofNat 32 total) 1 1) with active := .rdec }

/-- A state with the encoder at work on a grid of the width given, at pixel `i` of row 0. -/
def encoding (grid : List Pixel) (W H i : Nat) (mode : RencMode) (count : Byte)
    (runbuf : List Pixel) : State :=
  { startState (.bodyEnc grid (BitVec.ofNat 32 W) (BitVec.ofNat 32 H) true) with
    active := .renc
    renc := { Renc.start (BitVec.ofNat 32 W) (BitVec.ofNat 32 H) with
      mode := mode, count := count, i := i, runbuf := runbuf } }

/-- A `runbuf` that holds a literal run and, after it, pixels of no meaning. -/
def bufferOf (ps : List Pixel) : List Pixel := ps ++ List.replicate (128 - ps.length) pD

def nextState : StepOutcome → Option State
  | .next t => some t
  | .fault _ => none
  | .refused _ => none

/-- `GRID`, `cursor`, `emitted` and `STATUS` after a step. -/
def decoded (o : StepOutcome) : Option (List Pixel × Nat × Nat × BitVec 3) :=
  (nextState o).map fun t => (t.mem.grid, t.rdec.cursor, t.rdec.emitted, t.status)

/-- The outcome after `k` steps from a call presented to the reset machine. -/
def outcomeOf (c : Config) (k : Nat) (call : Call) : Option OpOutcome :=
  ((State.reset.present call).bind fun s => nextState (runWith c k s)).bind State.outcome

/-! ### WellFormed: each check refuses an ill-formed term (30_encoding R96) -/

theorem test_lit_empty_refused : (Instr.lit []).wellFormed = false := by decide

theorem test_lit_129_refused : (Instr.lit (List.replicate 129 pA)).wellFormed = false := by
  decide +kernel

theorem test_rep_0_refused : (Instr.rep 0 pA).wellFormed = false := by decide

theorem test_rep_129_refused : (Instr.rep 129 pA).wellFormed = false := by decide

/-! ### Decoding words written out from the encodings (30_encoding R96 to R98, R102) -/

/-- `LIT 3`: control byte `0 0000010`, then three pixels blue, green, red (95 V-B). -/
theorem test_decode_lit :
    decode [0b00000010, 0x10, 0x20, 0x30, 0x40, 0x50, 0x60, 0x70, 0x80, 0x90, 0xEE] =
      .ok (.lit [pA, pB, pC], [0xEE]) := by decide

/-- `REP 2`: control byte `1 0000001`, then one pixel (95 V-A). -/
theorem test_decode_rep : decode [0b10000001, 0x00, 0x00, 0xFF] = .ok (.rep 2 red, []) := by decide

/-- `0x7F` and `0xFF`, the ends of the two ranges (95 D-C): `LIT 128` has 384 payload bytes, and
`ctrl + 1` is 256, not 0. -/
theorem test_decode_caps :
    (decode (0x7F :: zeroBytes 384)).map (fun x => (x.1.runLength, x.2)) = .ok (128, []) ∧
      decode (0x7F :: zeroBytes 383) = .error .payloadCut ∧
      decode [0xFF, 9, 9, 9] = .ok (.rep 128 ⟨9, 9, 9⟩, []) := by decide +kernel

/-- The table's numbering: bits 7..0 are the control byte (spec/opcode_table.json). -/
theorem test_table_word :
    decodeTableWord 8 0x00 = some (.lit [⟨0, 0, 0⟩]) ∧
      decodeTableWord 8 0x80 = some (.rep 1 ⟨0, 0, 0⟩) ∧
      decodeTableWord 32 0xFF000081 = some (.rep 2 red) := by decide +kernel

/-- The word placed at reset is the one the next step runs (log 5). -/
theorem test_fetch_word :
    (nextState (step (State.reset.withFetchWord 32 0xFF000081))).map (fun t => t.mem.grid) =
      some [red, red] := by decide +kernel

/-! ### The entries, one step each (95 sections 1 and 2.3) -/

/-- 95 V-B. -/
theorem test_lit_step :
    decoded (rdecStep (decoding [0x02, 0x10, 0x20, 0x30, 0x40, 0x50, 0x60, 0x70, 0x80, 0x90] 3)) =
      some ([pA, pB, pC], 10, 3, 0) := by decide +kernel

/-- 95 D-E4 (a byte short) and D-E7 (`LIT 3` overshoots a total of 2). -/
theorem test_lit_errors :
    decoded (rdecStep (decoding [0x02, 1, 2, 3, 4, 5, 6, 7, 8] 3)) = some ([], 1, 0, 3) ∧
      decoded (rdecStep (decoding [0x02, 1, 2, 3, 4, 5, 6, 7, 8, 9] 2)) = some ([], 1, 0, 4) := by
  decide +kernel

/-- 95 D-OK7: one `REP 4` spanning both rows. -/
theorem test_rep_step :
    decoded (rdecStep (decoding [0x83, 0x10, 0x20, 0x30] 4)) = some ([pA, pA, pA, pA], 4, 4, 0) := by
  decide +kernel

/-- 95 D-E3, D-E6 and D-E8: cut, overshoot, and both, where the payload check comes first. -/
theorem test_rep_errors :
    decoded (rdecStep (decoding [0x81, 0, 0] 2)) = some ([], 1, 0, 3) ∧
      decoded (rdecStep (decoding [0x82, 0, 0, 0xFF] 2)) = some ([], 1, 0, 4) ∧
      decoded (rdecStep (decoding [0x82, 0, 0] 2)) = some ([], 1, 0, 3) := by decide +kernel

/-! ### The encoder (95 section 2.2) -/

/-- 95 E-M5, E-M6, E-M12, E-M14, E-M15. -/
theorem test_entries_small :
    rowEntries [pA, pA, pB] = .ok [.rep 2 pA, .lit [pB]] ∧
      rowEntries [pA, pB, pB] = .ok [.lit [pA], .rep 2 pB] ∧
      rowEntries [pA, pB, pC, pC] = .ok [.lit [pA, pB], .rep 2 pC] ∧
      rowEntries [pA, pB, pB, pB, pC] = .ok [.lit [pA], .rep 3 pB, .lit [pC]] ∧
      rowEntries [pA, pA, pB, pA, pA] = .ok [.rep 2 pA, .lit [pB], .rep 2 pA] := by decide

/-- 95 E-S3, E-S5, E-S8: identical pixels at the cap. -/
theorem test_entries_identical :
    rowEntries (List.replicate 127 pA) = .ok [.rep 127 pA] ∧
      rowEntries (List.replicate 129 pA) = .ok [.rep 128 pA, .lit [pA]] ∧
      rowEntries (List.replicate 256 pA) = .ok [.rep 128 pA, .rep 128 pA] := by decide +kernel

/-- 95 E-D5: 129 pixels that all differ from their neighbours. -/
theorem test_entries_distinct :
    rowEntries ((List.range 129).map dPix) =
      .ok [.lit ((List.range 128).map dPix), .lit [dPix 128]] := by decide +kernel

/-- 95 E-X2, E-X7: cap and flip together. -/
theorem test_entries_cap_and_flip :
    rowEntries (List.replicate 129 pA ++ [pB, pB]) = .ok [.rep 128 pA, .lit [pA], .rep 2 pB] ∧
      rowEntries ((List.range 128).map dPix ++ [pA, pA]) =
        .ok [.lit ((List.range 128).map dPix), .rep 2 pA] := by decide +kernel

/-- 95 E-B3, run by the machine: rows are not merged. -/
theorem test_encode_body :
    outcomeOf (cfg 10) 6 (.bodyEnc [pA, pB, pB, pA] 2 2 true) =
      some (.ok (.body [0x01, 0x10, 0x20, 0x30, 0x40, 0x50, 0x60,
        0x01, 0x40, 0x50, 0x60, 0x10, 0x20, 0x30])) := by decide +kernel

/-- 95 E-B4 and E-B5. -/
theorem test_encode_body_bad :
    outcomeOf (cfg 10) 1 (.bodyEnc [] 0 1 true) = some (.err .dimensionError) ∧
      encodeBody (cfg 10) [pA, pA, pA] 2 2 = .refused .gridSize := by decide +kernel

/-! ### The other units (95 sections 2.1, 2.4, 2.5) -/

/-- 95 HS-5: the bytes of the fields. -/
theorem test_hser :
    (match hser (cfg 4294967295) 0x12345678 1 1 513 with
      | .ok hdr => hdr.take 24
      | .err _ => []
      | .refused _ => []) =
      [0x53, 0x50, 0x4C, 0x41, 0x53, 0x48, 0x21, 0x21, 0x78, 0x56, 0x34, 0x12, 1, 0, 0, 0, 1, 0, 0, 0,
        2, 0, 0, 0] := by decide +kernel

/-- 95 HS-E6, HS-E4, HS-E7. -/
theorem test_hser_bad :
    hser (cfg 10) 0 1 7 4 = .err .dimensionError ∧ hser (cfg 10) 2 1 2 4 = .err .unsupportedKind ∧
      hser (cfg 10) 2 1 1 2199023255041 = .refused .blockCount := by decide +kernel

/-- 95 HS-1 and HD-2, run by the machine: the header of a container is read back. -/
theorem test_hdes :
    outcomeOf (cfg 10) 2 (.hdrDec (headerBytes 2 1 1 1 ++ [0x81, 0, 0, 0xFF])) =
      some (.ok (.fields 2 1 1 1)) := by decide +kernel

/-- 95 HD-3, HD-6, HD-12, HD-13, HD-18. -/
theorem test_hdes_bad :
    hdes (cfg 10) (0x73 :: (headerBytes 2 1 1 1).drop 1) = .err .headerFormatError ∧
      hdes (cfg 10) ((headerBytes 2 1 1 1).take 511) = .err .headerFormatError ∧
      hdes (cfg 10) (headerBytes 0 0 9 0) = .err .dimensionError ∧
      hdes (cfg 10) (headerBytes 2 1 0x100 1) = .err .unsupportedKind ∧
      hdes (cfg 1079) (headerBytes 1920 1080 0 12150) = .err .dimensionError := by decide +kernel

/-- 95 RW-1, RW-6, RW-4, RW-9. -/
theorem test_raw :
    encodeRaw (cfg 10) [pA, pB, pC, pD] 2 2 =
        .ok [0x10, 0x20, 0x30, 0x40, 0x50, 0x60, 0x70, 0x80, 0x90, 0xA0, 0xB0, 0xC0] ∧
      decodeRaw (cfg 10)
        [0x10, 0x20, 0x30, 0x40, 0x50, 0x60, 0x70, 0x80, 0x90, 0xA0, 0xB0, 0xC0, 0, 0] 2 2 =
        .ok [pA, pB, pC, pD] ∧
      decodeRaw (cfg 10) [0x10, 0x20, 0x30, 0x40, 0x50, 0x60, 0x70, 0x80, 0x90, 0xA0, 0xB0] 2 2 =
        .err .sizeMismatch ∧
      encodeRaw (cfg 10) [pA] 1 2 = .refused .gridSize := by decide +kernel

/-- 95 PC-3 and PC-5. -/
theorem test_pixconv :
    pixconv 0x1234 0x5678 0x9ABC 0xFFFF = ⟨0x9A, 0x56, 0x12⟩ ∧
      pixconv 0x0100 0x01FF 0xFF00 0xFFFF = ⟨0xFF, 0x01, 0x01⟩ := by decide

/-- 95 D-OK6 and D-E9 run by the machine: trailing bytes are not read; a pixel produced before an error
is void. -/
theorem test_decode_runs :
    outcomeOf (cfg 10) 3 (.bodyDec [0x81, 0, 0, 0xFF, 0xFF] 2 1 1) = some (.ok (.grid [red, red])) ∧
      outcomeOf (cfg 10) 3 (.bodyDec [0x00, 0x10, 0x20, 0x30, 0x81, 0x40, 0x50] 3 1 1) =
        some (.err .unexpectedEndOfData) := by decide +kernel

/-- 42_rle_decode R187 on the body of 95 E-M5. -/
theorem test_prefixes :
    decodeBody (cfg 10) [0x81, 0x10, 0x20, 0x30] 3 1 = .err .sizeMismatch ∧
      decodeBody (cfg 10) [0x81, 0x10, 0x20, 0x30, 0x00] 3 1 = .err .unexpectedEndOfData ∧
      decodeBody (cfg 10) [0x81, 0x10, 0x20, 0x30, 0x00, 0x40, 0x50, 0x60] 3 1 =
        .ok [pA, pA, pB] := by decide +kernel

/-! ### Witnesses: states and operands that meet the hypotheses of each obligation -/

theorem witness_DecodeOfEncodeIsTheEntry :
    (Instr.lit [pA]).wellFormed = true ∧ (Instr.lit (List.replicate 128 pA)).wellFormed = true ∧
      (Instr.rep 1 pA).wellFormed = true ∧ (Instr.rep 128 pA).wellFormed = true := by decide +kernel

theorem witness_EncodeOfDecodeIsTheBytes :
    decode [0x00, 0x10, 0x20, 0x30, 7] = .ok (.lit [pA], [7]) ∧
      decode [0x80, 0x10, 0x20, 0x30] = .ok (.rep 1 pA, []) := by decide

theorem witness_ControlByteGivesEntryLength :
    decode (0x00 :: [0x10, 0x20, 0x30]) = .ok (.lit [pA], []) ∧
      decode (0x7F :: pixelsBytes (List.replicate 128 pA)) = .ok (.lit (List.replicate 128 pA), []) ∧
      decode (0x80 :: [0x10, 0x20, 0x30]) = .ok (.rep 1 pA, []) := by decide +kernel

theorem witness_EveryControlByteIsLegal :
    ((0x7F : Byte).toNat ≤ 0x7F ∧ 3 * ((0x7F : Byte).toNat + 1) ≤ (zeroBytes 384).length) ∧
      (zeroBytes 383).length < 3 * ((0x7F : Byte).toNat + 1) ∧
      (0x80 ≤ (0x80 : Byte).toNat ∧ 3 ≤ (zeroBytes 3).length) ∧ (zeroBytes 2).length < 3 := by
  decide +kernel

theorem fetches_decoding {body : List Byte} {total : Nat} (h : 0 < total) (h2 : total < 2 ^ 32) :
    (decoding body total).FetchesEntry := by
  refine ⟨rfl, ?_⟩
  show 0 < (BitVec.ofNat 32 total).toNat * 1
  rw [BitVec.toNat_ofNat, Nat.mod_eq_of_lt h2]
  omega

theorem witness_StepRunsTheDecodedEntry :
    (decoding [0x81, 0, 0, 255] 2).FetchesEntry ∧
      (decoding [0x81, 0, 0, 255] 2).unread = 0x81 :: [0, 0, 255] ∧
      decode (decoding [0x81, 0, 0, 255] 2).unread = .ok (.rep 2 red, []) :=
  ⟨fetches_decoding (by decide) (by decide), by decide +kernel, by decide +kernel⟩

/-- The payload ends with the body, and the pixels with the total. -/
theorem witness_LitCompletesWithItsPixels :
    (decoding [0x10, 0x20, 0x30] 1).rdec.cursor + 3 * [pA].length ≤
        (decoding [0x10, 0x20, 0x30] 1).rdec.blen ∧
      (decoding [0x10, 0x20, 0x30] 1).rdec.emitted + [pA].length ≤
        (decoding [0x10, 0x20, 0x30] 1).rdec.total := by decide +kernel

theorem witness_RepCompletesWithItsPixel :
    (decoding [0, 0, 255] 128).rdec.cursor + 3 ≤ (decoding [0, 0, 255] 128).rdec.blen ∧
      (decoding [0, 0, 255] 128).rdec.emitted + 128 ≤ (decoding [0, 0, 255] 128).rdec.total := by
  decide +kernel

/-- One byte short, and one pixel too many. -/
theorem witness_EntryErrorsInOrder :
    (decoding [0, 0] 2).rdec.blen < (decoding [0, 0] 2).rdec.cursor + (Instr.rep 2 red).payloadLength ∧
      ((decoding [0, 0, 255] 1).rdec.cursor + (Instr.rep 2 red).payloadLength ≤
          (decoding [0, 0, 255] 1).rdec.blen ∧
        (decoding [0, 0, 255] 1).rdec.total <
          (decoding [0, 0, 255] 1).rdec.emitted + (Instr.rep 2 red).runLength) := by decide +kernel

theorem witness_EntryFrame :
    (decoding [0, 0, 255] 2).active = .rdec ∧
      exec (.rep 2 red) (decoding [0, 0, 255] 2) =
        .next
          ((decoding [0, 0, 255] 2).afterEntry
            { (decoding [0, 0, 255] 2).rdec with pix := red } [red, red] 3) := ⟨rfl, rfl⟩

theorem witness_LitStep :
    (decoding (0x7F :: zeroBytes 384) 128).FetchesEntry ∧
      (decoding (0x7F :: zeroBytes 384) 128).rdec.blen =
        (decoding (0x7F :: zeroBytes 384) 128).mem.body.length ∧
      (decoding (0x7F :: zeroBytes 384) 128).unread =
        litControl 128 :: pixelsBytes (List.replicate 128 ⟨0, 0, 0⟩) ++ [] ∧
      (decoding (0x7F :: zeroBytes 384) 128).rdec.emitted + 128 ≤
        (decoding (0x7F :: zeroBytes 384) 128).rdec.total :=
  ⟨fetches_decoding (by decide) (by decide), by decide +kernel, by decide +kernel, by decide +kernel⟩

theorem witness_LitStep_overshoot :
    (decoding (0x7F :: zeroBytes 384) 127).FetchesEntry ∧
      (decoding (0x7F :: zeroBytes 384) 127).rdec.total <
        (decoding (0x7F :: zeroBytes 384) 127).rdec.emitted + 128 :=
  ⟨fetches_decoding (by decide) (by decide), by decide +kernel⟩

theorem witness_LitStep_cut :
    (decoding [0x00, 1, 2] 1).FetchesEntry ∧
      (decoding [0x00, 1, 2] 1).rdec.blen = (decoding [0x00, 1, 2] 1).mem.body.length ∧
      [(1 : Byte), 2].length < 3 * 1 ∧ (decoding [0x00, 1, 2] 1).unread = litControl 1 :: [1, 2] :=
  ⟨fetches_decoding (by decide) (by decide), by decide +kernel, by decide, by decide +kernel⟩

theorem witness_RepStep :
    (decoding [0xFF, 0, 0, 255] 128).FetchesEntry ∧
      (decoding [0xFF, 0, 0, 255] 128).rdec.blen = (decoding [0xFF, 0, 0, 255] 128).mem.body.length ∧
      (decoding [0xFF, 0, 0, 255] 128).unread = repControl 128 :: pixbytes red ++ [] ∧
      (decoding [0xFF, 0, 0, 255] 128).rdec.emitted + 128 ≤
        (decoding [0xFF, 0, 0, 255] 128).rdec.total :=
  ⟨fetches_decoding (by decide) (by decide), by decide +kernel, by decide +kernel, by decide +kernel⟩

theorem witness_RepStep_overshoot_and_cut :
    (decoding [0xFF, 0, 0, 255] 127).FetchesEntry ∧
      (decoding [0xFF, 0, 0, 255] 127).rdec.total <
        (decoding [0xFF, 0, 0, 255] 127).rdec.emitted + 128 ∧
      (decoding [0x80, 1, 2] 1).FetchesEntry ∧
      (decoding [0x80, 1, 2] 1).unread = repControl 1 :: [1, 2] :=
  ⟨fetches_decoding (by decide) (by decide), by decide +kernel,
    fetches_decoding (by decide) (by decide), by decide +kernel⟩

/-- The empty body (95 D-E1) and a body of one byte (95 D-E2). -/
theorem witness_FetchOfTheControlByte :
    ((decoding [] 1).FetchesEntry ∧ (decoding [] 1).rdec.blen = (decoding [] 1).mem.body.length ∧
        (decoding [] 1).rdec.blen ≤ (decoding [] 1).rdec.cursor) ∧
      ((decoding [0x81] 2).FetchesEntry ∧
        (decoding [0x81] 2).rdec.blen = (decoding [0x81] 2).mem.body.length ∧
        (decoding [0x81] 2).rdec.cursor < (decoding [0x81] 2).rdec.blen) :=
  ⟨⟨fetches_decoding (by decide) (by decide), rfl, by decide +kernel⟩,
    ⟨fetches_decoding (by decide) (by decide), rfl, by decide +kernel⟩⟩

/-- A start of `BODY_DEC` meets the invariant. -/
theorem inv_decoding (body : List Byte) (total : Nat) : (decoding body total).Inv :=
  inv_startState_setActive (.bodyDec body (BitVec.ofNat 32 total) 1 1) (a := .rdec)
    ⟨rfl, Nat.zero_le _, Nat.zero_le _, rfl⟩

theorem witness_DecodeLoopEndsAtTheTotal :
    ((decoding [7] 0).active = .rdec ∧ (decoding [7] 0).Inv ∧
        (decoding [7] 0).rdec.total ≤ (decoding [7] 0).rdec.emitted) ∧
      ((decoding [7] 1).Inv ∧ (decoding [7] 1).rdec.emitted < (decoding [7] 1).rdec.total) :=
  ⟨⟨rfl, inv_decoding _ _, by decide +kernel⟩, ⟨inv_decoding _ _, by decide +kernel⟩⟩

theorem witness_TrailingBytesAreNotRead :
    decodeBodyRest (cfg 10) [0x81, 0, 0, 0xFF, 0xFF] 2 1 = .ok ([red, red], [0xFF]) := by
  decide +kernel

/-- One `REP 4` spanning the rows of a 2 by 2 image (95 D-OK7). -/
theorem witness_AnyEntriesDecodeToTheirPixels :
    LegalDims (cfg 2) 2 2 ∧ (∀ e ∈ [Instr.rep 4 pA], e.wellFormed = true) ∧
      totalRunLength [.rep 4 pA] = pixelTotal 2 2 :=
  ⟨rfl, by decide, by decide⟩

theorem witness_DecodeBodyGridIsExact : decodeBody (cfg 1) [0, 1, 2, 3] 1 1 = .ok [⟨1, 2, 3⟩] := by
  decide +kernel

/-- A repeat run of the longest length held, 127. -/
theorem witness_DifferInRepeatFlushesTheRun :
    (encoding [pA, pB] 2 1 0 .rep 127 resetRunbuf).ComparesAt pA pB ∧ pA ≠ pB ∧
      RunHeld (encoding [pA, pB] 2 1 0 .rep 127 resetRunbuf).renc (.rep 127) :=
  ⟨⟨rfl, by decide +kernel, by decide +kernel, rfl, rfl⟩, by decide,
    ⟨rfl, rfl, by decide, by decide, by decide +kernel⟩⟩

theorem runHeld_lit127 : RunHeld
    (encoding [pA, pB] 2 1 0 .lit 127 (bufferOf ((List.range 127).map dPix))).renc
    (.lit ((List.range 127).map dPix)) :=
  ⟨rfl, by decide +kernel, by decide +kernel, by decide +kernel, by decide +kernel, by decide +kernel⟩

/-- No run held, and a literal run of 127. -/
theorem witness_DifferJoinsTheLiteralRun :
    ((encoding [pA, pB] 2 1 0 .none 0 resetRunbuf).ComparesAt pA pB ∧ pA ≠ pB ∧
        RunHeld (encoding [pA, pB] 2 1 0 .none 0 resetRunbuf).renc .none ∧
        ([] : List Pixel).length + 1 < 128) ∧
      ((encoding [pA, pB] 2 1 0 .lit 127 (bufferOf ((List.range 127).map dPix))).ComparesAt pA pB ∧
        RunHeld (encoding [pA, pB] 2 1 0 .lit 127 (bufferOf ((List.range 127).map dPix))).renc
          (.lit ((List.range 127).map dPix)) ∧
        ((List.range 127).map dPix).length + 1 = 128) :=
  ⟨⟨⟨rfl, by decide +kernel, by decide +kernel, rfl, rfl⟩, by decide, ⟨rfl, rfl, by decide +kernel⟩, by decide⟩,
    ⟨rfl, by decide +kernel, by decide +kernel, rfl, rfl⟩, runHeld_lit127, by decide +kernel⟩

theorem witness_EqualInLiteralFlushesWithoutCur :
    (encoding [pA, pA] 2 1 0 .lit 127 (bufferOf ((List.range 127).map dPix))).ComparesAt pA pA ∧
      RunHeld (encoding [pA, pA] 2 1 0 .lit 127 (bufferOf ((List.range 127).map dPix))).renc
        (.lit ((List.range 127).map dPix)) :=
  ⟨⟨rfl, by decide +kernel, by decide +kernel, rfl, rfl⟩, runHeld_lit127⟩

/-- No run held, and a repeat run of 127. -/
theorem witness_EqualJoinsTheRepeatRun :
    ((encoding [pA, pA] 2 1 0 .none 0 resetRunbuf).ComparesAt pA pA ∧
        RunHeld (encoding [pA, pA] 2 1 0 .none 0 resetRunbuf).renc .none) ∧
      ((encoding [pA, pA] 2 1 0 .rep 127 resetRunbuf).ComparesAt pA pA ∧
        RunHeld (encoding [pA, pA] 2 1 0 .rep 127 resetRunbuf).renc (.rep 127)) :=
  ⟨⟨⟨rfl, by decide +kernel, by decide +kernel, rfl, rfl⟩, ⟨rfl, rfl, by decide +kernel⟩⟩,
    ⟨rfl, by decide +kernel, by decide +kernel, rfl, rfl⟩, ⟨rfl, rfl, by decide, by decide, by decide +kernel⟩⟩

/-- The end of a row of width 2 with a repeat run or a literal run of one pixel, and of width 1 with
none. -/
theorem witness_EndStepPlacesTheFinalPixel :
    ((encoding [pA, pA] 2 1 1 .rep 1 resetRunbuf).EndsRowAt pA ∧
        RunHeld (encoding [pA, pA] 2 1 1 .rep 1 resetRunbuf).renc (.rep 1)) ∧
      ((encoding [pA, pB] 2 1 1 .lit 1 (bufferOf [pA])).EndsRowAt pB ∧
        RunHeld (encoding [pA, pB] 2 1 1 .lit 1 (bufferOf [pA])).renc (.lit [pA])) ∧
      ((encoding [pA] 1 1 0 .none 0 resetRunbuf).EndsRowAt pA ∧
        RunHeld (encoding [pA] 1 1 0 .none 0 resetRunbuf).renc .none) :=
  ⟨⟨⟨rfl, by decide +kernel, by decide +kernel, rfl⟩, ⟨rfl, rfl, by decide, by decide, by decide +kernel⟩⟩,
    ⟨⟨rfl, by decide +kernel, by decide +kernel, rfl⟩, ⟨rfl, rfl, by decide, by decide, by decide +kernel,
      by decide +kernel⟩⟩,
    ⟨rfl, by decide +kernel, by decide +kernel, rfl⟩, ⟨rfl, rfl, by decide +kernel⟩⟩

theorem witness_CompareStepRefinesTheEncoder :
    (encoding [pA, pB, pB] 3 1 0 .none 0 resetRunbuf).ComparesAt pA pB ∧
      RunHeld (encoding [pA, pB, pB] 3 1 0 .none 0 resetRunbuf).renc .none :=
  ⟨⟨rfl, by decide +kernel, by decide +kernel, rfl, rfl⟩, ⟨rfl, rfl, by decide +kernel⟩⟩

theorem witness_RowPixelConservation : [pA, pA, pB] ≠ [] := by decide

theorem witness_EveryEmittedRunIsWithinTheCap :
    rowEntries [pA, pA, pB] = .ok [.rep 2 pA, .lit [pB]] ∧ Instr.rep 2 pA ∈ [.rep 2 pA, .lit [pB]] := by
  decide

theorem witness_EntriesOfTheExtremeRows :
    1 ≤ 129 ∧ [pA, pB, pA] ≠ [] ∧ AdjacentDiffer [pA, pB, pA] :=
  ⟨by decide, by decide, by decide, by decide, trivial⟩

theorem witness_EmittedControlBytes :
    rowEntries [pA, pA, pB] = .ok [.rep 2 pA, .lit [pB]] ∧ Instr.lit [pB] ∈ [.rep 2 pA, .lit [pB]] := by
  decide

/-- 95 E-B3. -/
theorem witness_RowsEncodeIndependently :
    LegalDims (cfg 2) 2 2 ∧ (2 : Word32).toNat = (1 : Word32).toNat + (1 : Word32).toNat ∧
      encodeBody (cfg 2) [pA, pB] 2 1 = .ok [0x01, 0x10, 0x20, 0x30, 0x40, 0x50, 0x60] ∧
      encodeBody (cfg 2) [pB, pA] 2 1 = .ok [0x01, 0x40, 0x50, 0x60, 0x10, 0x20, 0x30] :=
  ⟨rfl, by decide, by decide +kernel, by decide +kernel⟩

theorem witness_ClosedFormIsTheEncoder : [pA] ≠ [] := by decide

theorem witness_EncodedBodyDecodesToTheGrid :
    LegalDims (cfg 2) 2 1 ∧ [pA, pB].length = (2 : Word32).toNat * (1 : Word32).toNat :=
  ⟨rfl, by decide⟩

theorem witness_EncodedSizeBound :
    encodeRow [pA, pA] = .ok [0x81, 0x10, 0x20, 0x30] ∧ [pA, pA] = List.replicate [pA, pA].length pA ∧
      encodeBody (cfg 2) [pA, pA] 2 1 = .ok [0x81, 0x10, 0x20, 0x30] := by decide +kernel

/-- A cut at the boundary of two entries, and a cut that ends at none: no entry is shorter than four
bytes. -/
theorem witness_ProperPrefixesFail :
    encodeBody (cfg 3) [pA, pA, pB] 3 1 = .ok [0x81, 0x10, 0x20, 0x30, 0x00, 0x40, 0x50, 0x60] ∧
      EndsAtBoundary [0x81, 0x10, 0x20, 0x30] ∧ ¬ EndsAtBoundary [0x81] := by
  refine ⟨by decide +kernel, ⟨[.rep 2 pA], by decide, by decide⟩, ?_⟩
  rintro ⟨entries, hw, he⟩
  cases entries with
  | nil => simp [encodeAll] at he
  | cons e rest =>
    have hl := congrArg List.length he
    have hn := (wellFormed_iff e).1 (hw e (by simp))
    cases e with
    | lit ps => simp [encodeAll, encode] at hl; simp [Instr.runLength, hl] at hn
    | rep n p => simp [encodeAll, encode] at hl

theorem witness_HserWritesTheHeader :
    ({ startState (.hdrEnc 2 1 1 4) with active := .hser } : State).active = .hser ∧
      ({ startState (.hdrEnc 2 1 1 4) with active := .hser } : State).mem.wf = true ∧
      checkFields (cfg 2) 2 1 1 = none ∧ blockCountOf (cfg 2) 4 = some 1 :=
  ⟨rfl, Memory.wf_call _, by decide +kernel, by decide +kernel⟩

/-- The largest body length whose block count fits, and the next one (95 section 2.1), under both modes. -/
theorem witness_BlockCountIsNeverTruncated :
    (cfg 1).blockCountMode = .blocks512 ∧ ceilDiv 2199023255040 512 < 2 ^ 32 ∧
      2 ^ 32 ≤ ceilDiv 2199023255041 512 ∧
      ({ cfg 1 with blockCountMode := .bytes } : Config).blockCountMode = .bytes ∧
      4294967295 < 2 ^ 32 ∧ 2 ^ 32 ≤ 4294967296 := by decide

theorem witness_HeaderRoundTrip :
    hser (cfg 2) 2 1 1 4 = .ok (headerBytes 2 1 1 1) ∧
      hdes (cfg 2) (headerBytes 2 1 1 1) = .ok ⟨2, 1, 1, 1⟩ := by decide +kernel

/-- One input for each outcome, with `DIM_MAX` and `DIM_MAX + 1` among the dimensions. -/
theorem witness_HdesChecksInOrder :
    (zeroBytes 511).length < 512 ∧ (zeroBytes 512).take 8 ≠ magic ∧ 488 ≤ (zeroBytes 488).length ∧
      headerBytes 3 1 1 1 = magic ++ le32 3 ++ le32 1 ++ le32 1 ++ le32 1 ++ zeroBytes 488 ∧
      (cfg 2).dimMax < (3 : Word32).toNat ∧ (2 : Word32).toNat ≤ (cfg 2).dimMax ∧
      (2 : Word32) ≠ 0 ∧ (2 : Word32) ≠ 1 := by decide +kernel

theorem witness_HdesIgnoresReservedAndLaterBytes :
    512 ≤ (headerBytes 2 1 1 1).length ∧
      512 ≤ ((headerBytes 2 1 1 1).take 24 ++ List.replicate 489 0xFF).length ∧
      (headerBytes 2 1 1 1).take 24 =
        ((headerBytes 2 1 1 1).take 24 ++ List.replicate 489 0xFF).take 24 := by decide +kernel

/-- The start of `HDR_DEC`, an input one byte short, and `HDR` with a header that is accepted (95 HD-1)
and with one that is not (95 HD-5). -/
theorem witness_HdesReadsTheHeaderBuffer :
    (({ State.reset with call := some (.hdrDec (zeroBytes 512)) } : State).active = .idle ∧
        512 ≤ (zeroBytes 512).length) ∧
      (({ State.reset with active := .hdes 511 } : State).active = .hdes 511 ∧
        ({ State.reset with active := .hdes 511 } : State).mem.wf = true) ∧
      (Memory.empty.writeHdr 0 (headerBytes 2 1 1 1)).wf = true ∧
      hdes (cfg 2) (Memory.empty.writeHdr 0 (headerBytes 2 1 1 1)).hdr = .ok ⟨2, 1, 1, 1⟩ ∧
      hdes (cfg 2) Memory.empty.hdr = .err .headerFormatError :=
  ⟨⟨rfl, by simp⟩, ⟨rfl, Memory.wf_reset⟩, Memory.wf_writeHdr _ _ _ Memory.wf_empty,
    by decide +kernel, by decide +kernel⟩

/-- Bad dimensions; a grid of a wrong size (95 E-B5); a grid of the right size with its last pixel. -/
theorem witness_RawBodyLayout :
    ¬ LegalDims (cfg 2) 0 1 ∧ LegalDims (cfg 2) 2 2 ∧
      [pA, pA, pA].length ≠ (2 : Word32).toNat * (2 : Word32).toNat ∧
      [pA, pB, pC, pD].length = (2 : Word32).toNat * (2 : Word32).toNat ∧
      [pA, pB, pC, pD][1 * (2 : Word32).toNat + 1]? = some pD :=
  ⟨by simp [LegalDims, checkDims], rfl, by decide, by decide, by decide⟩

theorem witness_RawDecodeOutcomes :
    ¬ LegalDims (cfg 2) 1 3 ∧ LegalDims (cfg 2) 1 1 ∧
      (zeroBytes 2).length < 3 * ((1 : Word32).toNat * (1 : Word32).toNat) ∧
      3 * ((1 : Word32).toNat * (1 : Word32).toNat) ≤ (zeroBytes 3).length :=
  ⟨by simp [LegalDims, checkDims, cfg], rfl, by decide, by decide⟩

theorem witness_RawRoundTrip :
    LegalDims (cfg 2) 2 1 ∧ [pA, pB].length = (2 : Word32).toNat * (1 : Word32).toNat ∧
      3 * ((2 : Word32).toNat * (1 : Word32).toNat) ≤ (zeroBytes 7).length :=
  ⟨rfl, by decide, by decide⟩

theorem witness_PixconvTruncatesEachChannel :
    ({ State.reset with active := .pixConv 1 2 3 4 } : State).active = .pixConv 1 2 3 4 := rfl

/-- Containers of both kinds, and a body that is an error and one that is refused. -/
theorem witness_ContainerRoundTrip_ContainerIsHeaderThenBody :
    LegalDims (cfg 2) 2 1 ∧ [red, red].length = (2 : Word32).toNat * (1 : Word32).toNat ∧
      blockCountOf (cfg 2) 4 = some 1 ∧
      bodyEnc (cfg 2) [] 0 1 true = .err .dimensionError ∧
      bodyEnc (cfg 2) [] 1 1 false = .refused .gridSize :=
  ⟨rfl, by decide, by decide +kernel, by decide +kernel, by decide +kernel⟩

/-- A grid whose raw body has too many bytes for the block count under `bytes`. -/
theorem witness_ContainerIsHeaderThenBody_refused :
    ∃ (c : Config) (grid : List Pixel) (body : List Byte),
      LegalDims c 65536 32768 ∧ grid.length = (65536 : Word32).toNat * (32768 : Word32).toNat ∧
        bodyEnc c grid 65536 32768 false = .ok body ∧ blockCountOf c body.length = none := by
  obtain ⟨n, hn⟩ : ∃ n, n = 2147483648 := ⟨_, rfl⟩
  have hp : n = pixelTotal 65536 32768 := by rw [hn]; decide
  have hl : LegalDims { cfg 65536 with blockCountMode := .bytes } 65536 32768 := rfl
  refine ⟨{ cfg 65536 with blockCountMode := .bytes }, List.replicate n pA,
    pixelsBytes (List.replicate n pA), hl, by rw [List.length_replicate]; exact hp, ?_, ?_⟩
  · rw [bodyEnc, if_neg (by decide), encodeRaw, hl]
    simp only [List.length_replicate]
    rw [if_pos hp]
  · rw [pixelsBytes_length, List.length_replicate, hn]
    decide

/-- 95 HS-1 with V-A, and RW-8 with its header: the bytes of both kinds. -/
theorem test_containers :
    encodeContainer (cfg 2) [red, red] 2 1 true =
        .ok (headerBytes 2 1 1 1 ++ [0x81, 0, 0, 0xFF]) ∧
      encodeContainer (cfg 2) [red, red] 2 1 false =
        .ok (headerBytes 2 1 0 1 ++ [0, 0, 0xFF, 0, 0, 0xFF]) := by decide +kernel

theorem witness_HeaderErrorsComeFirst :
    hdes (cfg 2) ((zeroBytes 513).take 512) = .err .headerFormatError ∧
      (headerBytes 2 1 1 1).length = 512 ∧
      hdes (cfg 2) (headerBytes 2 1 1 1) = .ok ⟨2, 1, 1, 1⟩ := by decide +kernel

/-- Each error and each refusal of the claim arises. -/
theorem witness_UnitsRaiseOnlyTheirKinds :
    hser (cfg 2) 2 1 2 4 = .err .unsupportedKind ∧ hser (cfg 2) 3 1 1 4 = .err .dimensionError ∧
      hser (cfg 2) 1 1 1 2199023255041 = .refused .blockCount ∧
      hdes (cfg 2) [] = .err .headerFormatError ∧
      encodeBody (cfg 2) [] 0 1 = .err .dimensionError ∧
      encodeBody (cfg 2) [] 1 1 = .refused .gridSize ∧
      decodeBody (cfg 2) [0x81] 2 1 = .err .unexpectedEndOfData ∧
      decodeBody (cfg 2) [] 2 1 = .err .sizeMismatch ∧
      encodeRaw (cfg 2) [] 1 1 = .refused .gridSize ∧
      decodeRaw (cfg 2) [] 1 1 = .err .sizeMismatch := by decide +kernel

/-- The bounds 0, 1, `DIM_MAX` and `DIM_MAX + 1`. -/
theorem witness_CheckDimsRaisesExactly :
    (0 : Word32) = 0 ∧ (cfg 2).dimMax < (3 : Word32).toNat ∧ 1 ≤ (1 : Word32).toNat ∧
      (2 : Word32).toNat ≤ (cfg 2).dimMax := by decide

/-- An error taken by `RDEC` (95 D-E2), and one at the start of `BODY_ENC` (95 E-B4). -/
theorem witness_ErrorEntryVoidsTheOutput :
    ((decoding [0x81] 2).active ≠ .idle ∧ (decoding [0x81] 2).outcome = none ∧
        ∃ t, stepWith (cfg 2) (decoding [0x81] 2) = .next t ∧
          t.outcome = some (.err .unexpectedEndOfData)) ∧
      (({ State.reset with call := some (.bodyEnc [] 0 1 true) } : State).call ≠ none ∧
        ∃ t, stepWith (cfg 2) { State.reset with call := some (.bodyEnc [] 0 1 true) } = .next t ∧
          t.outcome = some (.err .dimensionError)) :=
  ⟨⟨by simp [decoding], rfl, ⟨_, rfl, rfl⟩⟩, by simp, ⟨_, rfl, rfl⟩⟩

/-- Two idle machines, one right after reset and one after an error. -/
theorem witness_NoStateSurvivesACall :
    State.reset.present (.hdrDec []) = some { State.reset with call := some (.hdrDec []) } ∧
      (raise .sizeMismatch (decoding [7] 1)).present (.hdrDec []) =
        some { raise .sizeMismatch (decoding [7] 1) with call := some (.hdrDec []) } := ⟨rfl, rfl⟩

theorem witness_HostMovesOnlyWhenIdle :
    (State.reset.active = .idle ∧ State.reset.call = none) ∧ (decoding [7] 1).active ≠ .idle ∧
      ({ State.reset with call := some (.hdrDec []) } : State).call ≠ none :=
  ⟨⟨rfl, rfl⟩, by simp [decoding], by simp⟩

theorem witness_OperationStartsFromTheResetTable :
    State.reset.active = .idle ∧ LegalDims (cfg 2) 2 1 ∧
      [pA, pB].length = (2 : Word32).toNat * (1 : Word32).toNat ∧
      ({ State.reset with call := some (.bodyEnc [pA, pB] 2 1 true) } : State).call =
        some (.bodyEnc [pA, pB] 2 1 true) ∧
      ({ State.reset with call := some (.bodyDec [7] 2 1 1) } : State).call =
        some (.bodyDec [7] 2 1 1) :=
  ⟨rfl, rfl, by decide, rfl, rfl⟩

theorem witness_EveryCallEndsWithItsOutcome :
    State.reset.present (.bodyEnc [pA, pB] 2 1 true) =
        some { State.reset with call := some (.bodyEnc [pA, pB] 2 1 true) } ∧
      callResult (cfg 2) (.bodyEnc [pA, pB] 2 1 true) =
        .ok (.body [0x01, 0x10, 0x20, 0x30, 0x40, 0x50, 0x60]) := ⟨rfl, by decide +kernel⟩

theorem witness_IdleMachineStays : State.reset.active = .idle ∧ State.reset.call = none := ⟨rfl, rfl⟩

/-- A state at work that meets the invariant, with its next state. -/
theorem witness_EveryStepKeepsTheInvariant :
    (decoding [0x80, 1, 2, 3] 1).Inv ∧ ∃ t, stepWith (cfg 1) (decoding [0x80, 1, 2, 3] 1) = .next t :=
  ⟨inv_decoding _ _, _, rfl⟩

/-- A state of `RENC` in mode `LIT` that meets the invariant, and one with other pixels in `cur`, `nxt` and
the entries of `runbuf` after the run. -/
theorem witness_NoStepFaultsOrReadsUnspecified :
    (encoding [pA, pB, pC] 3 1 1 .lit 1 (bufferOf [pA])).Inv ∧
      SameButUnspecified (encoding [pA, pB, pC] 3 1 1 .lit 1 (bufferOf [pA]))
        ((encoding [pA, pB, pC] 3 1 1 .lit 1 (pA :: List.replicate 127 pB)).setRenc
          { (encoding [pA, pB, pC] 3 1 1 .lit 1 (pA :: List.replicate 127 pB)).renc with
            cur := pC, nxt := pA }) ∧
      ∃ t, stepWith (cfg 3) (encoding [pA, pB, pC] 3 1 1 .lit 1 (bufferOf [pA])) = .next t :=
  ⟨⟨Memory.wf_call (.bodyEnc [pA, pB, pC] 3 1 true),
      ⟨by decide +kernel, by decide +kernel⟩, by unfold Renc.BufInv; decide +kernel,
      ⟨by decide +kernel, by decide +kernel, by decide +kernel, by decide +kernel, by decide +kernel⟩,
      rfl, fun _ => ⟨rfl, rfl⟩⟩,
    ⟨rfl, by decide +kernel, fun _ => by decide +kernel⟩, _, rfl⟩

/-- Each refusal of the claim, from a state that meets the invariant. -/
theorem witness_NoStepFaultsOrReadsUnspecified_refusals :
    ({ State.reset with call := some (.bodyEnc [] 1 1 true) } : State).Inv ∧
      stepWith (cfg 1) { State.reset with call := some (.bodyEnc [] 1 1 true) } = .refused .gridSize ∧
      ((startState (.bodyEnc [] 1 1 false)).setActive (.rawEnc 1 1)).Inv ∧
      stepWith (cfg 1) ((startState (.bodyEnc [] 1 1 false)).setActive (.rawEnc 1 1)) =
        .refused .gridSize ∧
      ((startState (.hdrEnc 1 1 1 2199023255041)).setActive .hser).Inv ∧
      stepWith (cfg 1) ((startState (.hdrEnc 1 1 1 2199023255041)).setActive .hser) =
        .refused .blockCount :=
  ⟨⟨Memory.wf_reset, (inv_of_runHeld (run := .none) ⟨rfl, rfl, resetRunbuf_length⟩).1,
      (inv_of_runHeld (run := .none) ⟨rfl, rfl, resetRunbuf_length⟩).2, trivial, rfl, fun h => absurd rfl h⟩, rfl,
    inv_startState_setActive _ trivial, rfl, inv_startState_setActive _ trivial, rfl⟩

/-- A step of each of the two units. -/
theorem witness_InputsStayAndOutputsGrow :
    ((decoding [0x80, 1, 2, 3] 1).active = .rdec ∧
        ∃ t, stepWith (cfg 1) (decoding [0x80, 1, 2, 3] 1) = .next t) ∧
      (encoding [pA] 1 1 0 .none 0 resetRunbuf).active = .renc ∧
      ∃ t, stepWith (cfg 1) (encoding [pA] 1 1 0 .none 0 resetRunbuf) = .next t :=
  ⟨⟨rfl, _, rfl⟩, rfl, _, rfl⟩

end Sys2Proof.Tests
end

section
/-! SUPPORT. What the run-entry decoder and encoder give together (30_encoding). -/

namespace Sys2Proof

/-- What decodes is a well-formed entry whose bytes are those read (30_encoding R95 to R98). -/
theorem decode_eq_ok {bytes after : List Byte} {i : Instr} (h : decode bytes = .ok (i, after)) :
    i.wellFormed = true ∧ encode i ++ after = bytes := by
  match bytes with
  | [] => simp at h
  | c :: payload =>
    have hn := controlRunLength_bounds c
    by_cases hc : c.toNat < 128
    · rw [decode_cons_lit hc] at h
      split at h
      · next ps rest hp =>
        obtain ⟨rfl, rfl⟩ := by simpa using h
        obtain ⟨hl, hb⟩ := takePixels_eq_some hp
        refine ⟨(wellFormed_iff _).2 (by simpa [Instr.runLength, hl] using hn), ?_⟩
        rw [encode, hl, litControl_controlRunLength c hc, List.cons_append, hb]
      · simp at h
    · rw [decode_cons_rep (by omega)] at h
      split at h
      · obtain ⟨rfl, rfl⟩ := by simpa using h
        refine ⟨(wellFormed_iff _).2 hn, ?_⟩
        rw [encode, repControl_controlRunLength c (by omega)]
        rfl
      · simp at h

theorem encodeAll_singleton (i : Instr) : encodeAll [i] = encode i := by simp

end Sys2Proof
end

section
/-! SUPPORT. Runs of the machine, and how each unit at work ends: `HSER`, `HDES`, `RAW` and `RDEC`. -/

namespace Sys2Proof.Machine

/-! ### Runs of the machine -/

theorem runWith_one (cfg : Config) (s : State) : runWith cfg 1 s = stepWith cfg s := by
  cases h : stepWith cfg s <;> simp [runWith, h]

theorem runWith_add (cfg : Config) (k n : Nat) (s : State) :
    runWith cfg (k + n) s = andThen (runWith cfg k s) (runWith cfg n) := by
  induction k generalizing s with
  | zero => simp [runWith]
  | succ k ih =>
    rw [Nat.succ_add]
    cases h : stepWith cfg s <;> simp [runWith, h, ih]

/-- What a later state of the run leaves, the earlier one does. -/
theorem leaves_of_run {cfg : Config} {k n : Nat} {s t : State} {o : OpResult Result}
    (hrun : runWith cfg k s = .next t) (h : Leaves cfg n t o) : Leaves cfg (k + n) s o := by
  have hadd (j : Nat) : runWith cfg (k + j) s = runWith cfg j t := by
    rw [runWith_add, hrun, andThen_next]
  cases o with
  | ok r => obtain ⟨j, hj, h⟩ := h; exact ⟨k + j, by omega, by rwa [hadd]⟩
  | err kind => obtain ⟨j, hj, h⟩ := h; exact ⟨k + j, by omega, by rwa [hadd]⟩
  | refused reason => obtain ⟨j, hj, h⟩ := h; exact ⟨k + j, by omega, by rwa [hadd]⟩

theorem leaves_of_step {cfg : Config} {n : Nat} {s t : State} {o : OpResult Result}
    (hstep : stepWith cfg s = .next t) (h : Leaves cfg n t o) : Leaves cfg (n + 1) s o := by
  rw [Nat.add_comm]
  exact leaves_of_run ((runWith_one cfg s).trans hstep) h

theorem leaves_finish (cfg : Config) (n : Nat) (r : Result) (s : State) :
    Leaves cfg n (finish r s) (.ok r) :=
  ⟨0, Nat.zero_le n, _, rfl, rfl, rfl, rfl⟩

theorem leaves_raise (cfg : Config) (n : Nat) (kind : ErrorKind) (s : State) :
    Leaves cfg n (raise kind s) (.err kind) :=
  ⟨0, Nat.zero_le n, _, rfl, rfl, rfl, rfl⟩

theorem leaves_refused {cfg : Config} {s : State} {reason : Refusal}
    (hstep : stepWith cfg s = .refused reason) (n : Nat) :
    Leaves cfg (n + 1) s (.refused reason) :=
  ⟨1, Nat.le_add_left 1 n, (runWith_one cfg s).trans hstep⟩

theorem OpResult.andThen_assoc {α β γ : Type} (o : OpResult α) (f : α → OpResult β)
    (g : β → OpResult γ) : (o.andThen f).andThen g = o.andThen fun a => (f a).andThen g := by
  cases o <;> rfl

/-- A unit that does its work in one step ends with the outcome of its function (00_scope R9). -/
theorem leaves_endWith {α : Type} {cfg : Config} {s : State} {o : OpResult α} {result : α → Result}
    {before : α → State → State}
    (hstep : stepWith cfg s = endWith o (fun v t => finish (result v) (before v t)) s) (n : Nat) :
    Leaves cfg (n + 1) s (o.andThen fun v => .ok (result v)) := by
  cases o with
  | ok v => exact leaves_of_step hstep (leaves_finish cfg n _ _)
  | err kind => exact leaves_of_step hstep (leaves_raise cfg n _ _)
  | refused reason => exact leaves_refused hstep n

/-! ### The header units -/

/-- The bytes before the end of a write are those before it and the value. -/
theorem take_memWrite {space v : List Byte} {addr stop : Nat} (hstop : addr + v.length = stop)
    (h : stop ≤ space.length) : (memWrite space addr v).take stop = space.take addr ++ v := by
  have hl : (space.take addr ++ v).length = stop := by simp; omega
  rw [memWrite, List.take_take, Nat.min_eq_left h, ← hl, List.take_left]

/-- The writes of `HSER` one after the other fill `HDR` with the header (40_header R122 to R126). -/
theorem writeHeader_hdr {m : Memory} (hm : m.wf = true) (width height kind blockCount : Word32) :
    (writeHeader width height kind blockCount m).hdr = headerBytes width height kind blockCount := by
  rw [Memory.wf_iff] at hm
  have hfull : (writeHeader width height kind blockCount m).hdr.length = 512 := by
    simp [writeHeader, hm]
  rw [← List.take_of_length_le hfull.le]
  simp only [writeHeader, Memory.writeHdr_hdr]
  rw [take_memWrite, take_memWrite, take_memWrite, take_memWrite, take_memWrite, take_memWrite]
  · simp [headerBytes]
  all_goals simp [hm]

/-- `HSER` at work ends with the outcome of its function on its latches (40_header R126). -/
theorem leaves_hser {cfg : Config} {s : State} (ha : s.active = .hser) (hm : s.mem.wf = true) (n : Nat) :
    Leaves cfg (n + 1) s
      ((hser cfg s.hdrLatch.width s.hdrLatch.height s.hdrLatch.kind s.hdrLatch.bodyLength).andThen
        fun hdr => .ok (.header hdr)) := by
  have hstep : stepWith cfg s = hserStep cfg s := by simp only [stepWith, ha]
  unfold hserStep at hstep
  unfold hser
  cases hf : checkFields cfg s.hdrLatch.width s.hdrLatch.height s.hdrLatch.kind with
  | some error =>
    rw [hf] at hstep
    exact leaves_of_step hstep (leaves_raise cfg n _ _)
  | none =>
    rw [hf] at hstep
    cases hb : blockCountOf cfg s.hdrLatch.bodyLength with
    | none =>
      rw [hb] at hstep
      exact leaves_refused hstep n
    | some bc =>
      rw [hb] at hstep
      refine leaves_of_step hstep ?_
      simp only [State.setMem_mem, State.setHdrLatch_mem, State.setHdrLatch_hdrLatch,
        writeHeader_hdr hm]
      exact leaves_finish cfg n _ _

theorem memRead_take {buf : List Byte} {addr n k : Nat} (h : addr + n ≤ k) (hk : k ≤ buf.length) :
    memRead (buf.take k) addr n = memRead buf addr n := by
  rw [memRead_eq (by simp; omega), memRead_eq (by omega), List.drop_take, List.take_take,
    Nat.min_eq_left (by omega)]

/-- `HDES` reads no byte of its input from 512 on (40_header R129). -/
theorem hdesOn_take (cfg : Config) (length : Nat) {buf : List Byte} (h : 512 ≤ buf.length) :
    hdesOn cfg length (buf.take 512) = hdesOn cfg length buf := by
  have hword {addr : Nat} (ha : addr + 4 ≤ 512) : readWord32 (buf.take 512) addr = readWord32 buf addr := by
    rw [readWord32, memRead_take ha h, readWord32]
  have hfields : extractFields (buf.take 512) = extractFields buf := by
    simp only [extractFields, hword (addr := 8) (by omega), hword (addr := 12) (by omega),
      hword (addr := 16) (by omega), hword (addr := 20) (by omega)]
  simp only [hdesOn, hfields, memRead_take (addr := 0) (n := 8) (k := 512) (by omega) h]

/-- `HDES` on `HDR` as the start of `HDR_DEC` filled it answers as on the whole input
(40_header R127 to R129, log 14). -/
theorem hdesOn_call_memory (cfg : Config) (buf : List Byte) :
    hdesOn cfg buf.length (Call.hdrDec buf).memory.hdr = hdes cfg buf := by
  by_cases h : 512 ≤ buf.length
  · rw [hdr_hdrDec h, hdesOn_take cfg _ h, hdes]
  · have hshort : buf.length < headerSize := Nat.lt_of_not_le h
    rw [hdes, hdesOn, if_pos hshort, hdesOn, if_pos hshort]

/-- `HDES` at work ends with the outcome of its checks on `HDR` (40_header R133). -/
theorem leaves_hdes {cfg : Config} {s : State} {length : Nat} (ha : s.active = .hdes length) (n : Nat) :
    Leaves cfg (n + 1) s
      ((hdesOn cfg length s.mem.hdr).andThen fun f =>
        .ok (.fields f.width f.height f.kind f.blockCount)) :=
  have hstep : stepWith cfg s = hdesStep cfg length s := by simp only [stepWith, ha]
  leaves_endWith hstep n

/-! ### RAW -/

theorem leaves_rawEnc {cfg : Config} {s : State} {W H : Word32} (ha : s.active = .rawEnc W H) (n : Nat) :
    Leaves cfg (n + 1) s ((encodeRaw cfg s.mem.grid W H).andThen fun body => .ok (.body body)) :=
  have hstep : stepWith cfg s = rawEncStep cfg W H s := by simp only [stepWith, ha]
  leaves_endWith hstep n

theorem leaves_rawDec {cfg : Config} {s : State} {W H : Word32} (ha : s.active = .rawDec W H) (n : Nat) :
    Leaves cfg (n + 1) s ((decodeRaw cfg s.mem.body W H).andThen fun grid => .ok (.grid grid)) :=
  have hstep : stepWith cfg s = rawDecStep cfg W H s := by simp only [stepWith, ha]
  leaves_endWith hstep n

/-! ### RDEC -/

/-- Where `blen` is the length of the body, the unread bytes are those from the cursor on. -/
theorem unread_eq_drop {s : State} (h : s.rdec.blen = s.mem.body.length) :
    s.unread = s.mem.body.drop s.rdec.cursor := by
  simp [State.unread, h]

theorem latchControl_of_unread {s : State} {c : Byte} {rest : List Byte} (h : s.unread = c :: rest) :
    latchControl s = s.fetched c := by
  simp only [latchControl, h]
  rfl

/-- What the effect of an entry leaves and what it appends and moves (42_rle_decode R176, R177). -/
theorem entryEffect_frame (i : Instr) (s : State) :
    (entryEffect i s).active = s.active ∧ (entryEffect i s).mem.body = s.mem.body ∧
      (entryEffect i s).mem.grid = s.mem.grid ++ i.pixels ∧
      (entryEffect i s).rdec.blen = s.rdec.blen ∧ (entryEffect i s).rdec.total = s.rdec.total ∧
      (entryEffect i s).rdec.cursor = s.rdec.cursor + i.payloadLength ∧
      (entryEffect i s).rdec.emitted = s.rdec.emitted + i.runLength := by
  cases i with
  | lit ps => exact ⟨rfl, rfl, rfl, rfl, rfl, rfl, rfl⟩
  | rep n p =>
    exact ⟨rfl, rfl, rfl, rfl, rfl, rfl, by simp [entryEffect, Instr.runLength]⟩

/-- The next entry of `RDEC` at work runs with its whole payload there (42_rle_decode R173 to R175). -/
theorem entryStep_of_decode {s : State} {i : Instr} {rest : List Byte}
    (hw : s.rdec.WorkInv s.mem.body s.mem.grid) (hd : decode s.unread = .ok (i, rest)) :
    ∃ c, entryStep s = exec i (s.fetched c) ∧
      s.rdec.cursor + 1 + i.payloadLength ≤ s.rdec.blen ∧
      s.mem.body.drop (s.rdec.cursor + 1 + i.payloadLength) = rest := by
  obtain ⟨hb, hc, -, -⟩ := hw
  obtain ⟨-, hbytes⟩ := decode_eq_ok hd
  obtain ⟨c, payload, hu⟩ : ∃ c payload, s.unread = c :: payload :=
    List.exists_cons_of_ne_nil fun hu => by simp [hu] at hd
  rw [unread_eq_drop hb] at hbytes
  refine ⟨c, ?_, ?_, ?_⟩
  · rw [entryStep, hd, ← latchControl_of_unread hu]
  · have := congrArg List.length hbytes
    simp at this
    omega
  · rw [Nat.add_assoc, ← List.drop_drop, ← hbytes, ← encode_length i, List.drop_left]

/-- What the next entry of `RDEC` at work does: it overshoots, or `RDEC` is at work on the rest with the
entry's pixels emitted (42_rle_decode R176 to R178). -/
theorem entryStep_cases_of_decode {s : State} {i : Instr} {rest : List Byte}
    (hw : s.rdec.WorkInv s.mem.body s.mem.grid) (hd : decode s.unread = .ok (i, rest)) :
    (s.rdec.total < s.rdec.emitted + i.runLength ∧
      ∃ c, entryStep s = .next (raise .sizeMismatch (s.fetched c))) ∨
    (s.rdec.emitted + i.runLength ≤ s.rdec.total ∧
      ∃ t, entryStep s = .next t ∧ t.active = s.active ∧ t.rdec.WorkInv t.mem.body t.mem.grid ∧
        t.unread = rest ∧ t.mem.grid = s.mem.grid ++ i.pixels ∧ t.rdec.total = s.rdec.total ∧
        t.rdec.emitted = s.rdec.emitted + i.runLength) := by
  obtain ⟨c, hstep, hfit, hrest⟩ := entryStep_of_decode hw hd
  obtain ⟨hb, -, -, hg⟩ := hw
  rcases exec_cases i (s.fetched c) with ⟨hcut, -⟩ | ⟨-, hover, hx⟩ | ⟨-, hroom, hx⟩
  · exact absurd hcut (Nat.not_lt.2 hfit)
  · exact .inl ⟨hover, c, hstep.trans hx⟩
  · obtain ⟨ha, hbody, hgrid, hblen, htotal, hcursor, hemitted⟩ := entryEffect_frame i (s.fetched c)
    have hblen' : (entryEffect i (s.fetched c)).rdec.blen =
        (entryEffect i (s.fetched c)).mem.body.length := by rw [hblen, hbody]; exact hb
    refine .inr ⟨hroom, _, hstep.trans hx, ha, ⟨hblen', ?_, ?_, ?_⟩, ?_, hgrid, htotal, hemitted⟩
    · rw [hcursor, hblen]; exact hfit
    · rw [hemitted, htotal]; exact hroom
    · rw [hgrid, hemitted, List.length_append, pixels_length]
      exact congrArg (· + i.runLength) hg
    · rw [unread_eq_drop hblen', hbody, hcursor]; exact hrest

theorem decodeLoop_of_le {total : Nat} {grid : List Pixel} (h : total ≤ grid.length) (fuel : Nat)
    (bytes : List Byte) : decodeLoop total fuel bytes grid = .ok (grid, bytes) := by
  cases fuel <;> simp [decodeLoop, Nat.not_lt.2 h]

/-- `RDEC` at work ends with its grid where the loop test fails (42_rle_decode R172). -/
theorem leaves_rdec_of_le {cfg : Config} {s : State} (ha : s.active = .rdec)
    (hdone : s.rdec.total ≤ s.rdec.emitted) (n : Nat) :
    Leaves cfg (n + 1) s (.ok (.grid s.mem.grid)) := by
  have hstep : stepWith cfg s = .next (finish (.grid s.mem.grid) s) := by
    simp [stepWith, ha, rdecStep, morePixels, Nat.not_lt.2 hdone]
  exact leaves_of_step hstep (leaves_finish cfg n _ _)

/-- `RDEC` at work ends as the decode loop on its unread bytes does, an entry a step
(42_rle_decode R172). -/
theorem leaves_rdec (cfg : Config) {fuel : Nat} {s : State} (ha : s.active = .rdec)
    (hw : s.rdec.WorkInv s.mem.body s.mem.grid) (hfuel : s.rdec.total ≤ s.rdec.emitted + fuel) :
    Leaves cfg (fuel + 1) s
      ((decodeLoop s.rdec.total fuel s.unread s.mem.grid).andThen fun done => .ok (.grid done.1)) := by
  induction fuel generalizing s with
  | zero =>
    obtain ⟨-, -, -, hg⟩ := hw
    rw [decodeLoop_of_le (by omega)]
    exact leaves_rdec_of_le ha hfuel 0
  | succ fuel ih =>
    have ⟨_, _, _, hg⟩ := hw
    by_cases hmore : s.rdec.emitted < s.rdec.total
    case neg =>
      rw [decodeLoop_of_le (by omega)]
      exact leaves_rdec_of_le ha (Nat.le_of_not_lt hmore) _
    have hstep : stepWith cfg s = entryStep s := by simp [stepWith, ha, rdecStep, morePixels, hmore]
    simp only [decodeLoop, hg, if_pos hmore]
    cases hd : decode s.unread with
    | error e =>
      rw [entryStep, hd] at hstep
      cases e with
      | noControlByte => exact leaves_of_step hstep (leaves_raise cfg _ _ _)
      | payloadCut => exact leaves_of_step hstep (leaves_raise cfg _ _ _)
    | ok entry =>
      obtain ⟨i, rest⟩ := entry
      have hlen := ((wellFormed_iff i).1 (decode_eq_ok hd).1).1
      rcases entryStep_cases_of_decode hw hd with
        ⟨hover, c, he⟩ | ⟨hroom, t, he, hat, hwt, hu, hgt, htotal, hemitted⟩
      · simp only [if_pos hover]
        exact leaves_of_step (hstep.trans he) (leaves_raise cfg _ _ _)
      · simp only [if_neg (Nat.not_lt.2 hroom)]
        rw [← hu, ← hgt, ← htotal]
        exact leaves_of_step (hstep.trans he) (ih (hat.trans ha) hwt (by omega))

end Sys2Proof.Machine
end

section
/-! SUPPORT. `RENC` at work: a step does to its registers what the encoder does to the run they hold, and
so the machine's run of a grid is the encoder's. -/

namespace Sys2Proof.Machine

/-! ### The rules of RENC on a run held in the registers -/

/-- The state after a rule of `RENC` that leaves these `mode`, `count` and `runbuf` and emits these
bytes. -/
def State.afterRule (s : State) (mode : RencMode) (count : Byte) (runbuf : List Pixel)
    (emitted : List Byte) : State :=
  { s with
    renc := { s.renc with mode := mode, count := count, runbuf := runbuf }
    mem := { s.mem with body := s.mem.body ++ emitted } }

/-- `count_succ` with the addition as the rules write it. -/
theorem count_add_one {c : Byte} (h : c.toNat ≤ 127) : (c + 1).toNat = c.toNat + 1 := count_succ h

theorem ruleDRep_eq (s : State) :
    ruleDRep s =
      s.afterRule .none 0 s.renc.runbuf (encode (.rep (s.renc.count + 1).toNat s.renc.cur)) := rfl

theorem ruleELit_eq (s : State) :
    ruleELit s =
      s.afterRule .none 0 s.renc.runbuf (encode (.lit (s.renc.runbuf.take s.renc.count.toNat))) := rfl

theorem ruleDLit_eq {s : State} (hc : s.renc.count.toNat ≤ 127) :
    ruleDLit s =
      if s.renc.count.toNat + 1 = 128 then
        s.afterRule .none 0 (s.renc.runbuf.set s.renc.count.toNat s.renc.cur)
          (encode (.lit ((s.renc.runbuf.set s.renc.count.toNat s.renc.cur).take 128)))
      else
        s.afterRule .lit (s.renc.count + 1) (s.renc.runbuf.set s.renc.count.toNat s.renc.cur) [] := by
  simp only [ruleDLit, atCap_iff, State.setRenc_renc, bufferPixel_renc, count_add_one hc]
  split
  · rfl
  · simp [State.afterRule, bufferPixel, State.setRenc]

theorem ruleE_eq {s : State} (hc : s.renc.count.toNat ≤ 127) :
    ruleE s =
      if s.renc.count.toNat + 1 = 128 then
        s.afterRule .none 0 s.renc.runbuf (encode (.rep 128 s.renc.cur))
      else s.afterRule .rep (s.renc.count + 1) s.renc.runbuf [] := by
  simp only [ruleE, atCap_iff, State.setRenc_renc, count_add_one hc]
  split
  · rfl
  · simp [State.afterRule, State.setRenc]

/-- What step `D-LIT` needs of a literal run or of no run (41_rle_encode R147). -/
theorem literal_of_runHeld {r : Renc} {ps : List Pixel}
    (h : RunHeld r (.lit ps) ∨ RunHeld r .none ∧ ps = []) :
    r.mode ≠ .rep ∧ r.count.toNat = ps.length ∧ ps.length ≤ 127 ∧ r.runbuf.length = 128 ∧
      r.runbuf.take ps.length = ps := by
  rcases h with ⟨hm, hc, -, hle, hb, ht⟩ | ⟨⟨hm, hc, hb⟩, rfl⟩
  · exact ⟨by simp [hm], hc, hle, hb, ht⟩
  · exact ⟨by simp [hm], by simp [hc], by simp, hb, rfl⟩

/-- What step `E` needs of a repeat run or of no run (41_rle_encode R149). -/
theorem repeat_of_runHeld {r : Renc} {k : Nat} (h : RunHeld r (.rep k) ∨ RunHeld r .none ∧ k = 0) :
    r.mode ≠ .lit ∧ r.count.toNat = k ∧ k ≤ 127 ∧ r.runbuf.length = 128 := by
  rcases h with ⟨hm, hc, -, hle, hb⟩ | ⟨⟨hm, hc, hb⟩, rfl⟩
  · exact ⟨by simp [hm], hc, hle, hb⟩
  · exact ⟨by simp [hm], by simp [hc], by simp, hb⟩

theorem stepDispatch_differ_rep {s : State} {k : Nat} (hne : s.renc.cur ≠ s.renc.nxt)
    (hr : RunHeld s.renc (.rep k)) :
    stepDispatch s = s.afterRule .none 0 s.renc.runbuf (encode (.rep (k + 1) s.renc.cur)) := by
  obtain ⟨hm, hc, -, hle, -⟩ := hr
  rw [stepDispatch_eq, if_neg hne, if_pos hm, ruleDRep_eq]
  have hsucc : (s.renc.count + 1).toNat = k + 1 := by rw [← hc]; exact count_add_one (by omega)
  rw [hsucc]

theorem stepDispatch_differ_lit {s : State} {ps : List Pixel} (hne : s.renc.cur ≠ s.renc.nxt)
    (hr : RunHeld s.renc (.lit ps) ∨ RunHeld s.renc .none ∧ ps = []) :
    stepDispatch s =
      if ps.length + 1 = 128 then
        s.afterRule .none 0 (s.renc.runbuf.set s.renc.count.toNat s.renc.cur)
          (encode (.lit (ps ++ [s.renc.cur])))
      else
        s.afterRule .lit (s.renc.count + 1) (s.renc.runbuf.set s.renc.count.toNat s.renc.cur) [] := by
  obtain ⟨hm, hc, hle, hb, ht⟩ := literal_of_runHeld hr
  rw [stepDispatch_eq, if_neg hne, if_neg hm, ruleDLit_eq (by omega), hc]
  split
  · next hcap => rw [← hcap, take_set_self (by omega), ht]
  · rfl

theorem stepDispatch_equal_lit {s : State} {ps : List Pixel} (heq : s.renc.cur = s.renc.nxt)
    (hr : RunHeld s.renc (.lit ps)) :
    stepDispatch s = s.afterRule .rep 1 s.renc.runbuf (encode (.lit ps)) := by
  obtain ⟨hm, hc, -, -, -, ht⟩ := hr
  rw [stepDispatch_eq, if_pos heq, if_pos hm, ruleELit_eq, hc, ht, ruleE_eq (by simp [State.afterRule])]
  simp [State.afterRule]

theorem stepDispatch_equal_rep {s : State} {k : Nat} (heq : s.renc.cur = s.renc.nxt)
    (hr : RunHeld s.renc (.rep k) ∨ RunHeld s.renc .none ∧ k = 0) :
    stepDispatch s =
      if k + 1 = 128 then s.afterRule .none 0 s.renc.runbuf (encode (.rep 128 s.renc.cur))
      else s.afterRule .rep (s.renc.count + 1) s.renc.runbuf [] := by
  obtain ⟨hm, hc, hle, -⟩ := repeat_of_runHeld hr
  rw [stepDispatch_eq, if_pos heq, if_neg hm, ruleE_eq (by omega), hc]

/-- The rule of the step leaves this run in the registers and emits the bytes of these entries; it
changes nothing but `mode`, `count`, `runbuf` and the body. -/
def State.DispatchesTo (s : State) (out : Run × List Instr) : Prop :=
  ∃ mode count runbuf,
    stepDispatch s = s.afterRule mode count runbuf (encodeAll out.2) ∧ RunHeld (stepDispatch s).renc out.1

/-- A rule that flushes the run leaves none (10_state R24). -/
theorem dispatchesTo_flush {s : State} {i : Instr} {runbuf : List Pixel} (hb : runbuf.length = 128)
    (h : stepDispatch s = s.afterRule .none 0 runbuf (encode i)) : s.DispatchesTo (.none, [i]) :=
  ⟨.none, 0, runbuf, by rw [h, encodeAll_singleton], by rw [h]; exact ⟨rfl, rfl, hb⟩⟩

theorem dispatchesTo_differ_rep {s : State} {k : Nat} (hne : s.renc.cur ≠ s.renc.nxt)
    (hr : RunHeld s.renc (.rep k)) : s.DispatchesTo (.none, [.rep (k + 1) s.renc.cur]) :=
  dispatchesTo_flush (inv_of_runHeld hr).2 (stepDispatch_differ_rep hne hr)

theorem dispatchesTo_equal_lit {s : State} {ps : List Pixel} (heq : s.renc.cur = s.renc.nxt)
    (hr : RunHeld s.renc (.lit ps)) : s.DispatchesTo (.rep 1, [.lit ps]) := by
  have h := stepDispatch_equal_lit heq hr
  refine ⟨.rep, 1, s.renc.runbuf, by rw [h, encodeAll_singleton], ?_⟩
  rw [h]
  exact ⟨rfl, rfl, Nat.le_refl 1, by decide, (inv_of_runHeld hr).2⟩

theorem dispatchesTo_equal_rep {s : State} {k : Nat} (heq : s.renc.cur = s.renc.nxt)
    (hr : RunHeld s.renc (.rep k) ∨ RunHeld s.renc .none ∧ k = 0) :
    s.DispatchesTo (if k + 1 = 128 then (.none, [.rep 128 s.renc.cur]) else (.rep (k + 1), [])) := by
  obtain ⟨-, hc, hle, hb⟩ := repeat_of_runHeld hr
  have h := stepDispatch_equal_rep heq hr
  split at h
  · next hcap => rw [if_pos hcap]; exact dispatchesTo_flush hb h
  · next hroom =>
    rw [if_neg hroom]
    refine ⟨_, _, _, h, ?_⟩
    have hsucc : (s.renc.count + 1).toNat = k + 1 := by rw [← hc]; exact count_add_one (by omega)
    rw [h]
    exact ⟨rfl, hsucc, by omega, by omega, hb⟩

theorem dispatchesTo_differ_lit {s : State} {ps : List Pixel} (hne : s.renc.cur ≠ s.renc.nxt)
    (hr : RunHeld s.renc (.lit ps) ∨ RunHeld s.renc .none ∧ ps = []) :
    s.DispatchesTo
      (if ps.length + 1 = 128 then (.none, [.lit (ps ++ [s.renc.cur])])
        else (.lit (ps ++ [s.renc.cur]), [])) := by
  obtain ⟨-, hc, hle, hb, ht⟩ := literal_of_runHeld hr
  have hlen : (s.renc.runbuf.set s.renc.count.toNat s.renc.cur).length = 128 := by simp [hb]
  have h := stepDispatch_differ_lit hne hr
  split at h
  · next hcap => rw [if_pos hcap]; exact dispatchesTo_flush hlen h
  · next hroom =>
    rw [if_neg hroom]
    refine ⟨_, _, _, h, ?_⟩
    have hsucc : (s.renc.count + 1).toNat = (ps ++ [s.renc.cur]).length := by
      rw [List.length_append, List.length_singleton, ← hc]; exact count_add_one (by omega)
    have htake : (s.renc.runbuf.set s.renc.count.toNat s.renc.cur).take (ps ++ [s.renc.cur]).length =
        ps ++ [s.renc.cur] := by
      rw [List.length_append, List.length_singleton, hc, take_set_self (by omega), ht]
    rw [h]
    exact ⟨rfl, hsucc, by simp, by simp; omega, hlen, htake⟩

/-- The rule of a step does to the registers what the comparison does to the run they hold
(41_rle_encode R145 to R149). -/
theorem dispatchesTo_compare {s : State} {run : Run} (hr : RunHeld s.renc run) :
    s.DispatchesTo (run.compare s.renc.cur s.renc.nxt) := by
  by_cases heq : s.renc.cur = s.renc.nxt
  · cases run with
    | none => simpa [Run.compare, heq] using dispatchesTo_equal_rep (k := 0) heq (.inr ⟨hr, rfl⟩)
    | rep k => simpa [Run.compare, heq] using dispatchesTo_equal_rep heq (.inl hr)
    | lit ps => simpa [Run.compare, heq] using dispatchesTo_equal_lit heq hr
  · cases run with
    | none => simpa [Run.compare, heq] using dispatchesTo_differ_lit (ps := []) heq (.inr ⟨hr, rfl⟩)
    | rep k => simpa [Run.compare, heq] using dispatchesTo_differ_rep heq hr
    | lit ps => simpa [Run.compare, heq] using dispatchesTo_differ_lit heq (.inl hr)

/-- Which run is held depends on `mode`, `count` and `runbuf` only. -/
theorem runHeld_congr {r r' : Renc} {run : Run} (hm : r'.mode = r.mode) (hc : r'.count = r.count)
    (hb : r'.runbuf = r.runbuf) (h : RunHeld r run) : RunHeld r' run := by
  cases run with
  | none => simpa only [RunHeld, hm, hc, hb] using h
  | lit ps => simpa only [RunHeld, hm, hc, hb] using h
  | rep k => simpa only [RunHeld, hm, hc, hb] using h

/-- A comparison step of the machine does to the registers what the comparison does to the run they hold,
and appends the bytes of its entries (41_rle_encode R145, R153). -/
theorem step_refines_compare {s : State} {cur nxt : Pixel} {run : Run} (h : s.ComparesAt cur nxt)
    (hr : RunHeld s.renc run) (cfg : Config) :
    ∃ mode count runbuf,
      stepWith cfg s =
        .next (s.afterCompare cur nxt mode count runbuf (encodeAll (run.compare cur nxt).2)) ∧
      RunHeld
        (s.afterCompare cur nxt mode count runbuf (encodeAll (run.compare cur nxt).2)).renc
        (run.compare cur nxt).1 := by
  have hload : RunHeld (s.setRenc { s.renc with cur := cur, nxt := nxt }).renc run :=
    runHeld_congr rfl rfl rfl hr
  obtain ⟨mode, count, runbuf, hd, hrun⟩ := dispatchesTo_compare hload
  rw [hd] at hrun
  refine ⟨mode, count, runbuf, ?_, runHeld_congr rfl rfl rfl hrun⟩
  rw [step_of_comparesAt h, hd]
  rfl

theorem endFlush_rep {s : State} (hm : s.renc.mode = .rep) :
    endFlush s = flushRep (s.renc.count.toNat + 1) s.renc.cur s := by
  simp only [endFlush, hm]

theorem endFlush_lit {s : State} (hm : s.renc.mode = .lit) :
    endFlush s = flushLit (s.renc.count.toNat + 1) (bufferPixel s.renc.cur s) := by
  simp only [endFlush, hm]

theorem endFlush_none {s : State} (hm : s.renc.mode = .none) :
    endFlush s =
      flushLit 1 (s.setRenc { s.renc with runbuf := s.renc.runbuf.set 0 s.renc.cur }) := by
  simp only [endFlush, hm]

/-- The flush of the end step emits the entry that closes the run held and writes at most `runbuf`
(41_rle_encode R150). -/
theorem endFlush_eq {s : State} {run : Run} (hr : RunHeld s.renc run) :
    ∃ runbuf, runbuf.length = 128 ∧
      endFlush s =
        (s.setRenc { s.renc with runbuf := runbuf }).emitBody (encode (run.close s.renc.cur)) := by
  have hb : s.renc.runbuf.length = 128 := (inv_of_runHeld hr).2
  cases run with
  | none =>
    obtain ⟨hm, -, -⟩ := hr
    have htake := take_set_self (buf := s.renc.runbuf) (n := 0) (by omega) s.renc.cur
    refine ⟨s.renc.runbuf.set 0 s.renc.cur, by simp [hb], ?_⟩
    rw [endFlush_none hm, flushLit, State.setRenc_renc, htake]
    rfl
  | rep k =>
    obtain ⟨hm, hc, -⟩ := hr
    refine ⟨s.renc.runbuf, hb, ?_⟩
    rw [endFlush_rep hm, hc]
    rfl
  | lit ps =>
    obtain ⟨hm, hc, -, hle, -, ht⟩ := hr
    have htake := take_set_self (buf := s.renc.runbuf) (n := ps.length) (by omega) s.renc.cur
    refine ⟨s.renc.runbuf.set s.renc.count.toNat s.renc.cur, by simp [hb], ?_⟩
    rw [endFlush_lit hm, flushLit, bufferPixel_renc, hc, htake, ht, bufferPixel, hc]
    rfl

/-- An end step of the machine emits the entry that closes the run held (41_rle_encode R150). -/
theorem step_refines_close {s : State} {cur : Pixel} {run : Run} (h : s.EndsRowAt cur)
    (hr : RunHeld s.renc run) (cfg : Config) :
    ∃ runbuf, runbuf.length = 128 ∧
      stepWith cfg s = .next (s.afterRow cur runbuf (encode (run.close cur))) := by
  obtain ⟨runbuf, hb, hf⟩ := endFlush_eq (s := s.setRenc { s.renc with cur := cur }) (run := run)
    (runHeld_congr rfl rfl rfl hr)
  refine ⟨runbuf, hb, ?_⟩
  rw [step_of_endsRowAt h, hf]
  rfl

/-! ### A row of RENC, and the rows of a grid -/

/-- A pixel of the row window is the pixel `RENC` fetches (10_state R45). -/
theorem getElem?_rowWindow {s : State} {x : Nat} (h : x < s.renc.W.toNat) :
    s.rowWindow[x]? = s.mem.grid[rowIndex s x]? := by
  rw [State.rowWindow, gridRow, List.getElem?_take_of_lt h, List.getElem?_drop, rowIndex]

/-- The pixels of the row from `i` on begin with `ROW[i]` and go on from `i + 1`. -/
theorem rowWindow_of_drop {s : State} {x : Nat} {cur : Pixel} {rest : List Pixel}
    (hlen : s.rowWindow.length = s.renc.W.toNat) (h : s.rowWindow.drop x = cur :: rest) :
    x + 1 + rest.length = s.renc.W.toNat ∧ s.mem.grid[rowIndex s x]? = some cur ∧
      s.rowWindow.drop (x + 1) = rest := by
  have hl := congrArg List.length h
  simp only [List.length_drop, List.length_cons, hlen] at hl
  refine ⟨by omega, ?_, ?_⟩
  · rw [← getElem?_rowWindow (by omega), ← List.head?_drop, h, List.head?_cons]
  · rw [← List.tail_drop, h, List.tail_cons]

/-- From any pixel of a row on, the machine runs the row to its end: it emits the entries the encoder
gives for the pixels left and the run held, one pixel a step, and stands at the start of the next row
(41_rle_encode R153). -/
theorem runWith_row (cfg : Config) {s : State} {run : Run} {cur : Pixel} {rest : List Pixel}
    (ha : s.active = .renc) (hrow : s.renc.row < s.renc.H.toNat)
    (hlen : s.rowWindow.length = s.renc.W.toNat) (hd : s.rowWindow.drop s.renc.i = cur :: rest)
    (hr : RunHeld s.renc run) :
    ∃ last nxt runbuf, runbuf.length = 128 ∧
      runWith cfg (rest.length + 1) s =
        .next
          ((s.setRenc { s.renc with nxt := nxt }).afterRow last runbuf
            (encodeAll (rowEntriesFrom run cur rest))) := by
  obtain ⟨hW, hcur, hrest⟩ := rowWindow_of_drop hlen hd
  induction rest generalizing s run cur with
  | nil =>
    have hend : s.EndsRowAt cur := by
      refine ⟨ha, hrow, by simp at hW; omega, ?_⟩
      rw [← hW]
      exact hcur
    obtain ⟨runbuf, hb, hstep⟩ := step_refines_close hend hr cfg
    refine ⟨cur, s.renc.nxt, runbuf, hb, ?_⟩
    rw [List.length_nil, runWith_one, hstep, rowEntriesFrom, encodeAll_singleton]
    rfl
  | cons nxt rest ih =>
    obtain ⟨hW', hnxt, hrest'⟩ := rowWindow_of_drop hlen hrest
    obtain ⟨mode, count, runbuf, hstep, hheld⟩ :=
      step_refines_compare ⟨ha, hrow, by omega, hcur, hnxt⟩ hr cfg
    obtain ⟨last, nxt', runbuf', hb, hrun⟩ := ih (s := s.afterCompare cur nxt mode count runbuf _)
      ha hrow hlen hrest hheld hW' hnxt hrest'
    refine ⟨last, nxt', runbuf', hb, ?_⟩
    rw [List.length_cons, runWith, hstep, andThen_next, hrun, rowEntriesFrom, encodeAll_append]
    simp only [State.afterRow, State.afterCompare, State.setRenc, List.append_assoc]

theorem encodeRow_cons (p : Pixel) (ps : List Pixel) :
    encodeRow (p :: ps) = .ok (encodeAll (rowEntriesFrom .none p ps)) := rfl

theorem encodeRows_cons {α : Type} {row : List Pixel} {a : List Byte} (h : encodeRow row = .ok a)
    (rows : List (List Pixel)) (k : List Byte → OpResult α) :
    (encodeRows (row :: rows)).andThen k = (encodeRows rows).andThen fun b => k (a ++ b) := by
  rw [encodeRows, h, OpResult.andThen_ok]
  cases encodeRows rows <;> rfl

theorem gridRows_succ (s : State) (rows : Nat) :
    gridRows s.renc.W.toNat (rows + 1) (s.mem.grid.drop (s.renc.row * s.renc.W.toNat)) =
      s.rowWindow ::
        gridRows s.renc.W.toNat rows (s.mem.grid.drop ((s.renc.row + 1) * s.renc.W.toNat)) := by
  rw [gridRows, List.drop_drop, ← Nat.succ_mul]
  rfl

/-- At the start of a row `RENC` ends with the body so far and the encodings of the rows left, after as
many steps as they have pixels and one more (41_rle_encode R154). -/
theorem leaves_renc (cfg : Config) {s : State} {rows : Nat} (ha : s.active = .renc)
    (hrows : s.renc.row + rows = s.renc.H.toNat) (hi : s.renc.i = 0) (hW : 1 ≤ s.renc.W.toNat)
    (hgrid : s.mem.grid.length = pixelTotal s.renc.W s.renc.H) (hr : RunHeld s.renc .none) :
    Leaves cfg (rows * s.renc.W.toNat + 1) s
      ((encodeRows (gridRows s.renc.W.toNat rows (s.mem.grid.drop (s.renc.row * s.renc.W.toNat)))).andThen
        fun bytes => .ok (.body (s.mem.body ++ bytes))) := by
  induction rows generalizing s with
  | zero =>
    have hdone : ¬ s.renc.row < s.renc.H.toNat := by omega
    have hstep : stepWith cfg s = .next (finish (.body s.mem.body) s) := by
      simp only [stepWith, ha, rencStep, if_neg hdone]
    rw [gridRows, encodeRows, OpResult.andThen_ok, List.append_nil]
    exact leaves_of_step hstep (leaves_finish cfg _ _ _)
  | succ rows ih =>
    have hroom : (s.renc.row + 1) * s.renc.W.toNat ≤ s.mem.grid.length := by
      rw [hgrid, pixelTotal, Nat.mul_comm s.renc.W.toNat]
      exact Nat.mul_le_mul_right _ (by omega)
    have hlen : s.rowWindow.length = s.renc.W.toNat := by
      rw [Nat.succ_mul] at hroom
      simp [State.rowWindow, gridRow]
      omega
    obtain ⟨cur, rest, hwin⟩ : ∃ cur rest, s.rowWindow = cur :: rest :=
      List.exists_cons_of_length_pos (by omega)
    obtain ⟨last, nxt, runbuf, hb, hrun⟩ := runWith_row cfg ha (by omega) hlen
      (by rw [hi, List.drop_zero, hwin]) hr
    have hrow : encodeRow s.rowWindow = .ok (encodeAll (rowEntriesFrom .none cur rest)) := by
      rw [hwin, encodeRow_cons]
    have hsteps : (rows + 1) * s.renc.W.toNat + 1 = rest.length + 1 + (rows * s.renc.W.toNat + 1) := by
      rw [hwin, List.length_cons] at hlen
      rw [Nat.succ_mul]
      omega
    have hrows' : s.renc.row + 1 + rows = s.renc.H.toNat := by omega
    have hnext := ih (s := (s.setRenc { s.renc with nxt := nxt }).afterRow last runbuf
      (encodeAll (rowEntriesFrom .none cur rest))) ha hrows' rfl hW hgrid ⟨rfl, rfl, hb⟩
    rw [hsteps]
    refine leaves_of_run hrun ?_
    rw [gridRows_succ, encodeRows_cons hrow]
    simp only [← List.append_assoc]
    exact hnext

end Sys2Proof.Machine
end

section
/-! SUPPORT. Every call, from the step that starts it to its outcome. -/

namespace Sys2Proof.Machine

/-- The step after the host's move starts the call (60_exceptions R230). -/
theorem stepWith_of_present {c : Call} {s t : State} (h : s.present c = some t) (cfg : Config) :
    stepWith cfg t = startCall cfg c := by
  obtain ⟨ha, -, rfl⟩ := present_eq_some.1 h
  simp only [stepWith, ha]

/-- `BODY_ENC` with RLE: the start, a step for each pixel, and the end (41_rle_encode R142, R154). -/
theorem leaves_encodeBody {cfg : Config} {t : State} {grid : List Pixel} {W H : Word32}
    (hstart : stepWith cfg t = startCall cfg (.bodyEnc grid W H true)) :
    Leaves cfg (pixelTotal W H + 2) t
      ((encodeBody cfg grid W H).andThen fun body => .ok (.body body)) := by
  simp only [startCall, if_true, beginRenc] at hstart
  cases hd : checkDims cfg W H with
  | some kind =>
    rw [hd] at hstart
    simp only [encodeBody, hd]
    exact leaves_of_step hstart (leaves_raise cfg _ _ _)
  | none =>
    rw [hd] at hstart
    simp only [encodeBody, hd]
    by_cases hgrid : grid.length = pixelTotal W H
    · rw [if_pos hgrid]
      have hW : 1 ≤ W.toNat := toNat_pos_of_ne_zero (checkDims_eq_none.1 hd).1
      have hrun := leaves_renc cfg (s := (startState (.bodyEnc grid W H true)).setActive .renc)
        (rows := H.toNat) rfl (Nat.zero_add _) rfl hW hgrid ⟨rfl, rfl, resetRunbuf_length⟩
      rw [pixelTotal, Nat.mul_comm]
      refine leaves_of_step (hstart.trans (if_pos hgrid)) ?_
      simpa [Call.memory, startState_mem, Memory.empty, Renc.start, Call.dims] using hrun
    · rw [if_neg hgrid]
      exact leaves_refused (hstart.trans (if_neg hgrid)) _

/-- `BODY_DEC` with `kind = 1`: the start, at most a step for each pixel, and the end
(42_rle_decode R171, R172). -/
theorem leaves_decodeBody {cfg : Config} {t : State} {body : List Byte} {W H : Word32}
    (hstart : stepWith cfg t = startCall cfg (.bodyDec body W H kindRle)) :
    Leaves cfg (pixelTotal W H + 2) t
      ((decodeBody cfg body W H).andThen fun grid => .ok (.grid grid)) := by
  simp only [startCall, beginBodyDec, if_true, beginRdec] at hstart
  cases hd : checkDims cfg W H with
  | some kind =>
    rw [hd] at hstart
    simp only [decodeBody, decodeBodyRest, hd]
    exact leaves_of_step hstart (leaves_raise cfg _ _ _)
  | none =>
    rw [hd] at hstart
    simp only [decodeBody, decodeBodyRest, hd]
    have hrun := leaves_rdec cfg (fuel := pixelTotal W H)
      (s := (startState (.bodyDec body W H kindRle)).setActive .rdec) rfl
      ⟨rfl, Nat.zero_le _, Nat.zero_le _, rfl⟩ (Nat.le_add_left _ _)
    rw [unread_eq_drop rfl] at hrun
    refine leaves_of_step hstart ?_
    rw [OpResult.andThen_assoc]
    exact hrun

/-- Settles O54: the start of a call is a step, and each unit at work ends as its function says. -/
theorem everyCallEndsWithItsOutcome : Obligations.EveryCallEndsWithItsOutcome := by
  unfold Obligations.EveryCallEndsWithItsOutcome
  intro cfg c s t hpresent
  have hstart := stepWith_of_present hpresent cfg
  cases c with
  | hdrEnc width height kind bodyLength =>
    exact leaves_of_step hstart (leaves_hser rfl (Memory.wf_call _) _)
  | hdrDec buf =>
    refine leaves_of_step hstart ?_
    rw [callResult, ← hdesOn_call_memory]
    exact leaves_hdes rfl _
  | bodyEnc grid W H rleEnable =>
    cases rleEnable with
    | true => exact leaves_encodeBody hstart
    | false => exact leaves_of_step hstart (leaves_rawEnc rfl _)
  | bodyDec body W H kind =>
    by_cases hrle : kind = kindRle
    · subst hrle
      exact leaves_decodeBody hstart
    · simp only [startCall, beginBodyDec, if_neg hrle] at hstart
      simp only [callResult, bodyDec, if_neg hrle]
      by_cases hraw : kind = kindRaw
      · rw [if_pos hraw] at hstart ⊢
        exact leaves_of_step hstart (leaves_rawDec rfl _)
      · rw [if_neg hraw] at hstart ⊢
        exact leaves_of_step hstart (leaves_raise cfg _ _ _)
  | pixConv r16 g16 b16 a16 =>
    exact leaves_of_step hstart (leaves_of_step rfl (leaves_finish cfg _ _ _))

end Sys2Proof.Machine
end

section
/-! SUPPORT. What a step does, by the unit at work, and that every step keeps the invariant
(10_state R24, R27, R30, R40, R43). -/

namespace Sys2Proof.Machine

/-! ### The units that do their whole work in one step -/

/-- What a unit leaves that ends its operation in one step: its result, the header latches and the
spaces. -/
structure UnitEnd where
  result : Result
  latch : HeaderLatches
  mem : Memory

/-- End the operation with what the unit leaves. -/
def UnitEnd.apply (e : UnitEnd) (s : State) : State :=
  finish e.result ((s.setHdrLatch e.latch).setMem e.mem)

/-- The checks of `HSER` on its latches, and the block count it writes (40_header R121, R124). -/
def hserBlockCount (cfg : Config) (l : HeaderLatches) : OpResult Word32 :=
  match checkFields cfg l.width l.height l.kind with
  | some error => .err error
  | none =>
    match blockCountOf cfg l.bodyLength with
    | none => .refused .blockCount
    | some bc => .ok bc

/-- The work of `HSER`, `HDES`, `RAW` and `PIXCONV`, which read the latches and the spaces and no register
of `RENC` or `RDEC` (10_state R42); none where no unit or a unit with a loop is at work. -/
def oneStepWork (cfg : Config) (l : HeaderLatches) (m : Memory) : Activity → Option (OpResult UnitEnd)
  | .hser => some <| (hserBlockCount cfg l).andThen fun bc =>
      .ok ⟨.header (writeHeader l.width l.height l.kind bc m).hdr, { l with blockCount := bc },
        writeHeader l.width l.height l.kind bc m⟩
  | .hdes length => some <| (hdesOn cfg length m.hdr).andThen fun f =>
      .ok ⟨.fields f.width f.height f.kind f.blockCount,
        { l with width := f.width, height := f.height, kind := f.kind, blockCount := f.blockCount }, m⟩
  | .rawEnc W H => some <| (encodeRaw cfg m.grid W H).andThen fun body =>
      .ok ⟨.body body, l, { m with body := body }⟩
  | .rawDec W H => some <| (decodeRaw cfg m.body W H).andThen fun grid =>
      .ok ⟨.grid grid, l, { m with grid := grid }⟩
  | .pixConv r16 g16 b16 a16 => some <| .ok ⟨.pixel (pixconv r16 g16 b16 a16), l, m⟩
  | .idle => none
  | .renc => none
  | .rdec => none

theorem activity_cases (cfg : Config) (l : HeaderLatches) (m : Memory) (a : Activity) :
    a = .idle ∨ a = .renc ∨ a = .rdec ∨ ∃ o, oneStepWork cfg l m a = some o := by
  cases a <;> simp [oneStepWork]

theorem endWith_andThen {α β : Type} (o : OpResult α) (k : α → β) (onOk : β → State → State)
    (s : State) :
    endWith (o.andThen fun v => .ok (k v)) onOk s = endWith o (fun v => onOk (k v)) s := by
  cases o <;> rfl

/-- Such a unit's step ends its operation with the outcome of its work (00_scope R9). -/
theorem stepWith_of_oneStepWork {cfg : Config} {s : State} {a : Activity} {o : OpResult UnitEnd}
    (ha : s.active = a) (h : oneStepWork cfg s.hdrLatch s.mem a = some o) :
    stepWith cfg s = endWith o UnitEnd.apply s := by
  cases a with
  | idle => cases h
  | renc => cases h
  | rdec => cases h
  | hser =>
    obtain rfl := Option.some.inj h
    rw [endWith_andThen]
    simp only [stepWith, ha, hserStep, hserBlockCount]
    cases checkFields cfg s.hdrLatch.width s.hdrLatch.height s.hdrLatch.kind with
    | some error => rfl
    | none => cases blockCountOf cfg s.hdrLatch.bodyLength <;> rfl
  | hdes length =>
    obtain rfl := Option.some.inj h
    rw [endWith_andThen]
    simp only [stepWith, ha]
    rfl
  | rawEnc W H =>
    obtain rfl := Option.some.inj h
    rw [endWith_andThen]
    simp only [stepWith, ha]
    rfl
  | rawDec W H =>
    obtain rfl := Option.some.inj h
    rw [endWith_andThen]
    simp only [stepWith, ha]
    rfl
  | pixConv r16 g16 b16 a16 =>
    obtain rfl := Option.some.inj h
    simp only [stepWith, ha]
    rfl

/-- No unit changes the size of `HDR` (10_state R43). -/
theorem wf_of_oneStepWork {cfg : Config} {l : HeaderLatches} {m : Memory} {a : Activity} {e : UnitEnd}
    (h : oneStepWork cfg l m a = some (.ok e)) (hm : m.wf = true) : e.mem.wf = true := by
  cases a with
  | idle => cases h
  | renc => cases h
  | rdec => cases h
  | hser =>
    obtain ⟨bc, -, he⟩ := OpResult.andThen_eq_ok (Option.some.inj h)
    obtain rfl := OpResult.ok.inj he
    rw [Memory.wf_iff, writeHeader_hdr hm, headerBytes_length]
  | hdes length =>
    obtain ⟨f, -, he⟩ := OpResult.andThen_eq_ok (Option.some.inj h)
    obtain rfl := OpResult.ok.inj he
    exact hm
  | rawEnc W H =>
    obtain ⟨body, -, he⟩ := OpResult.andThen_eq_ok (Option.some.inj h)
    obtain rfl := OpResult.ok.inj he
    exact hm
  | rawDec W H =>
    obtain ⟨grid, -, he⟩ := OpResult.andThen_eq_ok (Option.some.inj h)
    obtain rfl := OpResult.ok.inj he
    exact hm
  | pixConv r16 g16 b16 a16 =>
    obtain rfl := OpResult.ok.inj (Option.some.inj h)
    exact hm

/-! ### The start of a call -/

theorem stepWith_of_call {s : State} {c : Call} (ha : s.active = .idle) (hc : s.call = some c)
    (cfg : Config) : stepWith cfg s = startCall cfg c := by simp only [stepWith, ha, hc]

theorem stepWith_of_no_call {s : State} (ha : s.active = .idle) (hc : s.call = none) (cfg : Config) :
    stepWith cfg s = .next s := by simp only [stepWith, ha, hc]

/-- The unit whose output is void where the start of a call raises an error: `RENC` or `RDEC` for a bad
dimension, none for a bad kind (60_exceptions R214, R230). -/
def Call.RaisesIn (c : Call) (a : Activity) : Prop :=
  (∃ grid W H, c = .bodyEnc grid W H true) ∧ a = .renc ∨
    (∃ body W H kind, c = .bodyDec body W H kind) ∧ (a = .rdec ∨ a = .idle)

/-- The start of a call puts a unit to work, or raises an error, on the registers of R48
(60_exceptions R230). -/
theorem startCall_cases {cfg : Config} {c : Call} {t : State} (h : startCall cfg c = .next t) :
    (∃ a, t = (startState c).setActive a ∧ ((startState c).setActive a).WorkInv) ∨
      ∃ kind a, t = raise kind ((startState c).setActive a) ∧ c.RaisesIn a := by
  cases c with
  | hdrEnc width height kind bodyLength =>
    obtain rfl := Host.Outcome.next.inj h
    exact .inl ⟨_, rfl, trivial⟩
  | hdrDec buf =>
    obtain rfl := Host.Outcome.next.inj h
    exact .inl ⟨_, rfl, trivial⟩
  | pixConv r16 g16 b16 a16 =>
    obtain rfl := Host.Outcome.next.inj h
    exact .inl ⟨_, rfl, trivial⟩
  | bodyEnc grid W H rleEnable =>
    cases rleEnable with
    | false =>
      obtain rfl := Host.Outcome.next.inj h
      exact .inl ⟨_, rfl, trivial⟩
    | true =>
      simp only [startCall, if_true, beginRenc] at h
      split at h
      · obtain rfl := Host.Outcome.next.inj h
        exact .inr ⟨_, _, rfl, .inl ⟨⟨grid, W, H, rfl⟩, rfl⟩⟩
      · next hd =>
        split at h
        · next hgrid =>
          obtain rfl := Host.Outcome.next.inj h
          obtain ⟨hW, hH, -, -⟩ := checkDims_eq_none.1 hd
          exact .inl ⟨_, rfl, toNat_pos_of_ne_zero hW, toNat_pos_of_ne_zero hH, hgrid,
            toNat_pos_of_ne_zero hW, Nat.zero_le _⟩
        · cases h
  | bodyDec body W H kind =>
    obtain rfl := Host.Outcome.next.inj h
    have hcall : ∃ body' W' H' kind', Call.bodyDec body W H kind = .bodyDec body' W' H' kind' :=
      ⟨_, _, _, _, rfl⟩
    unfold beginBodyDec
    split
    · unfold beginRdec
      split
      · exact .inr ⟨_, _, rfl, .inr ⟨hcall, .inl rfl⟩⟩
      · exact .inl ⟨_, rfl, rfl, Nat.zero_le _, Nat.zero_le _, rfl⟩
    · split
      · exact .inl ⟨_, rfl, trivial⟩
      · exact .inr ⟨_, .idle, rfl, .inr ⟨hcall, .inr rfl⟩⟩

/-! ### RENC at work -/

theorem workInv_renc {s : State} (ha : s.active = .renc) :
    s.WorkInv ↔ s.renc.WorkInv s.mem.grid := by simp only [State.WorkInv, ha]

theorem workInv_rdec {s : State} (ha : s.active = .rdec) :
    s.WorkInv ↔ s.rdec.WorkInv s.mem.body s.mem.grid := by simp only [State.WorkInv, ha]

/-- The pixels of the rows are in the grid (10_state R45, 20_memory R66). -/
theorem exists_pixel {s : State} {x : Nat} (hgrid : s.mem.grid.length = pixelTotal s.renc.W s.renc.H)
    (hrow : s.renc.row < s.renc.H.toNat) (hx : x < s.renc.W.toNat) :
    ∃ p, s.mem.grid[rowIndex s x]? = some p := by
  have hle : (s.renc.row + 1) * s.renc.W.toNat ≤ s.mem.grid.length := by
    rw [hgrid, pixelTotal, Nat.mul_comm s.renc.W.toNat]
    exact Nat.mul_le_mul_right _ hrow
  rw [Nat.succ_mul] at hle
  exact ⟨_, List.getElem?_eq_getElem (show rowIndex s x < _ by unfold rowIndex; omega)⟩

/-- `RENC` at work is at a comparison step, at an end step or after its last row (41_rle_encode R144). -/
theorem renc_cases {s : State} (ha : s.active = .renc) (hw : s.renc.WorkInv s.mem.grid) :
    (∃ cur nxt, s.ComparesAt cur nxt) ∨ (∃ cur, s.EndsRowAt cur) ∨ s.renc.H.toNat ≤ s.renc.row := by
  obtain ⟨hW, -, hgrid, hi, -⟩ := hw
  by_cases hrow : s.renc.row < s.renc.H.toNat
  case neg => exact .inr (.inr (Nat.le_of_not_lt hrow))
  by_cases hlast : s.renc.i + 1 < s.renc.W.toNat
  · obtain ⟨cur, hcur⟩ := exists_pixel hgrid hrow hi
    obtain ⟨nxt, hnxt⟩ := exists_pixel hgrid hrow hlast
    exact .inl ⟨cur, nxt, ha, hrow, hlast, hcur, hnxt⟩
  · obtain ⟨cur, hcur⟩ := exists_pixel hgrid hrow (x := s.renc.W.toNat - 1) (by omega)
    exact .inr (.inl ⟨cur, ha, hrow, Nat.le_of_not_lt hlast, hcur⟩)

/-- After the last row the step ends the operation (41_rle_encode R154). -/
theorem stepWith_renc_done {s : State} (ha : s.active = .renc) (hrow : s.renc.H.toNat ≤ s.renc.row)
    (cfg : Config) : stepWith cfg s = .next (finish (.body s.mem.body) s) := by
  simp only [stepWith, ha, rencStep, if_neg (Nat.not_lt.2 hrow)]

/-! ### The invariant -/

theorem inv_of_idle {s : State} (ha : s.active = .idle) (hm : s.mem.wf = true) (hc : s.renc.CountInv)
    (hb : s.renc.BufInv) (hs : s.status = statusOf s.outcome) : s.Inv where
  mem_wf := hm
  count_inv := hc
  buf_inv := hb
  work_inv := by simp only [State.WorkInv, ha]
  status_eq := hs
  busy := fun h => absurd ha h

/-- Taking an error leaves the invariant, whatever the unit's registers are (60_exceptions R218). -/
theorem inv_raise (kind : ErrorKind) {s : State} (hm : s.mem.wf = true) (hc : s.renc.CountInv)
    (hb : s.renc.BufInv) : (raise kind s).Inv :=
  inv_of_idle rfl (wf_raise kind s hm) (by rwa [raise_renc]) (by rwa [raise_renc]) rfl

theorem inv_finish (r : Result) {s : State} (hm : s.mem.wf = true) (hc : s.renc.CountInv)
    (hb : s.renc.BufInv) : (finish r s).Inv :=
  inv_of_idle rfl hm hc hb rfl

theorem inv_startCall {cfg : Config} {c : Call} {t : State} (h : startCall cfg c = .next t) : t.Inv := by
  rcases startCall_cases h with ⟨a, rfl, hw⟩ | ⟨kind, a, rfl, -⟩
  · exact inv_startState_setActive c hw
  · have hstart := inv_startState_setActive c (a := .idle) trivial
    exact inv_raise kind hstart.mem_wf hstart.count_inv hstart.buf_inv

/-- A step of `RENC` that leaves a run in the registers, stays in its row or goes to the next, and
appends to the body keeps the invariant (10_state R24, R26, R27). -/
theorem inv_renc {s : State} {r : Renc} {run : Run} (hs : s.Inv) (ha : s.active = .renc)
    (hr : RunHeld r run) (hW : r.W = s.renc.W) (hH : r.H = s.renc.H) (hi : r.i < r.W.toNat)
    (hrow : r.row ≤ r.H.toNat) (bytes : List Byte) :
    State.Inv { s with renc := r, mem := { s.mem with body := s.mem.body ++ bytes } } := by
  obtain ⟨h1, h2, hgrid, -, -⟩ := (workInv_renc ha).1 hs.work_inv
  exact
    { mem_wf := hs.mem_wf
      count_inv := (inv_of_runHeld hr).1
      buf_inv := (inv_of_runHeld hr).2
      work_inv := (workInv_renc (s := { s with renc := r, mem := _ }) ha).2
        ⟨hW ▸ h1, hH ▸ h2, by rw [hW, hH]; exact hgrid, hi, hrow⟩
      status_eq := hs.status_eq
      busy := hs.busy }

theorem inv_rencStep {cfg : Config} {s t : State} (hs : s.Inv) (ha : s.active = .renc)
    (h : stepWith cfg s = .next t) : t.Inv := by
  have hwork := (workInv_renc ha).1 hs.work_inv
  obtain ⟨run, hr⟩ := exists_runHeld hs.count_inv hs.buf_inv
  rcases renc_cases ha hwork with ⟨cur, nxt, hat⟩ | ⟨cur, hat⟩ | hdone
  · obtain ⟨mode, count, runbuf, hstep, hheld⟩ := step_refines_compare hat hr cfg
    obtain rfl := Host.Outcome.next.inj (h.symm.trans hstep)
    obtain ⟨-, hrow, hi, -⟩ := hat
    exact inv_renc hs ha hheld rfl rfl hi hrow.le _
  · obtain ⟨runbuf, hb, hstep⟩ := step_refines_close hat hr cfg
    obtain rfl := Host.Outcome.next.inj (h.symm.trans hstep)
    obtain ⟨-, hrow, -⟩ := hat
    have hheld : RunHeld (s.afterRow cur runbuf (encode (run.close cur))).renc .none := ⟨rfl, rfl, hb⟩
    exact inv_renc hs ha hheld rfl rfl hwork.1 hrow _
  · rw [stepWith_renc_done ha hdone] at h
    obtain rfl := Host.Outcome.next.inj h
    exact inv_finish _ hs.mem_wf hs.count_inv hs.buf_inv

theorem inv_rdecStep {s t : State} (hs : s.Inv) (ha : s.active = .rdec) (h : rdecStep s = .next t) :
    t.Inv := by
  obtain ⟨hblen, -, -, hgrid⟩ := (workInv_rdec ha).1 hs.work_inv
  rcases rdecStep_cases h with
    ⟨kind, r, rfl⟩ | ⟨r, ps, rfl, hb, -, hemitted, hle, hcursor⟩ | rfl
  · exact inv_raise kind hs.mem_wf hs.count_inv hs.buf_inv
  · exact
      { mem_wf := hs.mem_wf
        count_inv := hs.count_inv
        buf_inv := hs.buf_inv
        work_inv := (workInv_rdec (s := { s with rdec := r, mem := _ }) ha).2
          ⟨hb.trans hblen, hcursor, hle, by rw [hemitted, List.length_append, hgrid]⟩
        status_eq := hs.status_eq
        busy := hs.busy }
  · exact inv_finish _ hs.mem_wf hs.count_inv hs.buf_inv

/-- A step from the invariant leads to the invariant, whichever unit is at work. -/
theorem inv_stepWith {cfg : Config} {s t : State} (hs : s.Inv) (h : stepWith cfg s = .next t) :
    t.Inv := by
  rcases activity_cases cfg s.hdrLatch s.mem s.active with ha | ha | ha | ⟨o, ho⟩
  · cases hc : s.call with
    | none =>
      rw [stepWith_of_no_call ha hc] at h
      exact Host.Outcome.next.inj h ▸ hs
    | some c => exact inv_startCall ((stepWith_of_call ha hc cfg).symm.trans h)
  · exact inv_rencStep hs ha h
  · exact inv_rdecStep hs ha (by simpa only [stepWith, ha] using h)
  · rw [stepWith_of_oneStepWork rfl ho] at h
    rcases endWith_eq_next h with ⟨e, rfl, rfl⟩ | ⟨kind, rfl, rfl⟩
    · exact inv_finish _ (wf_of_oneStepWork ho hs.mem_wf) hs.count_inv hs.buf_inv
    · exact inv_raise kind hs.mem_wf hs.count_inv hs.buf_inv

/-- The host's move changes the call only, of an idle machine (60_exceptions R222). -/
theorem inv_present {c : Call} {s t : State} (hs : s.Inv) (h : s.present c = some t) : t.Inv := by
  obtain ⟨ha, -, rfl⟩ := present_eq_some.1 h
  exact inv_of_idle ha hs.mem_wf hs.count_inv hs.buf_inv hs.status_eq

/-- Settles O57: an operation ends on the registers it worked on, `RENC` and `RDEC` keep their part of the
invariant by what a step of theirs can do, and a start writes every register. -/
theorem everyStepKeepsTheInvariant : Obligations.EveryStepKeepsTheInvariant :=
  ⟨fun _ _ _ => inv_stepWith, fun _ _ _ => inv_present⟩

/-- Settles O56: no run is held and the header buffer has its size. -/
theorem resetMeetsTheInvariant : Obligations.ResetMeetsTheInvariant :=
  have hrun := inv_of_runHeld (r := State.reset.renc) (run := .none) ⟨rfl, rfl, resetRunbuf_length⟩
  inv_of_idle rfl Memory.wf_reset hrun.1 hrun.2 rfl

end Sys2Proof.Machine
end

section
/-! SUPPORT. What the run entries leave unchanged, and the end step of a row (42_rle_decode R176, R177;
41_rle_encode R150). -/

namespace Sys2Proof.Machine

/-! ### Run entries -/

/-- What an entry leaves unchanged, its errors included, while `RDEC` is at work (20_memory R83). -/
def EntryKeeps (s t : State) : Prop :=
  t.renc = s.renc ∧ t.hdrLatch = s.hdrLatch ∧ t.call = s.call ∧
    t.rdec.total = s.rdec.total ∧ t.rdec.blen = s.rdec.blen ∧ t.rdec.ctrl = s.rdec.ctrl ∧
    t.rdec.n = s.rdec.n ∧ t.rdec.W = s.rdec.W ∧ t.rdec.H = s.rdec.H ∧
    t.mem.hdr = s.mem.hdr ∧ t.mem.body = s.mem.body

theorem entryKeeps_raise {s : State} (ha : s.active = .rdec) (kind : ErrorKind) :
    EntryKeeps s (raise kind s) := by
  simp [EntryKeeps, raise_hdrLatch, raise_mem, ha]

theorem entryKeeps_entryEffect (i : Instr) (s : State) : EntryKeeps s (entryEffect i s) := by
  cases i with
  | lit ps => exact ⟨rfl, rfl, rfl, rfl, rfl, rfl, rfl, rfl, rfl, rfl, rfl⟩
  | rep n p => exact ⟨rfl, rfl, rfl, rfl, rfl, rfl, rfl, rfl, rfl, rfl, rfl⟩

theorem entryEffect_status_outcome (i : Instr) (s : State) :
    (entryEffect i s).status = s.status ∧ (entryEffect i s).outcome = s.outcome := by
  cases i with
  | lit ps => exact ⟨rfl, rfl⟩
  | rep n p => exact ⟨rfl, rfl⟩

/-- What the next state of an entry is: an error's, or its effect (42_rle_decode R175 to R178). -/
theorem exec_eq_next {i : Instr} {s t : State} (h : exec i s = .next t) :
    (∃ kind, t = raise kind s) ∨ t = entryEffect i s := by
  rcases exec_cases i s with ⟨-, hx⟩ | ⟨-, -, hx⟩ | ⟨-, -, hx⟩
  · exact .inl ⟨_, Host.Outcome.next.inj (h.symm.trans hx)⟩
  · exact .inl ⟨_, Host.Outcome.next.inj (h.symm.trans hx)⟩
  · exact .inr (Host.Outcome.next.inj (h.symm.trans hx))

/-- Settles O11: an error of an entry writes `GRID`, `STATUS` and the outcome only, and its effect appends
to `GRID` and moves two registers. -/
theorem entryFrame : Obligations.EntryFrame := by
  unfold Obligations.EntryFrame
  intro i s t ha h
  have hkeeps : EntryKeeps s t := by
    rcases exec_eq_next h with ⟨kind, rfl⟩ | rfl
    · exact entryKeeps_raise ha kind
    · exact entryKeeps_entryEffect i s
  obtain ⟨hrenc, hlatch, hcall, htotal, hblen, hctrl, hn, hW, hH, hhdr, hbody⟩ := hkeeps
  refine ⟨hrenc, hlatch, hcall, htotal, hblen, hctrl, hn, hW, hH, ?_, by simp [hhdr], by simp [hbody],
    ?_⟩
  · rintro ps rfl
    rcases exec_eq_next h with ⟨kind, rfl⟩ | rfl
    · rw [raise_rdec]
    · rfl
  · intro hactive
    rcases exec_eq_next h with ⟨kind, rfl⟩ | rfl
    · rw [raise_active] at hactive
      cases hactive
    · obtain ⟨hstatus, houtcome⟩ := entryEffect_status_outcome i s
      obtain ⟨-, -, hgrid, -⟩ := entryEffect_frame i s
      refine ⟨hstatus, houtcome, fun k p hk => ?_⟩
      rw [hgrid, List.getElem?_append_left (List.getElem?_eq_some_iff.1 hk).1, hk]

/-! ### The end step -/

theorem nextRow_endFlush_rep {s : State} {k : Nat} (hr : RunHeld s.renc (.rep k)) :
    nextRow (endFlush s) =
      s.afterRow s.renc.cur s.renc.runbuf (encode (.rep (k + 1) s.renc.cur)) := by
  obtain ⟨hm, hc, -⟩ := hr
  rw [endFlush_rep hm, hc]
  rfl

theorem nextRow_endFlush_lit {s : State} {ps : List Pixel} (hr : RunHeld s.renc (.lit ps)) :
    nextRow (endFlush s) =
      s.afterRow s.renc.cur (s.renc.runbuf.set s.renc.count.toNat s.renc.cur)
        (encode (.lit (ps ++ [s.renc.cur]))) := by
  obtain ⟨hm, hc, -, hle, hb, ht⟩ := hr
  have htake := take_set_self (buf := s.renc.runbuf) (n := ps.length) (by omega) s.renc.cur
  rw [endFlush_lit hm, flushLit, bufferPixel_renc, hc, htake, ht, bufferPixel, hc]
  rfl

theorem nextRow_endFlush_none {s : State} (hr : RunHeld s.renc .none) :
    nextRow (endFlush s) =
      s.afterRow s.renc.cur (s.renc.runbuf.set 0 s.renc.cur) (encode (.lit [s.renc.cur])) := by
  obtain ⟨hm, -, hb⟩ := hr
  have htake := take_set_self (buf := s.renc.runbuf) (n := 0) (by omega) s.renc.cur
  rw [endFlush_none hm, flushLit, State.setRenc_renc, htake]
  rfl

/-- Settles O23: the end step loads `cur`, and in each mode its flush emits the one entry that holds it. -/
theorem endStepPlacesTheFinalPixel : Obligations.EndStepPlacesTheFinalPixel := by
  unfold Obligations.EndStepPlacesTheFinalPixel
  intro s cur hat
  rw [step, step_of_endsRowAt hat]
  have hload {run : Run} (hr : RunHeld s.renc run) :
      RunHeld (s.setRenc { s.renc with cur := cur }).renc run := runHeld_congr rfl rfl rfl hr
  refine ⟨fun k hr => ?_, fun ps hr => ?_, fun hr => ?_⟩
  · rw [nextRow_endFlush_rep (hload hr)]
    rfl
  · have hcontrol : litControl (ps ++ [cur]).length = BitVec.ofNat 8 ps.length := by simp [litControl]
    rw [nextRow_endFlush_lit (hload hr), encode, State.setRenc_renc, hcontrol]
    rfl
  · rw [nextRow_endFlush_none (hload hr)]
    rfl

end Sys2Proof.Machine
end

section
/-! SUPPORT. `HDES` on its input and in the machine (40_header R127 to R133). -/

namespace Sys2Proof.Machine

/-- `HDES` reads the first 24 bytes of its input and its length (30_encoding R94, 40_header R129). -/
theorem hdesOn_take_24 (cfg : Config) (length : Nat) {buf : List Byte} (h : 24 ≤ buf.length) :
    hdesOn cfg length (buf.take 24) = hdesOn cfg length buf := by
  have hword {addr : Nat} (ha : addr + 4 ≤ 24) : readWord32 (buf.take 24) addr = readWord32 buf addr := by
    rw [readWord32, memRead_take ha h, readWord32]
  have hfields : extractFields (buf.take 24) = extractFields buf := by
    rw [extractFields, hword (by decide), hword (by decide), hword (by decide), hword (by decide),
      extractFields]
  rw [hdesOn, hdesOn, memRead_take (by decide) h, hfields]

/-- Of the length `HDES` uses only that the header's 512 bytes are there (40_header R128). -/
theorem hdesOn_length (cfg : Config) {length length' : Nat} (h : 512 ≤ length) (h' : 512 ≤ length')
    (hdr : List Byte) : hdesOn cfg length hdr = hdesOn cfg length' hdr := by
  rw [hdesOn, hdesOn, if_neg (Nat.not_lt.2 h), if_neg (Nat.not_lt.2 h')]

theorem hdesOn_short (cfg : Config) {length : Nat} (h : length < 512) (hdr : List Byte) :
    hdesOn cfg length hdr = .err .headerFormatError := if_pos h

/-- Settles O39: `HDES` is a function of the first 24 bytes once 512 are there. -/
theorem hdesIgnoresReservedAndLaterBytes : Obligations.HdesIgnoresReservedAndLaterBytes := by
  unfold Obligations.HdesIgnoresReservedAndLaterBytes
  intro cfg buf buf' h h' heq
  calc hdes cfg buf
      = hdesOn cfg buf.length (buf.take 24) := (hdesOn_take_24 cfg _ (by omega)).symm
    _ = hdesOn cfg buf'.length (buf'.take 24) := by rw [heq, hdesOn_length cfg h h']
    _ = hdes cfg buf' := hdesOn_take_24 cfg _ (by omega)

theorem stepWith_hdes {s : State} {length : Nat} (ha : s.active = .hdes length) (cfg : Config) :
    stepWith cfg s = endWith (hdesOn cfg length s.mem.hdr) finishHdes s := by
  simp only [stepWith, ha, hdesStep]

/-- An error of `HDES` voids its latches, and `HDR` stays (10_state R42, 60_exceptions R218). -/
theorem raise_mem_of_hdes {s : State} {length : Nat} (ha : s.active = .hdes length) (kind : ErrorKind) :
    (raise kind s).mem = s.mem := by rw [raise_mem, voidOutput, ha]

/-- Settles O60: the start fills `HDR`, and `HDES` at work ends with the outcome of its checks on `HDR`,
which are those of an input of 512 bytes. -/
theorem hdesReadsTheHeaderBuffer : Obligations.HdesReadsTheHeaderBuffer := by
  unfold Obligations.HdesReadsTheHeaderBuffer
  intro cfg s
  constructor
  · intro buf ha hc hlen
    exact ⟨_, stepWith_of_call ha hc cfg, rfl, hdr_hdrDec hlen⟩
  · intro length ha hm
    rw [Memory.wf_iff] at hm
    rw [stepWith_hdes ha]
    refine ⟨fun t ht => ?_, fun hshort => ?_, fun hlen => ?_⟩
    · rcases endWith_eq_next ht with ⟨f, -, rfl⟩ | ⟨kind, -, rfl⟩
      · rfl
      · exact raise_mem_of_hdes ha kind
    · rw [hdesOn_short cfg hshort]
      rfl
    · rw [hdesOn_eq_hdes cfg hlen hm]
      constructor
      · intro kind hk
        rw [hk]
        rfl
      · intro f hf
        rw [hf]
        exact ⟨_, rfl, ⟨rfl, rfl, rfl⟩, rfl, rfl, rfl, rfl⟩

end Sys2Proof.Machine
end

section
/-! SUPPORT. The start of an operation, and what taking an error leaves (10_state R20, R48;
60_exceptions R218). -/

namespace Sys2Proof.Machine

/-! ### The start of an operation -/

/-- Settles O51: the first step after the host's move is a function of the call alone. -/
theorem noStateSurvivesACall : Obligations.NoStateSurvivesACall := by
  unfold Obligations.NoStateSurvivesACall
  intro cfg c s s' t t' k h h'
  rw [runWith, runWith, stepWith_of_present h, stepWith_of_present h']

/-- Settles O53: legal dimensions put the unit to work on the registers `startState` gives. -/
theorem operationStartsFromTheResetTable : Obligations.OperationStartsFromTheResetTable := by
  unfold Obligations.OperationStartsFromTheResetTable
  intro cfg s W H ha hdims
  constructor
  · intro grid hgrid hc
    have hstep : stepWith cfg s = .next ((startState (.bodyEnc grid W H true)).setActive .renc) := by
      rw [stepWith_of_call ha hc, startCall, if_pos rfl, beginRenc, hdims]
      exact if_pos hgrid
    exact ⟨_, hstep, rfl, rfl, rfl, rfl, rfl, rfl, rfl, rfl, rfl, rfl, rfl, rfl, rfl, rfl⟩
  · intro body hc
    have hstep : stepWith cfg s = .next ((startState (.bodyDec body W H 1)).setActive .rdec) := by
      rw [stepWith_of_call ha hc, startCall, beginBodyDec, if_pos rfl, beginRdec, hdims]
    exact ⟨_, hstep, rfl, rfl, rfl, rfl, rfl, rfl, rfl, rfl, rfl, rfl, rfl, rfl, rfl, rfl⟩

/-! ### Taking an error -/

/-- An error voids the output of the unit at work (60_exceptions R218). -/
theorem outputVoid_raise (kind : ErrorKind) (s : State) : (raise kind s).outputVoid s.active := by
  unfold raise voidOutput State.outputVoid
  cases s.active <;> trivial

/-- No output stream holds anything after an error at a start (60_exceptions R218). -/
theorem output_raise_of_raisesIn {c : Call} {a : Activity} (h : c.RaisesIn a) (kind : ErrorKind) :
    (∀ grid W H rle, c = .bodyEnc grid W H rle →
      (raise kind ((startState c).setActive a)).mem.body = []) ∧
    ∀ body W H k, c = .bodyDec body W H k →
      (raise kind ((startState c).setActive a)).mem.grid = [] := by
  rcases h with ⟨⟨grid, W, H, rfl⟩, rfl⟩ | ⟨⟨body, W, H, k, rfl⟩, rfl | rfl⟩
  · exact ⟨fun _ _ _ _ _ => rfl, fun _ _ _ _ h => (by cases h)⟩
  · exact ⟨fun _ _ _ _ h => (by cases h), fun _ _ _ _ _ => rfl⟩
  · exact ⟨fun _ _ _ _ h => (by cases h), fun _ _ _ _ _ => rfl⟩

/-- A step of a unit at work takes an error, goes on, or ends the operation with a result. -/
theorem stepWith_busy_cases {cfg : Config} {s t : State} (ha : s.active ≠ .idle)
    (h : stepWith cfg s = .next t) :
    (∃ kind u, t = raise kind u ∧ u.active = s.active) ∨ t.outcome = s.outcome ∨
      ∃ r, t.outcome = some (.ok r) := by
  rcases activity_cases cfg s.hdrLatch s.mem s.active with hidle | hrenc | hrdec | ⟨o, ho⟩
  · exact absurd hidle ha
  · rcases rencStep_cases (s := s) (by simpa only [stepWith, hrenc] using h) with
      ⟨-, -, -, -, houtcome, -⟩ | rfl
    · exact .inr (.inl houtcome)
    · exact .inr (.inr ⟨_, rfl⟩)
  · rcases rdecStep_cases (s := s) (by simpa only [stepWith, hrdec] using h) with
      ⟨kind, r, rfl⟩ | ⟨r, ps, rfl, -⟩ | rfl
    · exact .inl ⟨kind, _, rfl, rfl⟩
    · exact .inr (.inl rfl)
    · exact .inr (.inr ⟨_, rfl⟩)
  · rw [stepWith_of_oneStepWork rfl ho] at h
    rcases endWith_eq_next h with ⟨e, -, rfl⟩ | ⟨kind, -, rfl⟩
    · exact .inr (.inr ⟨_, rfl⟩)
    · exact .inl ⟨kind, s, rfl, rfl⟩

theorem kind_eq_of_raise_outcome {kind kind' : ErrorKind} {s : State}
    (h : (raise kind' s).outcome = some (.err kind)) : kind' = kind := by
  rw [raise_outcome] at h
  exact OpOutcome.err.inj (Option.some.inj h)

/-- Settles O50: in the step of a start or of a unit at work that leaves an error the error was taken, and
taking it voids the output. -/
theorem errorEntryVoidsTheOutput : Obligations.ErrorEntryVoidsTheOutput := by
  unfold Obligations.ErrorEntryVoidsTheOutput
  intro cfg s t kind hcall hbusy h ht
  by_cases ha : s.active = .idle
  · obtain ⟨c, hc⟩ := Option.ne_none_iff_exists'.1 (hcall ha)
    rw [stepWith_of_call ha hc] at h
    rcases startCall_cases h with ⟨a, rfl, -⟩ | ⟨kind', a, rfl, hin⟩
    · cases ht
    · obtain rfl := kind_eq_of_raise_outcome ht
      obtain ⟨henc, hdec⟩ := output_raise_of_raisesIn hin kind'
      refine ⟨rfl, rfl, by rw [ha]; trivial, fun grid W H rle _ hc' => ?_, fun body W H k _ hc' => ?_⟩
      · exact henc grid W H rle (Option.some.inj (hc.symm.trans hc'))
      · exact hdec body W H k (Option.some.inj (hc.symm.trans hc'))
  · rcases stepWith_busy_cases ha h with ⟨kind', u, rfl, hu⟩ | hgoes | ⟨r, hends⟩
    · obtain rfl := kind_eq_of_raise_outcome ht
      exact ⟨rfl, rfl, hu ▸ outputVoid_raise kind' u, fun _ _ _ _ hi => absurd hi ha,
        fun _ _ _ _ hi => absurd hi ha⟩
    · cases ht.symm.trans (hgoes.trans (hbusy ha))
    · cases ht.symm.trans hends

end Sys2Proof.Machine
end

section
/-! SUPPORT. From the invariant no step faults, and none reads a register that holds no specified value
(10_state R27, R48, R49; 20_memory R66). -/

namespace Sys2Proof.Machine

/-! ### What a step can answer -/

theorem exec_next (i : Instr) (s : State) : ∃ t, exec i s = .next t := by
  rcases exec_cases i s with ⟨-, hx⟩ | ⟨-, -, hx⟩ | ⟨-, -, hx⟩ <;> exact ⟨_, hx⟩

theorem rdecStep_next (s : State) : ∃ t, rdecStep s = .next t := by
  unfold rdecStep entryStep
  split
  · split
    · exact exec_next _ _
    · exact ⟨_, rfl⟩
    · exact ⟨_, rfl⟩
  · exact ⟨_, rfl⟩

/-- The start of a call answers a next state, but for a grid of the wrong size (41_rle_encode R142). -/
theorem startCall_answers (cfg : Config) (c : Call) :
    (∃ t, startCall cfg c = .next t) ∨
      startCall cfg c = .refused .gridSize ∧ ∃ grid W H, c = .bodyEnc grid W H true := by
  cases c with
  | hdrEnc width height kind bodyLength => exact .inl ⟨_, rfl⟩
  | hdrDec buf => exact .inl ⟨_, rfl⟩
  | bodyDec body W H kind => exact .inl ⟨_, rfl⟩
  | pixConv r16 g16 b16 a16 => exact .inl ⟨_, rfl⟩
  | bodyEnc grid W H rleEnable =>
    cases rleEnable with
    | false => exact .inl ⟨_, rfl⟩
    | true =>
      simp only [startCall, if_true, beginRenc]
      split
      · exact .inl ⟨_, rfl⟩
      · split
        · exact .inl ⟨_, rfl⟩
        · exact .inr ⟨rfl, grid, W, H, rfl⟩

theorem hserBlockCount_refused {cfg : Config} {l : HeaderLatches} {r : Refusal}
    (h : hserBlockCount cfg l = .refused r) : r = .blockCount := by
  unfold hserBlockCount at h
  split at h
  · cases h
  · split at h <;> cases h
    rfl

theorem hdesOn_ne_refused (cfg : Config) (length : Nat) (hdr : List Byte) (r : Refusal) :
    hdesOn cfg length hdr ≠ .refused r := by
  unfold hdesOn
  split
  · nofun
  · split
    · nofun
    · split
      · nofun
      · split <;> nofun

theorem encodeRaw_refused {cfg : Config} {grid : List Pixel} {W H : Word32} {r : Refusal}
    (h : encodeRaw cfg grid W H = .refused r) : r = .gridSize := by
  unfold encodeRaw at h
  split at h
  · cases h
  · split at h <;> cases h
    rfl

theorem decodeRaw_ne_refused (cfg : Config) (body : List Byte) (W H : Word32) (r : Refusal) :
    decodeRaw cfg body W H ≠ .refused r := by
  unfold decodeRaw
  split
  · nofun
  · split
    · nofun
    · split <;> nofun

theorem OpResult.andThen_ok_eq_refused {α β : Type} {o : OpResult α} {k : α → β} {r : Refusal}
    (h : (o.andThen fun v => .ok (k v)) = .refused r) : o = .refused r := by
  cases o with
  | ok v => cases h
  | err kind => cases h
  | refused r' => exact congrArg _ (OpResult.refused.inj h)

/-- The refusals of the units that do their work in one step (40_header R124, 43_raw_pixconv R190). -/
theorem oneStepWork_refused {cfg : Config} {l : HeaderLatches} {m : Memory} {a : Activity} {r : Refusal}
    (h : oneStepWork cfg l m a = some (.refused r)) :
    (r = .gridSize ∧ ∃ W H, a = .rawEnc W H) ∨ r = .blockCount ∧ a = .hser := by
  cases a with
  | idle => cases h
  | renc => cases h
  | rdec => cases h
  | hser => exact .inr ⟨hserBlockCount_refused (OpResult.andThen_ok_eq_refused (Option.some.inj h)), rfl⟩
  | hdes length =>
    exact absurd (OpResult.andThen_ok_eq_refused (Option.some.inj h)) (hdesOn_ne_refused _ _ _ _)
  | rawEnc W H =>
    exact .inl ⟨encodeRaw_refused (OpResult.andThen_ok_eq_refused (Option.some.inj h)), W, H, rfl⟩
  | rawDec W H =>
    exact absurd (OpResult.andThen_ok_eq_refused (Option.some.inj h)) (decodeRaw_ne_refused _ _ _ _ _)
  | pixConv r16 g16 b16 a16 => cases Option.some.inj h

/-- Where a refusal arises (60_exceptions R216, R220). -/
def State.RefusesWith (s : State) (r : Refusal) : Prop :=
  r = .gridSize ∧
      (s.active = .idle ∧ (∃ grid W H, s.call = some (.bodyEnc grid W H true)) ∨
        ∃ W H, s.active = .rawEnc W H) ∨
    r = .blockCount ∧ s.active = .hser

/-- A step from the invariant answers a next state or one of the refusals; it does not fault
(20_memory R66). -/
theorem stepWith_answers (cfg : Config) {s : State} (hs : s.Inv) :
    (∃ t, stepWith cfg s = .next t) ∨ ∃ r, stepWith cfg s = .refused r ∧ s.RefusesWith r := by
  rcases activity_cases cfg s.hdrLatch s.mem s.active with ha | ha | ha | ⟨o, ho⟩
  · cases hc : s.call with
    | none => exact .inl ⟨_, stepWith_of_no_call ha hc cfg⟩
    | some c =>
      rw [stepWith_of_call ha hc]
      rcases startCall_answers cfg c with hnext | ⟨hrefused, grid, W, H, rfl⟩
      · exact .inl hnext
      · exact .inr ⟨_, hrefused, .inl ⟨rfl, .inl ⟨ha, grid, W, H, hc⟩⟩⟩
  · refine .inl ?_
    rcases renc_cases ha ((workInv_renc ha).1 hs.work_inv) with ⟨cur, nxt, hat⟩ | ⟨cur, hat⟩ | hdone
    · exact ⟨_, step_of_comparesAt hat cfg⟩
    · exact ⟨_, step_of_endsRowAt hat cfg⟩
    · exact ⟨_, stepWith_renc_done ha hdone cfg⟩
  · simp only [stepWith, ha]
    exact .inl (rdecStep_next s)
  · rw [stepWith_of_oneStepWork rfl ho]
    cases o with
    | ok e => exact .inl ⟨_, rfl⟩
    | err kind => exact .inl ⟨_, rfl⟩
    | refused r =>
      refine .inr ⟨r, rfl, ?_⟩
      rcases oneStepWork_refused ho with ⟨hr, W, H, ha⟩ | ⟨hr, ha⟩
      · exact .inl ⟨hr, .inr ⟨W, H, ha⟩⟩
      · exact .inr ⟨hr, ha⟩

/-! ### States that differ in registers with no specified value -/

/-- The state with other values in the registers for which no value may be specified (10_state R48). -/
def State.withUnspecified (s : State) (cur nxt : Pixel) (runbuf : List Pixel) (ctrl n : Byte)
    (pix : Pixel) : State :=
  { s with
    renc := { s.renc with cur := cur, nxt := nxt, runbuf := runbuf }
    rdec := { s.rdec with ctrl := ctrl, n := n, pix := pix } }

namespace SameButUnspecified

theorem refl (s : State) : SameButUnspecified s s := ⟨rfl, rfl, fun _ => rfl⟩

theorem exists_eq {s s' : State} (h : SameButUnspecified s s') :
    ∃ cur nxt runbuf ctrl n pix, s' = s.withUnspecified cur nxt runbuf ctrl n pix ∧
      runbuf.length = s.renc.runbuf.length ∧
      (s.renc.mode = .lit →
        runbuf.take s.renc.count.toNat = s.renc.runbuf.take s.renc.count.toNat) :=
  ⟨_, _, _, _, _, _, h.rest, h.bufferLength, h.run⟩

theorem call {s s' : State} (h : SameButUnspecified s s') : s'.call = s.call := by
  rw [h.rest]

theorem active {s s' : State} (h : SameButUnspecified s s') : s'.active = s.active := by
  rw [h.rest]

theorem hdrLatch {s s' : State} (h : SameButUnspecified s s') : s'.hdrLatch = s.hdrLatch := by
  rw [h.rest]

theorem mem {s s' : State} (h : SameButUnspecified s s') : s'.mem = s.mem := by rw [h.rest]

theorem finish {s s' : State} (h : SameButUnspecified s s') (r : Result) :
    SameButUnspecified (finish r s) (finish r s') := by
  obtain ⟨cur, nxt, runbuf, ctrl, n, pix, rfl, hlen, hrun⟩ := h.exists_eq
  exact ⟨rfl, hlen, hrun⟩

theorem apply {s s' : State} (h : SameButUnspecified s s') (e : UnitEnd) :
    SameButUnspecified (e.apply s) (e.apply s') := by
  obtain ⟨cur, nxt, runbuf, ctrl, n, pix, rfl, hlen, hrun⟩ := h.exists_eq
  exact ⟨rfl, hlen, hrun⟩

theorem raise {s s' : State} (h : SameButUnspecified s s') (kind : ErrorKind) :
    SameButUnspecified (raise kind s) (raise kind s') := by
  obtain ⟨cur, nxt, runbuf, ctrl, n, pix, rfl, hlen, hrun⟩ := h.exists_eq
  obtain ⟨c, a, renc, rdec, latch, m, status, outcome⟩ := s
  cases a <;> exact ⟨rfl, hlen, hrun⟩

/-- The fetch writes `ctrl` and `n` and reads neither (42_rle_decode R173, R174). -/
theorem latchControl {s s' : State} (h : SameButUnspecified s s') :
    SameButUnspecified (latchControl s) (latchControl s') := by
  obtain ⟨cur, nxt, runbuf, ctrl, n, pix, rfl, hlen, hrun⟩ := h.exists_eq
  have hunread : (s.withUnspecified cur nxt runbuf ctrl n pix).unread = s.unread := rfl
  unfold Machine.latchControl
  rw [hunread]
  split
  · exact ⟨rfl, hlen, hrun⟩
  · exact h

/-- The effect of an entry reads the instruction and not `ctrl`, `n` or `pix` (42_rle_decode R176, R177). -/
theorem entryEffect {s s' : State} (h : SameButUnspecified s s') (i : Instr) :
    SameButUnspecified (entryEffect i s) (entryEffect i s') := by
  obtain ⟨cur, nxt, runbuf, ctrl, n, pix, rfl, hlen, hrun⟩ := h.exists_eq
  cases i with
  | lit ps => exact ⟨rfl, hlen, hrun⟩
  | rep k p => exact ⟨rfl, hlen, hrun⟩

/-- The run held in the registers of `RENC` is not in a part with no specified value
(10_state R24, R27). -/
theorem runHeld {s s' : State} {run : Run} (h : SameButUnspecified s s') (hr : RunHeld s.renc run) :
    RunHeld s'.renc run := by
  obtain ⟨cur, nxt, runbuf, ctrl, n, pix, rfl, hlen, hrun⟩ := h.exists_eq
  cases run with
  | none =>
    obtain ⟨hm, hc, hb⟩ := hr
    exact ⟨hm, hc, hlen.trans hb⟩
  | rep k =>
    obtain ⟨hm, hc, hk, hk', hb⟩ := hr
    exact ⟨hm, hc, hk, hk', hlen.trans hb⟩
  | lit ps =>
    obtain ⟨hm, hc, hp, hp', hb, ht⟩ := hr
    exact ⟨hm, hc, hp, hp', hlen.trans hb, by rw [← hc] at ht ⊢; exact (hrun hm).trans ht⟩

end SameButUnspecified

/-- The run held decides `mode`, `count` and the entries of `runbuf` that count (10_state R23, R24). -/
theorem eq_of_runHeld {r r' : Renc} {run : Run} (h : RunHeld r run) (h' : RunHeld r' run) :
    r'.mode = r.mode ∧ r'.count = r.count ∧ r'.runbuf.length = r.runbuf.length ∧
      (r.mode = .lit → r'.runbuf.take r.count.toNat = r.runbuf.take r.count.toNat) := by
  cases run with
  | none =>
    obtain ⟨hm, hc, hb⟩ := h
    obtain ⟨hm', hc', hb'⟩ := h'
    exact ⟨hm'.trans hm.symm, hc'.trans hc.symm, hb'.trans hb.symm, by simp [hm]⟩
  | rep k =>
    obtain ⟨hm, hc, -, -, hb⟩ := h
    obtain ⟨hm', hc', -, -, hb'⟩ := h'
    exact ⟨hm'.trans hm.symm, BitVec.eq_of_toNat_eq (hc'.trans hc.symm), hb'.trans hb.symm, by simp [hm]⟩
  | lit ps =>
    obtain ⟨hm, hc, -, -, hb, ht⟩ := h
    obtain ⟨hm', hc', -, -, hb', ht'⟩ := h'
    exact ⟨hm'.trans hm.symm, BitVec.eq_of_toNat_eq (hc'.trans hc.symm), hb'.trans hb.symm,
      fun _ => by rw [hc, ht, ht']⟩

/-! ### Steps of such states -/

/-- Two steps answer alike, but for the registers with no specified value. -/
inductive SameOutcome : StepOutcome → StepOutcome → Prop
  | next {t t' : State} (h : SameButUnspecified t t') : SameOutcome (.next t) (.next t')
  | fault (f : Fault) : SameOutcome (.fault f) (.fault f)
  | refused (r : Refusal) : SameOutcome (.refused r) (.refused r)

theorem SameOutcome.refl (o : StepOutcome) : SameOutcome o o := by
  cases o with
  | next t => exact .next (.refl t)
  | fault f => exact .fault f
  | refused r => exact .refused r

theorem SameOutcome.of_next {o : StepOutcome} {t : State} (h : SameOutcome (.next t) o) :
    ∃ t', o = .next t' ∧ SameButUnspecified t t' := by
  cases h with
  | next h => exact ⟨_, rfl, h⟩

theorem SameOutcome.of_refused {o : StepOutcome} {r : Refusal} (h : SameOutcome (.refused r) o) :
    o = .refused r := by
  cases h
  rfl

theorem sameOutcome_endWith {s s' : State} (h : SameButUnspecified s s') (o : OpResult UnitEnd) :
    SameOutcome (endWith o UnitEnd.apply s) (endWith o UnitEnd.apply s') := by
  cases o with
  | ok e => exact .next (h.apply e)
  | err kind => exact .next (h.raise kind)
  | refused r => exact .refused r

/-- The checks of an entry read no register without a specified value (42_rle_decode R175, R178). -/
theorem sameOutcome_checkedEntry {s s' e e' : State} (h : SameButUnspecified s s')
    (he : SameButUnspecified e e') (n need : Nat) :
    SameOutcome (checkedEntry n need s e) (checkedEntry n need s' e') := by
  have hcut : payloadCut need s'.rdec = payloadCut need s.rdec := by rw [h.rest]; rfl
  have hover : overshoots n s'.rdec = overshoots n s.rdec := by rw [h.rest]; rfl
  unfold checkedEntry
  rw [hcut, hover]
  split
  · exact .next (h.raise _)
  · split
    · exact .next (h.raise _)
    · exact .next he

theorem sameOutcome_exec {s s' : State} (h : SameButUnspecified s s') (i : Instr) :
    SameOutcome (exec i s) (exec i s') := by
  cases i with
  | lit ps => exact sameOutcome_checkedEntry h (h.entryEffect (.lit ps)) _ _
  | rep n p => exact sameOutcome_checkedEntry h (h.entryEffect (.rep n p)) _ _

theorem sameOutcome_entryStep {s s' : State} (h : SameButUnspecified s s') :
    SameOutcome (entryStep s) (entryStep s') := by
  have hunread : s'.unread = s.unread := by rw [h.rest]; rfl
  unfold entryStep
  rw [hunread]
  split
  · exact sameOutcome_exec h.latchControl _
  · exact .next (h.raise _)
  · exact .next (h.latchControl.raise _)

theorem sameOutcome_rdecStep {s s' : State} (h : SameButUnspecified s s') :
    SameOutcome (rdecStep s) (rdecStep s') := by
  have hmore : morePixels s'.rdec = morePixels s.rdec := by rw [h.rest]; rfl
  unfold rdecStep
  rw [hmore, h.mem]
  split
  · exact sameOutcome_entryStep h
  · exact .next (h.finish _)

/-- A step of `RENC` loads `cur` and `nxt` and goes by the run held (41_rle_encode R144 to R150). -/
theorem sameOutcome_renc (cfg : Config) {s s' : State} (hs : s.Inv) (ha : s.active = .renc)
    (h : SameButUnspecified s s') : SameOutcome (stepWith cfg s) (stepWith cfg s') := by
  obtain ⟨run, hr⟩ := exists_runHeld hs.count_inv hs.buf_inv
  have hr' := h.runHeld hr
  obtain ⟨cur₀, nxt₀, runbuf₀, ctrl, n, pix, rfl, -⟩ := h.exists_eq
  rcases renc_cases ha ((workInv_renc ha).1 hs.work_inv) with ⟨cur, nxt, hat⟩ | ⟨cur, hat⟩ | hdone
  · obtain ⟨mode, count, runbuf, hstep, hheld⟩ := step_refines_compare hat hr cfg
    have hat' : (s.withUnspecified cur₀ nxt₀ runbuf₀ ctrl n pix).ComparesAt cur nxt := hat
    obtain ⟨mode', count', runbuf', hstep', hheld'⟩ := step_refines_compare hat' hr' cfg
    rw [hstep, hstep']
    obtain ⟨hmode, hcount, hlen, hrun⟩ := eq_of_runHeld hheld hheld'
    obtain rfl : mode' = mode := hmode
    obtain rfl : count' = count := hcount
    exact .next ⟨rfl, hlen, hrun⟩
  · obtain ⟨runbuf, hb, hstep⟩ := step_refines_close hat hr cfg
    have hat' : (s.withUnspecified cur₀ nxt₀ runbuf₀ ctrl n pix).EndsRowAt cur := hat
    obtain ⟨runbuf', hb', hstep'⟩ := step_refines_close hat' hr' cfg
    rw [hstep, hstep']
    exact .next ⟨rfl, hb'.trans hb.symm, nofun⟩
  · have hdone' : (s.withUnspecified cur₀ nxt₀ runbuf₀ ctrl n pix).renc.H.toNat ≤
        (s.withUnspecified cur₀ nxt₀ runbuf₀ ctrl n pix).renc.row := hdone
    rw [stepWith_renc_done ha hdone, stepWith_renc_done (h.active.trans ha) hdone', h.mem]
    exact .next (h.finish _)

/-- No step from the invariant reads a register with no specified value (10_state R49). -/
theorem sameOutcome_stepWith (cfg : Config) {s s' : State} (hs : s.Inv) (h : SameButUnspecified s s') :
    SameOutcome (stepWith cfg s) (stepWith cfg s') := by
  rcases activity_cases cfg s.hdrLatch s.mem s.active with ha | ha | ha | ⟨o, ho⟩
  · have ha' := h.active.trans ha
    cases hc : s.call with
    | none =>
      rw [stepWith_of_no_call ha hc, stepWith_of_no_call ha' (h.call.trans hc)]
      exact .next h
    | some c =>
      rw [stepWith_of_call ha hc, stepWith_of_call ha' (h.call.trans hc)]
      exact .refl _
  · exact sameOutcome_renc cfg hs ha h
  · simp only [stepWith, ha, h.active.trans ha]
    exact sameOutcome_rdecStep h
  · have ho' : oneStepWork cfg s'.hdrLatch s'.mem s.active = some o := by rw [h.hdrLatch, h.mem, ho]
    rw [stepWith_of_oneStepWork rfl ho, stepWith_of_oneStepWork h.active ho']
    exact sameOutcome_endWith h o

/-- Settles O58: what a step from the invariant can answer, and that it answers alike from any values of the
registers with no specified value. -/
theorem noStepFaultsOrReadsUnspecified : Obligations.NoStepFaultsOrReadsUnspecified := by
  unfold Obligations.NoStepFaultsOrReadsUnspecified
  intro cfg s hs
  refine ⟨fun f hf => ?_, fun s' t h ht => ?_, fun r hr => ⟨fun s' h => ?_, ?_⟩⟩
  · rcases stepWith_answers cfg hs with ⟨t, ht⟩ | ⟨r, hr, -⟩
    · cases hf.symm.trans ht
    · cases hf.symm.trans hr
  · exact (ht ▸ sameOutcome_stepWith cfg hs h).of_next
  · exact (hr ▸ sameOutcome_stepWith cfg hs h).of_refused
  · rcases stepWith_answers cfg hs with ⟨t, ht⟩ | ⟨r', hr', hrefuses⟩
    · cases hr.symm.trans ht
    · cases hr.symm.trans hr'
      exact hrefuses

end Sys2Proof.Machine
end

section
/-! SUPPORT. Little-endian words: each byte as a digit of the value, and the two inverses
(30_encoding R92, 20_memory R60). -/

namespace Sys2Proof.Machine

theorem extractLsb'_toNat_eq_div (v : Word32) (start : Nat) :
    (v.extractLsb' start 8).toNat = v.toNat / 2 ^ start % 256 := by
  rw [BitVec.extractLsb'_toNat, Nat.shiftRight_eq_div_pow]

/-- Four bytes fit 32 bits, so `un_le32` never wraps (00_scope section 5). -/
theorem unLe32_toNat (x0 x1 x2 x3 : Byte) :
    (unLe32 x0 x1 x2 x3).toNat =
      x0.toNat + 256 * x1.toNat + 65536 * x2.toNat + 16777216 * x3.toNat := by
  rw [unLe32, BitVec.toNat_ofNat, Nat.mod_eq_of_lt]
  omega

/-- The four bytes of `le32(v)` are the base-256 digits of `v`, so `un_le32` of them is `v`. -/
theorem unLe32_extractLsb' (v : Word32) :
    unLe32 (v.extractLsb' 0 8) (v.extractLsb' 8 8) (v.extractLsb' 16 8) (v.extractLsb' 24 8) = v := by
  apply BitVec.eq_of_toNat_eq
  simp only [unLe32_toNat, extractLsb'_toNat_eq_div]
  omega

/-- A byte of `un_le32` is the digit at its place. -/
theorem le32_unLe32 (x0 x1 x2 x3 : Byte) : le32 (unLe32 x0 x1 x2 x3) = [x0, x1, x2, x3] := by
  have hdigit {start : Nat} {x : Byte}
      (h : (unLe32 x0 x1 x2 x3).toNat / 2 ^ start % 256 = x.toNat) :
      (unLe32 x0 x1 x2 x3).extractLsb' start 8 = x :=
    BitVec.eq_of_toNat_eq ((extractLsb'_toNat_eq_div _ _).trans h)
  rw [unLe32_toNat] at hdigit
  rw [le32, hdigit (x := x0) (by omega), hdigit (x := x1) (by omega), hdigit (x := x2) (by omega),
    hdigit (x := x3) (by omega)]

/-- Settles O40: the bytes of `le32` are the digits of the value, and four digits determine it. -/
theorem littleEndianWords : Obligations.LittleEndianWords := by
  unfold Obligations.LittleEndianWords
  refine ⟨fun v => ⟨_, _, _, _, rfl, unLe32_extractLsb' v, ?_⟩, le32_unLe32⟩
  simp only [extractLsb'_toNat_eq_div]
  omega

end Sys2Proof.Machine
end

section
/-! SUPPORT. What a unit at work leaves of the spaces: its input stays and its output grows
(20_memory R80, R83). -/

namespace Sys2Proof.Machine

/-- A step of `RDEC` at work leaves `BODY`, and an error is the only way it does not append to `GRID`. -/
theorem rdecStep_body_grid {s t : State} (ha : s.active = .rdec) (h : rdecStep s = .next t) :
    t.mem.body = s.mem.body ∧
      ((∃ kind, t.outcome = some (.err kind)) ∨ ∃ ps, t.mem.grid = s.mem.grid ++ ps) := by
  rcases rdecStep_cases h with ⟨kind, r, rfl⟩ | ⟨r, ps, rfl, -⟩ | rfl
  · exact ⟨voidOutput_body_of_rdec ha, .inl ⟨kind, rfl⟩⟩
  · exact ⟨rfl, .inr ⟨ps, rfl⟩⟩
  · exact ⟨rfl, .inr ⟨[], (List.append_nil _).symm⟩⟩

/-- `RENC` at work raises no error, so a step of it only appends to `BODY`, and it leaves `GRID`. -/
theorem rencStep_grid_body {s t : State} (h : rencStep s = .next t) :
    t.mem.grid = s.mem.grid ∧ ∃ bytes, t.mem.body = s.mem.body ++ bytes := by
  rcases rencStep_cases h with ⟨hgrid, -, hbody, -⟩ | rfl
  · exact ⟨hgrid, hbody⟩
  · exact ⟨rfl, [], (List.append_nil _).symm⟩

/-- Settles O59: at work each of the two units writes its output stream only, and voids it only with an
error. -/
theorem inputsStayAndOutputsGrow : Obligations.InputsStayAndOutputsGrow := by
  unfold Obligations.InputsStayAndOutputsGrow
  intro cfg s t h
  refine ⟨fun ha => rdecStep_body_grid ha ?_, fun ha => rencStep_grid_body ?_⟩
  · simpa only [stepWith, ha] using h
  · simpa only [stepWith, ha] using h

end Sys2Proof.Machine
end

section
/-! SUPPORT. The run entries and their bytes (30_encoding R95 to R103): the decoder takes back what the
encoder gives, and every control byte declares an entry. -/

namespace Sys2Proof

/-! ### Decoding the bytes of an entry -/

/-- The decoder takes an entry off the front of its bytes (30_encoding R97, R98, R101). -/
theorem decode_encode_append {i : Instr} (h : i.wellFormed = true) (after : List Byte) :
    decode (encode i ++ after) = .ok (i, after) := by
  cases i with
  | lit ps =>
    obtain ⟨hpos, hcap⟩ := (runLengthOk_iff ps.length).1 h
    have hc : (litControl ps.length).toNat < 128 := by
      rw [litControl_toNat hcap]
      exact Nat.sub_one_lt_of_le hpos hcap
    rw [encode, List.cons_append, decode_cons_lit hc, (controlRunLength_litControl hpos hcap).2,
      takePixels_pixelsBytes]
  | rep n p =>
    obtain ⟨hpos, hcap⟩ := (runLengthOk_iff n).1 h
    have hc : 128 ≤ (repControl n).toNat := by
      rw [repControl_toNat hcap]
      exact Nat.le_add_left 128 _
    rw [encode, List.cons_append, decode_cons_rep hc, (controlRunLength_repControl hpos hcap).2]
    rfl

/-- Settles O1: the control byte declares the kind and the run length, and the payload reads back. -/
theorem decodeOfEncodeIsTheEntry : Obligations.DecodeOfEncodeIsTheEntry := by
  unfold Obligations.DecodeOfEncodeIsTheEntry
  exact fun i after h => decode_encode_append h after

/-- Settles O2, by the inversion of the decoder. -/
theorem encodeOfDecodeIsTheBytes : Obligations.EncodeOfDecodeIsTheBytes := by
  unfold Obligations.EncodeOfDecodeIsTheBytes
  exact fun bytes after i h => decode_eq_ok h

/-! ### What the control byte declares -/

theorem controlPayloadLength_of_lt {c : Byte} (h : c.toNat < 128) :
    controlPayloadLength c = 3 * (c.toNat + 1) := by
  have hr : ¬ controlIsRepeat c = true := by rw [controlIsRepeat_iff]; omega
  rw [controlPayloadLength, if_neg hr, controlRunLength_of_lt h]

theorem controlPayloadLength_of_ge {c : Byte} (h : 128 ≤ c.toNat) : controlPayloadLength c = 3 :=
  if_pos ((controlIsRepeat_iff c).2 h)

/-- The first byte of a well-formed entry declares its payload (30_encoding R99, R102). -/
theorem controlPayloadLength_of_encode {c : Byte} {payload after : List Byte} {i : Instr}
    (hwf : i.wellFormed = true) (h : encode i ++ after = c :: payload) :
    controlPayloadLength c = i.payloadLength := by
  cases i with
  | lit ps =>
    obtain ⟨hpos, hcap⟩ := (runLengthOk_iff ps.length).1 hwf
    obtain ⟨rfl, -⟩ := List.cons.inj h
    obtain ⟨hkind, hrun⟩ := controlRunLength_litControl hpos hcap
    simp [controlPayloadLength, hkind, hrun, Instr.payloadLength]
  | rep n p =>
    obtain ⟨hpos, hcap⟩ := (runLengthOk_iff n).1 hwf
    obtain ⟨rfl, -⟩ := List.cons.inj h
    exact if_pos (controlRunLength_repControl hpos hcap).1

/-- Settles O4: the entry's bytes begin with the control byte, which declares its payload. -/
theorem controlByteGivesEntryLength : Obligations.ControlByteGivesEntryLength := by
  unfold Obligations.ControlByteGivesEntryLength
  intro c payload after i h
  obtain ⟨hwf, hbytes⟩ := decode_eq_ok h
  refine ⟨?_, by rw [← hbytes, List.length_append]⟩
  rw [encode_length, ← controlPayloadLength_of_encode hwf hbytes]
  split
  · next hc => rw [controlPayloadLength_of_ge hc]
  · next hc => rw [controlPayloadLength_of_lt (Nat.lt_of_not_le hc)]

/-! ### Every control byte is legal -/

/-- A literal control byte with its payload there decodes (30_encoding R102). -/
theorem decode_cons_lit_of_le {c : Byte} {payload : List Byte} (hc : c.toNat < 128)
    (h : 3 * (c.toNat + 1) ≤ payload.length) :
    ∃ ps after, decode (c :: payload) = .ok (.lit ps, after) ∧ ps.length = c.toNat + 1 := by
  rw [← controlRunLength_of_lt hc] at h ⊢
  obtain ⟨⟨ps, after⟩, htake⟩ := Option.isSome_iff_exists.1 (takePixels_isSome.2 h)
  exact ⟨ps, after, by rw [decode_cons_lit hc, htake], (takePixels_eq_some htake).1⟩

/-- A repeat control byte with its payload there decodes (30_encoding R102). -/
theorem decode_cons_rep_of_le {c : Byte} {payload : List Byte} (hc : 128 ≤ c.toNat)
    (h : 3 ≤ payload.length) :
    ∃ p after, decode (c :: payload) = .ok (.rep (c.toNat - 127) p, after) := by
  match payload, h with
  | b :: g :: r :: after, _ =>
    exact ⟨⟨b, g, r⟩, after, by rw [decode_cons_rep hc, controlRunLength_of_ge hc]⟩

/-- Settles O5: with its payload there each kind of control byte decodes, and a shorter one is cut. -/
theorem everyControlByteIsLegal : Obligations.EveryControlByteIsLegal := by
  unfold Obligations.EveryControlByteIsLegal
  intro c payload
  constructor
  · intro hlit
    have hc : c.toNat < 128 := Nat.lt_succ_of_le hlit
    refine ⟨decode_cons_lit_of_le hc, fun hshort => decode_cons_payloadCut ?_⟩
    rwa [controlPayloadLength_of_lt hc]
  · intro hc
    refine ⟨decode_cons_rep_of_le hc, fun hshort => decode_cons_payloadCut ?_⟩
    rwa [controlPayloadLength_of_ge hc]

/-! ### The field view of a control byte -/

/-- `K = c[7]` is the kind (30_encoding R96, R100). -/
theorem controlIsRepeat_eq_getLsbD (c : Byte) : controlIsRepeat c = c.getLsbD 7 := by
  rw [Bool.eq_iff_iff, controlIsRepeat_iff, ← BitVec.testBit_toNat, Nat.testBit_eq_decide_div_mod_eq,
    decide_eq_true_iff]
  omega

/-- `N = c[6:0]` is the run length less one (30_encoding R96, R100). -/
theorem controlRunLength_eq_extractLsb' (c : Byte) :
    controlRunLength c = (c.extractLsb' 0 7).toNat + 1 := by
  rw [BitVec.extractLsb'_toNat, Nat.shiftRight_zero]
  by_cases hc : c.toNat < 128
  · rw [controlRunLength_of_lt hc]
    omega
  · rw [controlRunLength_of_ge (Nat.le_of_not_lt hc)]
    omega

/-- Settles O3: adding one in `Nat` never wraps, and bit 7 and the bits below it are the kind and the run
length. -/
theorem controlByteArithmeticIsTheFieldView : Obligations.ControlByteArithmeticIsTheFieldView := by
  unfold Obligations.ControlByteArithmeticIsTheFieldView
  exact fun c => ⟨rfl, Nat.le_add_left 1 _, c.isLt, controlIsRepeat_eq_getLsbD c,
    controlRunLength_eq_extractLsb' c⟩

/-- Settles O6: each word is the encoding of its entry, with the byte 7 after the last one. -/
theorem writtenOutEntriesDecode : Obligations.WrittenOutEntriesDecode := by
  unfold Obligations.WrittenOutEntriesDecode
  exact ⟨decode_encode_append (i := .lit [⟨1, 2, 3⟩, ⟨4, 5, 6⟩, ⟨7, 8, 9⟩]) rfl [],
    decode_encode_append (i := .rep 2 ⟨0, 0, 255⟩) rfl [],
    decode_encode_append (i := .lit [⟨1, 2, 3⟩]) rfl [],
    decode_encode_append (i := .rep 1 ⟨1, 2, 3⟩) rfl [],
    decode_encode_append (i := .rep 128 ⟨9, 9, 9⟩) rfl [7]⟩

end Sys2Proof
end

section
/-! SUPPORT. The decode loop on the bytes of a sequence of entries (42_rle_decode R172, R181, R182). -/

namespace Sys2Proof.Machine

@[simp] theorem totalRunLength_nil : totalRunLength [] = 0 := rfl

@[simp] theorem totalRunLength_cons (i : Instr) (is : List Instr) :
    totalRunLength (i :: is) = i.runLength + totalRunLength is := by
  simp [totalRunLength]

@[simp] theorem allPixels_nil : allPixels [] = [] := rfl

@[simp] theorem allPixels_cons (i : Instr) (is : List Instr) :
    allPixels (i :: is) = i.pixels ++ allPixels is := rfl

/-- One entry of the decode loop, where the entry's pixels do not pass the total (42_rle_decode R172). -/
theorem decodeLoop_encode_append {total : Nat} {grid : List Pixel} {i : Instr}
    (hwf : i.wellFormed = true) (hroom : grid.length + i.runLength ≤ total) (fuel : Nat)
    (rest : List Byte) :
    decodeLoop total (fuel + 1) (encode i ++ rest) grid =
      decodeLoop total fuel rest (grid ++ i.pixels) := by
  have hpos := ((wellFormed_iff i).1 hwf).1
  have hmore : grid.length < total := by omega
  simp only [decodeLoop, if_pos hmore, decode_encode_append hwf, if_neg (Nat.not_lt.2 hroom)]

/-- From any grid that lacks just the pixels of the entries, the loop appends them and leaves the bytes
after the entries: nowhere does it look at the width of a row (42_rle_decode R181, R182, R184). -/
theorem decodeLoop_encodeAll_append {total : Nat} {entries : List Instr}
    (hwf : ∀ e ∈ entries, e.wellFormed = true) (after : List Byte) {grid : List Pixel}
    (hsum : grid.length + totalRunLength entries = total) {fuel : Nat}
    (hfuel : totalRunLength entries ≤ fuel) :
    decodeLoop total fuel (encodeAll entries ++ after) grid =
      .ok (grid ++ allPixels entries, after) := by
  induction entries generalizing grid fuel with
  | nil =>
    rw [decodeLoop_of_le (Nat.le_of_eq hsum.symm), encodeAll_nil, List.nil_append, allPixels_nil,
      List.append_nil]
  | cons i is ih =>
    obtain ⟨hi, his⟩ := List.forall_mem_cons.1 hwf
    have hpos := ((wellFormed_iff i).1 hi).1
    rw [totalRunLength_cons] at hsum hfuel
    obtain ⟨fuel, rfl⟩ : ∃ k, fuel = k + 1 := Nat.exists_eq_add_one.2 (by omega)
    rw [encodeAll_cons, List.append_assoc, decodeLoop_encode_append hi (by omega),
      ih his (by rw [List.length_append, pixels_length]; omega) (by omega), List.append_assoc,
      allPixels_cons]

/-- Settles O17, by induction on the entries from the empty grid. -/
theorem anyEntriesDecodeToTheirPixels : Obligations.AnyEntriesDecodeToTheirPixels := by
  unfold Obligations.AnyEntriesDecodeToTheirPixels
  intro cfg entries after W H hdims hwf hsum
  have hstart : decodeBodyRest cfg (encodeAll entries ++ after) W H =
      decodeLoop (pixelTotal W H) (pixelTotal W H) (encodeAll entries ++ after) [] := by
    rw [decodeBodyRest, show checkDims cfg W H = none from hdims]
  exact hstart.trans (decodeLoop_encodeAll_append hwf after (grid := []) (by simpa using hsum) hsum.le)

end Sys2Proof.Machine
end

section
/-! SUPPORT. The bytes of a header: what `HSER` writes and what `HDES` makes of it (40_header). -/

namespace Sys2Proof.Machine

/-! ### The block count -/

/-- The count `HSER` derives from a body length under the configuration's mode, before it is asked to fit
32 bits (40_header R124). -/
def exactBlockCount (cfg : Config) (bodyLength : Nat) : Nat :=
  match cfg.blockCountMode with
  | .blocks512 => ceilDiv bodyLength 512
  | .bytes => bodyLength

theorem blockCountOf_eq (cfg : Config) (bodyLength : Nat) :
    blockCountOf cfg bodyLength =
      if exactBlockCount cfg bodyLength < 2 ^ 32 then
        some (BitVec.ofNat 32 (exactBlockCount cfg bodyLength))
      else none := by
  unfold blockCountOf exactBlockCount
  cases cfg.blockCountMode <;> rfl

theorem exactBlockCount_eq {cfg : Config} {bodyLength bc : Nat}
    (hblocks : cfg.blockCountMode = .blocks512 → bc = ceilDiv bodyLength 512)
    (hbytes : cfg.blockCountMode = .bytes → bc = bodyLength) : exactBlockCount cfg bodyLength = bc := by
  unfold exactBlockCount
  cases hmode : cfg.blockCountMode with
  | blocks512 => exact (hblocks hmode).symm
  | bytes => exact (hbytes hmode).symm

/-- Settles O36: `blockCountOf` is the exact count where it fits, and no word where it does not. -/
theorem blockCountIsNeverTruncated : Obligations.BlockCountIsNeverTruncated := by
  unfold Obligations.BlockCountIsNeverTruncated
  intro cfg bodyLength bc hblocks hbytes
  rw [blockCountOf_eq, exactBlockCount_eq hblocks hbytes]
  constructor
  · intro hfits
    exact ⟨_, if_pos hfits, Nat.mod_eq_of_lt hfits⟩
  · intro hbig
    exact if_neg (Nat.not_lt.2 hbig)

/-! ### HSER at work -/

theorem hserBlockCount_eq_ok {cfg : Config} {l : HeaderLatches} {bc : Word32}
    (hf : checkFields cfg l.width l.height l.kind = none)
    (hbc : blockCountOf cfg l.bodyLength = some bc) : hserBlockCount cfg l = .ok bc := by
  simp only [hserBlockCount, hf, hbc]

/-- Settles O35: past its checks `HSER` ends in one step, and its writes fill `HDR` with the header. -/
theorem hserWritesTheHeader : Obligations.HserWritesTheHeader := by
  unfold Obligations.HserWritesTheHeader
  intro cfg s bc ha hm hf hbc
  have hstep := stepWith_of_oneStepWork (cfg := cfg) ha rfl
  rw [hserBlockCount_eq_ok hf hbc] at hstep
  have hhdr := writeHeader_hdr hm s.hdrLatch.width s.hdrLatch.height s.hdrLatch.kind bc
  exact ⟨_, hstep, hhdr, (congrArg List.length hhdr).trans (headerBytes_length _ _ _ _),
    ⟨rfl, rfl, rfl⟩, rfl, rfl, rfl, rfl, rfl⟩

/-! ### The checks of the fields -/

theorem kindLegal_iff (kind : Word32) : kindLegal kind = true ↔ kind = 0 ∨ kind = 1 := by
  simp [kindLegal]

theorem checkDims_of_not_legal {cfg : Config} {w h : Word32}
    (hbad : w = 0 ∨ h = 0 ∨ cfg.dimMax < w.toNat ∨ cfg.dimMax < h.toNat) :
    checkDims cfg w h = some .dimensionError := by
  cases hc : checkDims cfg w h with
  | some e => rw [checkDims_eq_some hc]
  | none =>
    obtain ⟨hw, hh, hwmax, hhmax⟩ := checkDims_eq_none.1 hc
    rcases hbad with h0 | h0 | hbig | hbig
    · exact absurd h0 hw
    · exact absurd h0 hh
    · omega
    · omega

/-- A bad dimension is reported whatever the kind is (40_header R121, R133). -/
theorem checkFields_of_checkDims_some {cfg : Config} {w h : Word32} {e : ErrorKind}
    (hd : checkDims cfg w h = some e) (k : Word32) : checkFields cfg w h k = some e := by
  simp only [checkFields, hd]

theorem checkFields_of_checkDims_none {cfg : Config} {w h : Word32}
    (hd : checkDims cfg w h = none) (k : Word32) :
    checkFields cfg w h k = if kindLegal k then none else some .unsupportedKind := by
  simp only [checkFields, hd]

/-! ### The 24 bytes HDES reads -/

/-- The magic and the four fields, which open a header (40_header R134). -/
def fieldBytes (f : HeaderFields) : List Byte :=
  magic ++ le32 f.width ++ le32 f.height ++ le32 f.kind ++ le32 f.blockCount

@[simp] theorem fieldBytes_length (f : HeaderFields) : (fieldBytes f).length = 24 := rfl

theorem take_fieldBytes_append (f : HeaderFields) (tail : List Byte) :
    (fieldBytes f ++ tail).take 24 = fieldBytes f := List.take_left' rfl

theorem memRead_eq_some {space v : List Byte} {addr n : Nat} (h : memRead space addr n = some v) :
    (space.drop addr).take n = v := by
  unfold memRead at h
  split at h
  · exact Option.some.inj h
  · cases h

theorem readWord32_of_le32 {buf : List Byte} {addr : Nat} {v : Word32}
    (h : (buf.drop addr).take 4 = le32 v) : readWord32 buf addr = some v :=
  (readWord32_eq h).trans (congrArg some (unLe32_extractLsb' v))

/-- A word that is read has its own four bytes in the buffer (30_encoding R92). -/
theorem le32_of_readWord32 {buf : List Byte} {addr : Nat} {v : Word32}
    (h : readWord32 buf addr = some v) : (buf.drop addr).take 4 = le32 v := by
  unfold readWord32 at h
  split at h
  · next x0 x1 x2 x3 hread =>
    obtain rfl := Option.some.inj h
    rw [le32_unLe32]
    exact memRead_eq_some hread
  · cases h

theorem extractFields_fieldBytes (f : HeaderFields) : extractFields (fieldBytes f) = some f := by
  rw [extractFields, readWord32_of_le32 (v := f.width) rfl, readWord32_of_le32 (v := f.height) rfl,
    readWord32_of_le32 (v := f.kind) rfl, readWord32_of_le32 (v := f.blockCount) rfl]

/-- The four words that are read (40_header R130). -/
theorem extractFields_eq_some {buf : List Byte} {f : HeaderFields} (h : extractFields buf = some f) :
    readWord32 buf 8 = some f.width ∧ readWord32 buf 12 = some f.height ∧
      readWord32 buf 16 = some f.kind ∧ readWord32 buf 20 = some f.blockCount := by
  unfold extractFields at h
  split at h
  · next hw hh hk hb =>
    obtain rfl := Option.some.inj h
    exact ⟨hw, hh, hk, hb⟩
  · cases h

/-- A buffer in which the magic and the fields are read opens with their bytes. -/
theorem take_24_eq_fieldBytes {buf : List Byte} {f : HeaderFields} (hmagic : memRead buf 0 8 = some magic)
    (hfields : extractFields buf = some f) : buf.take 24 = fieldBytes f := by
  obtain ⟨hw, hh, hk, hb⟩ := extractFields_eq_some hfields
  calc buf.take 24
      = buf.take 8 ++ (buf.drop 8).take 4 ++ (buf.drop 12).take 4 ++ (buf.drop 16).take 4 ++
          (buf.drop 20).take 4 := by simp only [← List.take_add]
    _ = fieldBytes f := by
      rw [le32_of_readWord32 hw, le32_of_readWord32 hh, le32_of_readWord32 hk, le32_of_readWord32 hb,
        show buf.take 8 = magic from memRead_eq_some hmagic, fieldBytes]

/-! ### The outcome of HDES -/

/-- The outcome of `HDES` on a buffer that is long enough and has the magic (40_header R131). -/
def fieldsOutcome (cfg : Config) (f : HeaderFields) : OpResult HeaderFields :=
  match checkFields cfg f.width f.height f.kind with
  | some error => .err error
  | none => .ok f

theorem hdes_of_take_24 {buf : List Byte} {f : HeaderFields} (cfg : Config) (hlen : 512 ≤ buf.length)
    (h : buf.take 24 = fieldBytes f) : hdes cfg buf = fieldsOutcome cfg f := by
  have hmagic : memRead (fieldBytes f) 0 8 = some magic := rfl
  rw [hdes, ← hdesOn_take_24 cfg _ (by omega), h, hdesOn, if_neg (Nat.not_lt.2 hlen),
    if_neg (not_not.2 hmagic), extractFields_fieldBytes]
  rfl

theorem hdes_of_not_magic {buf : List Byte} (cfg : Config) (h : buf.take 8 ≠ magic) :
    hdes cfg buf = .err .headerFormatError := by
  have hread : memRead buf 0 8 ≠ some magic := fun hr => h (memRead_eq_some hr)
  rw [hdes, hdesOn, if_pos hread, ite_self]

/-- What `HDES` accepts opens with the bytes of the fields it answers (40_header R134). -/
theorem hdes_eq_ok {cfg : Config} {buf : List Byte} {f : HeaderFields} (h : hdes cfg buf = .ok f) :
    512 ≤ buf.length ∧ buf.take 24 = fieldBytes f := by
  unfold hdes hdesOn at h
  split at h
  · cases h
  · next hlen =>
    split at h
    · cases h
    · next hmagic =>
      split at h
      · cases h
      · next g hg =>
        split at h
        · cases h
        · obtain rfl := OpResult.ok.inj h
          exact ⟨Nat.not_lt.1 hlen, take_24_eq_fieldBytes (not_not.1 hmagic) hg⟩

theorem hser_eq_ok {cfg : Config} {w h k : Word32} {bodyLength : Nat} {hdr : List Byte}
    (ho : hser cfg w h k bodyLength = .ok hdr) :
    checkFields cfg w h k = none ∧
      ∃ bc, blockCountOf cfg bodyLength = some bc ∧ hdr = headerBytes w h k bc := by
  unfold hser at ho
  split at ho
  · cases ho
  · next hf =>
    split at ho
    · cases ho
    · next bc hbc => exact ⟨hf, bc, hbc, (OpResult.ok.inj ho).symm⟩

/-- Settles O38: past the length and the magic, the outcome is that of the checks of the fields. -/
theorem hdesChecksInOrder : Obligations.HdesChecksInOrder := by
  unfold Obligations.HdesChecksInOrder
  intro cfg buf
  refine ⟨?_, ?_⟩
  · rintro (hshort | hmagic)
    · exact hdesOn_short cfg hshort buf
    · exact hdes_of_not_magic cfg hmagic
  · intro w h k bc tail htail hbuf
    have hout : hdes cfg buf = fieldsOutcome cfg ⟨w, h, k, bc⟩ := by
      subst hbuf
      exact hdes_of_take_24 cfg (by simp; omega) (take_fieldBytes_append ⟨w, h, k, bc⟩ tail)
    rw [hout, fieldsOutcome]
    refine ⟨fun hbad => ?_, fun hw hh hwmax hhmax => ?_⟩
    · rw [checkFields_of_checkDims_some (checkDims_of_not_legal hbad)]
    · rw [checkFields_of_checkDims_none (checkDims_eq_none.2 ⟨hw, hh, hwmax, hhmax⟩)]
      refine ⟨fun hk0 hk1 => ?_, fun hk => ?_⟩
      · rw [if_neg (mt (kindLegal_iff k).1 (not_or.2 ⟨hk0, hk1⟩))]
      · rw [if_pos ((kindLegal_iff k).2 hk)]

/-- Settles O37: `HDES` is decided by the 24 bytes of the fields, which `HSER` writes first and which
nothing but a header with those fields holds. -/
theorem headerRoundTrip : Obligations.HeaderRoundTrip := by
  unfold Obligations.HeaderRoundTrip
  constructor
  · intro cfg w h k L hdr ho
    obtain ⟨hf, bc, hbc, rfl⟩ := hser_eq_ok ho
    have hlen : 512 ≤ (headerBytes w h k bc).length := (headerBytes_length w h k bc).ge
    refine ⟨bc, hbc, ?_, fun t => ?_⟩
    · rw [hdes_of_take_24 cfg hlen (take_fieldBytes_append ⟨w, h, k, bc⟩ _), fieldsOutcome, hf]
    · exact hdesIgnoresReservedAndLaterBytes cfg _ _ (by simp) hlen
        (List.take_append_of_le_length (by simp))
  · intro cfg buf f ho
    obtain ⟨hlen, htake⟩ := hdes_eq_ok ho
    refine ⟨htake, fun tail htail => ?_⟩
    rw [← ho]
    refine hdesIgnoresReservedAndLaterBytes cfg _ _ (by simp; omega) hlen ?_
    rw [htake, take_fieldBytes_append]

end Sys2Proof.Machine
end

section
/-! SUPPORT. The entries of a row: a comparison and the end step conserve the pixels of the run so far and
emit entries within the cap, so the entries of a row stand for its pixels (41_rle_encode R153 to R158). -/

namespace Sys2Proof.Machine

/-! ### A comparison on a run -/

/-- The run so far can be one of 1 to 127 pixels, or none (10_state R24). -/
def Run.Fits : Run → Prop
  | .none => True
  | .lit ps => 1 ≤ ps.length ∧ ps.length ≤ 127
  | .rep k => 1 ≤ k ∧ k ≤ 127

/-- The pixels of the run so far: in a repeat run each is the pixel `cur` (10_state R23). -/
def Run.pixels (cur : Pixel) : Run → List Pixel
  | .none => []
  | .lit ps => ps
  | .rep k => List.replicate k cur

/-- What `RENC` may emit: 1 to 128 pixels, at least 2 of them in a repeat entry (41_rle_encode R156). -/
def EmittedEntry (e : Instr) : Prop :=
  1 ≤ e.runLength ∧ e.runLength ≤ 128 ∧ ∀ n p, e = .rep n p → 2 ≤ n

theorem emittedEntry_lit {ps : List Pixel} (hpos : 1 ≤ ps.length) (hcap : ps.length ≤ 128) :
    EmittedEntry (.lit ps) := ⟨hpos, hcap, nofun⟩

theorem emittedEntry_rep {n : Nat} (h : 2 ≤ n) (hcap : n ≤ 128) (p : Pixel) :
    EmittedEntry (.rep n p) := by
  refine ⟨Nat.le_of_succ_le h, hcap, ?_⟩
  rintro m q ⟨⟩
  exact h

theorem EmittedEntry.wellFormed {e : Instr} (h : EmittedEntry e) : e.wellFormed = true := by
  obtain ⟨hpos, hcap, -⟩ := h
  exact (wellFormed_iff e).2 ⟨hpos, hcap⟩

theorem allPixels_append (is js : List Instr) : allPixels (is ++ js) = allPixels is ++ allPixels js :=
  List.flatMap_append

theorem allPixels_singleton (i : Instr) : allPixels [i] = i.pixels := by simp

/-- Of a step on `run` with the pixel `cur`: the run left fits, the entries are within the cap, and the
pixels of the entries and of the run left are those of `run` and `cur`. -/
def Run.Conserves (run : Run) (cur nxt : Pixel) (out : Run × List Instr) : Prop :=
  out.1.Fits ∧ (∀ e ∈ out.2, EmittedEntry e) ∧
    allPixels out.2 ++ out.1.pixels nxt = run.pixels cur ++ [cur]

/-- A step that emits one entry and leaves no run. -/
theorem Run.conserves_flush {run : Run} {cur nxt : Pixel} {e : Instr} (he : EmittedEntry e)
    (hp : e.pixels = run.pixels cur ++ [cur]) : run.Conserves cur nxt (.none, [e]) :=
  ⟨trivial, by simpa using he, by simpa [Run.pixels] using hp⟩

/-- The comparison step puts `cur` into the run or into an entry, and nothing else (41_rle_encode R145 to
R149, R155). -/
theorem Run.compare_conserves {run : Run} (h : run.Fits) (cur nxt : Pixel) :
    run.Conserves cur nxt (run.compare cur nxt) := by
  by_cases heq : cur = nxt
  · subst heq
    cases run with
    | none => simp [Run.compare, Run.Conserves, Run.Fits, Run.pixels]
    | lit ps =>
      obtain ⟨hpos, hle⟩ := h
      have he : EmittedEntry (.lit ps) := emittedEntry_lit hpos (by omega)
      simpa [Run.compare, Run.Conserves, Run.Fits, Run.pixels, Instr.pixels] using he
    | rep k =>
      obtain ⟨hpos, hle⟩ := h
      by_cases hcap : k + 1 = 128
      · simp only [Run.compare, if_true, maxRun_eq, if_pos hcap]
        refine Run.conserves_flush (emittedEntry_rep (by decide) le_rfl cur) ?_
        rw [Instr.pixels, ← hcap, List.replicate_succ', Run.pixels]
      · simp only [Run.compare, if_true, maxRun_eq, if_neg hcap]
        refine ⟨⟨by omega, by omega⟩, by simp, ?_⟩
        rw [allPixels_nil, List.nil_append, Run.pixels, List.replicate_succ', Run.pixels]
  · cases run with
    | none => simp [Run.compare, heq, Run.Conserves, Run.Fits, Run.pixels]
    | lit ps =>
      obtain ⟨hpos, hle⟩ := h
      by_cases hcap : ps.length + 1 = 128
      · simp only [Run.compare, if_neg heq, maxRun_eq, if_pos hcap]
        exact Run.conserves_flush (emittedEntry_lit (by simp) (by simp [hcap])) rfl
      · simp only [Run.compare, if_neg heq, maxRun_eq, if_neg hcap]
        exact ⟨⟨by simp, by simp; omega⟩, by simp, rfl⟩
    | rep k =>
      obtain ⟨hpos, hle⟩ := h
      simp only [Run.compare, if_neg heq]
      exact Run.conserves_flush (emittedEntry_rep (by omega) (by omega) cur) List.replicate_succ'

/-- The end step's entry holds the run and `cur` (41_rle_encode R150). -/
theorem Run.close_conserves {run : Run} (h : run.Fits) (cur : Pixel) :
    EmittedEntry (run.close cur) ∧ (run.close cur).pixels = run.pixels cur ++ [cur] := by
  cases run with
  | none => exact ⟨emittedEntry_lit (by simp) (by simp), rfl⟩
  | lit ps =>
    obtain ⟨hpos, hle⟩ := h
    exact ⟨emittedEntry_lit (by simp) (by simp; omega), rfl⟩
  | rep k =>
    obtain ⟨hpos, hle⟩ := h
    exact ⟨emittedEntry_rep (by omega) (by omega) cur, List.replicate_succ'⟩

/-! ### The entries of a row -/

/-- From any pixel of a row on, the entries are within the cap and stand for the run so far and the pixels
left (41_rle_encode R155, R156). -/
theorem rowEntriesFrom_conserves {run : Run} (h : run.Fits) (cur : Pixel) (rest : List Pixel) :
    (∀ e ∈ rowEntriesFrom run cur rest, EmittedEntry e) ∧
      allPixels (rowEntriesFrom run cur rest) = run.pixels cur ++ cur :: rest := by
  induction rest generalizing run cur with
  | nil =>
    obtain ⟨he, hp⟩ := Run.close_conserves h cur
    exact ⟨by simpa [rowEntriesFrom] using he, by rw [rowEntriesFrom, allPixels_singleton, hp]⟩
  | cons nxt rest ih =>
    obtain ⟨hfits, he, hp⟩ := Run.compare_conserves h cur nxt
    obtain ⟨he', hp'⟩ := ih hfits nxt
    refine ⟨List.forall_mem_append.2 ⟨he, he'⟩, ?_⟩
    rw [rowEntriesFrom, allPixels_append, hp', ← List.append_assoc, hp, List.append_assoc,
      List.singleton_append]

theorem rowEntries_cons (p : Pixel) (ps : List Pixel) :
    rowEntries (p :: ps) = .ok (rowEntriesFrom .none p ps) := rfl

theorem exists_rowEntries {row : List Pixel} (h : row ≠ []) : ∃ entries, rowEntries row = .ok entries := by
  obtain ⟨p, ps, rfl⟩ := List.exists_cons_of_ne_nil h
  exact ⟨_, rowEntries_cons p ps⟩

/-- The entries of a row are within the cap and stand for its pixels (41_rle_encode R155, R156). -/
theorem rowEntries_eq_ok {row : List Pixel} {entries : List Instr} (h : rowEntries row = .ok entries) :
    (∀ e ∈ entries, EmittedEntry e) ∧ allPixels entries = row := by
  cases row with
  | nil => cases h
  | cons p ps =>
    obtain rfl := OpResult.ok.inj h
    exact rowEntriesFrom_conserves (run := .none) trivial p ps

theorem allPixels_length (entries : List Instr) :
    (allPixels entries).length = totalRunLength entries := by
  induction entries with
  | nil => rfl
  | cons i is ih => simp [ih]

theorem totalRunLength_of_rowEntries {row : List Pixel} {entries : List Instr}
    (h : rowEntries row = .ok entries) : totalRunLength entries = row.length := by
  rw [← allPixels_length, (rowEntries_eq_ok h).2]

/-- Settles O25: every row has entries, and they stand for its pixels. -/
theorem rowPixelConservation : Obligations.RowPixelConservation := by
  unfold Obligations.RowPixelConservation
  intro row hne
  obtain ⟨entries, h⟩ := exists_rowEntries hne
  exact ⟨entries, h, totalRunLength_of_rowEntries h⟩

/-- Settles O26: the run so far has at most 127 pixels, so every entry flushed has at most 128, and a
repeat entry counts `cur` besides a repeat run of at least one. -/
theorem everyEmittedRunIsWithinTheCap : Obligations.EveryEmittedRunIsWithinTheCap := by
  unfold Obligations.EveryEmittedRunIsWithinTheCap
  exact fun row entries h => (rowEntries_eq_ok h).1

/-- Settles O28: within the cap the control byte is `n - 1` for a literal entry, and `n + 127` for a repeat
entry, whose 2 pixels or more keep it above `0x80`. -/
theorem emittedControlBytes : Obligations.EmittedControlBytes := by
  unfold Obligations.EmittedControlBytes
  intro row entries h e he
  obtain ⟨hpos, hcap, hrep⟩ := (rowEntries_eq_ok h).1 e he
  cases e with
  | lit ps =>
    have hc : (litControl ps.length).toNat = ps.length - 1 := litControl_toNat hcap
    simp only [Instr.runLength] at hpos hcap ⊢
    refine ⟨_, _, rfl, fun h80 => ?_, fun _ => by omega, nofun⟩
    simp only [h80, BitVec.reduceToNat] at hc
    omega
  | rep n p =>
    have hc : (repControl n).toNat = n - 1 + 128 := repControl_toNat hcap
    have htwo : 2 ≤ n := hrep n p rfl
    simp only [Instr.runLength] at hcap ⊢
    refine ⟨_, _, rfl, fun h80 => ?_, nofun, fun _ => by omega⟩
    simp only [h80, BitVec.reduceToNat] at hc
    omega

/-! ### The streaming form -/

/-- Once a pixel is held, the stream emits what the encoder emits from that pixel on (41_rle_encode
R165). -/
theorem endOfRow_foldl_push (run : Run) (cur : Pixel) (out : List Instr) (rest : List Pixel) :
    (rest.foldl RowStream.push ⟨run, some cur, out⟩).endOfRow =
      .ok (out ++ rowEntriesFrom run cur rest) := by
  induction rest generalizing run cur out with
  | nil => rfl
  | cons nxt rest ih => rw [List.foldl_cons, RowStream.push, ih, rowEntriesFrom, List.append_assoc]

/-- Settles O31: the first pixel is only loaded, and each later one is the successor of the one held. -/
theorem streamingFormIsTheEncoder : Obligations.StreamingFormIsTheEncoder := by
  unfold Obligations.StreamingFormIsTheEncoder
  intro row
  cases row with
  | nil => rfl
  | cons p ps => exact endOfRow_foldl_push .none p [] ps

end Sys2Proof.Machine
end

section
/-! SUPPORT. The comparison steps of `RENC` on its registers, rule by rule (41_rle_encode R146 to R149). -/

namespace Sys2Proof.Machine

/-- The registers still hold the run when `cur` and `nxt` have been loaded. -/
theorem runHeld_load {s : State} {run : Run} (h : RunHeld s.renc run) (cur nxt : Pixel) :
    RunHeld (s.setRenc { s.renc with cur := cur, nxt := nxt }).renc run :=
  runHeld_congr rfl rfl rfl h

/-- A comparison step is the rule it dispatches to, between the loads and the count of `i`
(41_rle_encode R144, R145). -/
theorem step_eq_afterCompare {s : State} {cur nxt : Pixel} {mode : RencMode} {count : Byte}
    {runbuf : List Pixel} {emitted : List Byte} (hat : s.ComparesAt cur nxt)
    (hrule : stepDispatch (s.setRenc { s.renc with cur := cur, nxt := nxt }) =
      (s.setRenc { s.renc with cur := cur, nxt := nxt }).afterRule mode count runbuf emitted) :
    step s = .next (s.afterCompare cur nxt mode count runbuf emitted) := by
  rw [step, step_of_comparesAt hat, hrule]
  rfl

/-- Settles O19: the rule `D-REP` on the run held. -/
theorem differInRepeatFlushesTheRun : Obligations.DifferInRepeatFlushesTheRun := by
  unfold Obligations.DifferInRepeatFlushesTheRun
  intro s cur nxt k hat hne hr
  exact step_eq_afterCompare hat (stepDispatch_differ_rep hne (runHeld_load hr cur nxt))

/-- Settles O20: the rule `D-LIT` on the run held, below the cap and at it. -/
theorem differJoinsTheLiteralRun : Obligations.DifferJoinsTheLiteralRun := by
  unfold Obligations.DifferJoinsTheLiteralRun
  intro s cur nxt ps hat hne hr
  have hrule := stepDispatch_differ_lit (s := s.setRenc { s.renc with cur := cur, nxt := nxt }) hne
    (hr.imp (runHeld_load · cur nxt) (And.imp_left (runHeld_load · cur nxt)))
  refine ⟨fun hroom => ?_, fun hcap => ?_⟩
  · rw [if_neg hroom.ne] at hrule
    exact step_eq_afterCompare hat hrule
  · have hcontrol : litControl (ps ++ [cur]).length = 0x7F := by
      rw [List.length_append, List.length_singleton, hcap]
      rfl
    rw [if_pos hcap, State.setRenc_renc, encode, hcontrol] at hrule
    exact step_eq_afterCompare hat hrule

/-- Settles O21: the rules `E-LIT` and `E` on the literal run held. -/
theorem equalInLiteralFlushesWithoutCur : Obligations.EqualInLiteralFlushesWithoutCur := by
  unfold Obligations.EqualInLiteralFlushesWithoutCur
  intro s cur ps hat hr
  exact step_eq_afterCompare hat (stepDispatch_equal_lit rfl (runHeld_load hr cur cur))

/-- Settles O22: the rule `E` on the run held, below the cap and at it. -/
theorem equalJoinsTheRepeatRun : Obligations.EqualJoinsTheRepeatRun := by
  unfold Obligations.EqualJoinsTheRepeatRun
  intro s cur k hat hr
  have hrule := stepDispatch_equal_rep (s := s.setRenc { s.renc with cur := cur, nxt := cur }) rfl
    (hr.imp (runHeld_load · cur cur) (And.imp_left (runHeld_load · cur cur)))
  refine ⟨fun hroom => ?_, fun hcap => ?_⟩
  · rw [if_neg hroom.ne] at hrule
    exact step_eq_afterCompare hat hrule
  · rw [if_pos hcap] at hrule
    exact step_eq_afterCompare hat hrule

/-- Settles O24: the refinement of the comparison, at the machine's own configuration. -/
theorem compareStepRefinesTheEncoder : Obligations.CompareStepRefinesTheEncoder := by
  unfold Obligations.CompareStepRefinesTheEncoder
  intro s cur nxt run hat hr
  obtain ⟨mode, count, runbuf, hstep, hheld⟩ := step_refines_compare hat hr Config.machine
  exact ⟨_, hstep, hheld, rfl⟩

end Sys2Proof.Machine
end

section
/-! SUPPORT. The rows of a grid and the body they are encoded to (41_rle_encode R154, R159, R162). -/

namespace Sys2Proof.Machine

/-! ### The rows of a grid -/

/-- A grid of `H` rows is cut into that many, each of width `W`, which are the grid (10_state R45). -/
theorem gridRows_spec {W H : Nat} {grid : List Pixel} (h : grid.length = W * H) :
    (gridRows W H grid).length = H ∧ (∀ row ∈ gridRows W H grid, row.length = W) ∧
      (gridRows W H grid).flatten = grid := by
  induction H generalizing grid with
  | zero => exact ⟨rfl, nofun, (List.length_eq_zero_iff.1 h).symm⟩
  | succ H ih =>
    rw [Nat.mul_succ] at h
    obtain ⟨hcount, hlen, hflat⟩ := ih (grid := grid.drop W) (by rw [List.length_drop]; omega)
    have htake : (grid.take W).length = W := by rw [List.length_take]; omega
    refine ⟨by rw [gridRows, List.length_cons, hcount], List.forall_mem_cons.2 ⟨htake, hlen⟩, ?_⟩
    rw [gridRows, List.flatten_cons, hflat, List.take_append_drop]

/-- The rows of a grid cut between two rows (41_rle_encode R159). -/
theorem gridRows_append {W H1 : Nat} {upper : List Pixel} (h : upper.length = W * H1) (H2 : Nat)
    (lower : List Pixel) :
    gridRows W (H1 + H2) (upper ++ lower) = gridRows W H1 upper ++ gridRows W H2 lower := by
  induction H1 generalizing upper with
  | zero => rw [List.length_eq_zero_iff.1 h, Nat.zero_add]; rfl
  | succ H1 ih =>
    rw [Nat.mul_succ] at h
    have hW : W ≤ upper.length := by omega
    rw [Nat.succ_add, gridRows, List.take_append_of_le_length hW, List.drop_append_of_le_length hW,
      ih (by rw [List.length_drop]; omega)]
    rfl

/-! ### The encodings of rows -/

theorem encodeRows_eq_ok_cons {row : List Pixel} {rows : List (List Pixel)} {bytes : List Byte} :
    encodeRows (row :: rows) = .ok bytes ↔
      ∃ a b, encodeRow row = .ok a ∧ encodeRows rows = .ok b ∧ bytes = a ++ b := by
  rw [encodeRows]
  constructor
  · intro h
    obtain ⟨a, ha, h⟩ := OpResult.andThen_eq_ok h
    obtain ⟨b, hb, h⟩ := OpResult.andThen_eq_ok h
    exact ⟨a, b, ha, hb, (OpResult.ok.inj h).symm⟩
  · rintro ⟨a, b, ha, hb, rfl⟩
    rw [ha, OpResult.andThen_ok, hb, OpResult.andThen_ok]

theorem encodeRows_append {upper lower : List (List Pixel)} {a b : List Byte}
    (ha : encodeRows upper = .ok a) (hb : encodeRows lower = .ok b) :
    encodeRows (upper ++ lower) = .ok (a ++ b) := by
  induction upper generalizing a with
  | nil => obtain rfl := OpResult.ok.inj ha; exact hb
  | cons row rows ih =>
    obtain ⟨x, y, hx, hy, rfl⟩ := encodeRows_eq_ok_cons.1 ha
    exact encodeRows_eq_ok_cons.2 ⟨x, y ++ b, hx, ih hy, List.append_assoc x y b⟩

theorem encodeRow_of_rowEntries {row : List Pixel} {entries : List Instr}
    (h : rowEntries row = .ok entries) : encodeRow row = .ok (encodeAll entries) := by
  rw [encodeRow, h, OpResult.andThen_ok]

theorem encodeRow_eq_ok {row : List Pixel} {bytes : List Byte} (h : encodeRow row = .ok bytes) :
    ∃ entries, rowEntries row = .ok entries ∧ bytes = encodeAll entries := by
  obtain ⟨entries, hentries, h⟩ := OpResult.andThen_eq_ok h
  exact ⟨entries, hentries, (OpResult.ok.inj h).symm⟩

/-- Rows that are not empty are encoded to entries that stand for their pixels (41_rle_encode R154). -/
theorem exists_entries_of_rows {rows : List (List Pixel)} (h : ∀ row ∈ rows, row ≠ []) :
    ∃ entries, encodeRows rows = .ok (encodeAll entries) ∧ (∀ e ∈ entries, e.wellFormed = true) ∧
      allPixels entries = rows.flatten := by
  induction rows with
  | nil => exact ⟨[], rfl, nofun, rfl⟩
  | cons row rows ih =>
    obtain ⟨hrow, hrows⟩ := List.forall_mem_cons.1 h
    obtain ⟨entries, hok⟩ := exists_rowEntries hrow
    obtain ⟨he, hpixels⟩ := rowEntries_eq_ok hok
    obtain ⟨entries', hok', he', hpixels'⟩ := ih hrows
    refine ⟨entries ++ entries', ?_,
      List.forall_mem_append.2 ⟨fun e hmem => (he e hmem).wellFormed, he'⟩, ?_⟩
    · exact encodeRows_eq_ok_cons.2
        ⟨_, _, encodeRow_of_rowEntries hok, hok', encodeAll_append entries entries'⟩
    · rw [allPixels_append, hpixels, hpixels', List.flatten_cons]

/-! ### The body of a grid -/

/-- Where `EncodeBody` answers a body: legal dimensions, the whole grid, and its rows' encodings
(41_rle_encode R142, R154). -/
theorem encodeBody_eq_ok {cfg : Config} {grid : List Pixel} {W H : Word32} {body : List Byte} :
    encodeBody cfg grid W H = .ok body ↔
      LegalDims cfg W H ∧ grid.length = W.toNat * H.toNat ∧
        encodeRows (gridRows W.toNat H.toNat grid) = .ok body := by
  rw [encodeBody, LegalDims, ← pixelTotal]
  cases checkDims cfg W H with
  | some kind => simp
  | none =>
    by_cases hlen : grid.length = pixelTotal W H
    · simp [hlen]
    · simp [hlen]

/-- Settles O29: the rows of the whole grid are those of its upper part, then those of its lower part. -/
theorem rowsEncodeIndependently : Obligations.RowsEncodeIndependently := by
  unfold Obligations.RowsEncodeIndependently
  intro cfg upper lower W H1 H2 H a b hdims hH hupper hlower
  obtain ⟨-, hlen1, hrows1⟩ := encodeBody_eq_ok.1 hupper
  obtain ⟨-, hlen2, hrows2⟩ := encodeBody_eq_ok.1 hlower
  refine encodeBody_eq_ok.2 ⟨hdims, ?_, ?_⟩
  · rw [List.length_append, hlen1, hlen2, hH, Nat.mul_add]
  · rw [hH, gridRows_append hlen1]
    exact encodeRows_append hrows1 hrows2

/-- Settles O32: the rows are encoded to well-formed entries that stand for the grid, and these decode to
their pixels with nothing left. -/
theorem encodedBodyDecodesToTheGrid : Obligations.EncodedBodyDecodesToTheGrid := by
  unfold Obligations.EncodedBodyDecodesToTheGrid
  intro cfg grid W H hdims hlen
  obtain ⟨-, hwidth, hflat⟩ := gridRows_spec hlen
  have hW : 1 ≤ W.toNat := toNat_pos_of_ne_zero (checkDims_eq_none.1 hdims).1
  obtain ⟨entries, hok, hwf, hpixels⟩ := exists_entries_of_rows
    fun row hrow => List.ne_nil_of_length_pos (by rw [hwidth row hrow]; exact hW)
  rw [hflat] at hpixels
  have hsum : totalRunLength entries = W.toNat * H.toNat := by rw [← allPixels_length, hpixels, hlen]
  have hdecode := anyEntriesDecodeToTheirPixels cfg entries [] W H hdims hwf hsum
  rw [List.append_nil, hpixels] at hdecode
  exact ⟨_, encodeBody_eq_ok.2 ⟨hdims, hlen, hok⟩, hdecode⟩

end Sys2Proof.Machine
end

section
/-! SUPPORT. A block of equal pixels under the step rules, and from it the closed form over the maximal
equal runs of a row and the entries of the extreme rows (41_rle_encode R157, R160). -/

namespace Sys2Proof.Machine

/-! ### A comparison on a pending literal run and on a count of equal pixels -/

/-- The run that holds the pending literal pixels of the closed form (41_rle_encode R160). -/
def Run.ofPending (ps : List Pixel) : Run := if ps = [] then .none else .lit ps

/-- The run that counts `k` equal pixels (10_state R24). -/
def Run.ofCount : Nat → Run
  | 0 => .none
  | k + 1 => .rep (k + 1)

theorem Run.ofPending_snoc (ps : List Pixel) (p : Pixel) : Run.ofPending (ps ++ [p]) = .lit (ps ++ [p]) :=
  if_neg (by simp)

theorem Run.compare_ofPending_equal (ps : List Pixel) (p : Pixel) :
    (Run.ofPending ps).compare p p = (.rep 1, flushPending ps) := by
  by_cases h : ps = [] <;> simp [Run.ofPending, flushPending, Run.compare, h]

theorem Run.compare_ofPending_differ {p q : Pixel} (hne : p ≠ q) (ps : List Pixel) :
    (Run.ofPending ps).compare p q =
      if ps.length + 1 = 128 then (.none, [.lit (ps ++ [p])]) else (Run.ofPending (ps ++ [p]), []) := by
  rw [Run.ofPending_snoc]
  by_cases h : ps = []
  · simp [Run.ofPending, Run.compare, hne, h]
  · simp [Run.ofPending, Run.compare, hne, h]

theorem Run.close_ofPending (ps : List Pixel) (p : Pixel) :
    (Run.ofPending ps).close p = .lit (ps ++ [p]) := by
  by_cases h : ps = [] <;> simp [Run.ofPending, Run.close, h]

theorem Run.compare_ofCount_equal (k : Nat) (p : Pixel) :
    (Run.ofCount k).compare p p =
      if k + 1 = 128 then (.none, [.rep 128 p]) else (Run.ofCount (k + 1), []) := by
  cases k <;> simp [Run.ofCount, Run.compare]

/-! ### A block of equal pixels -/

/-- The entries from a pixel boundary on, with the pending literal pixels before it: at the end of the row
what is pending goes out (41_rle_encode R160). -/
def entriesAfter (pending : List Pixel) : List Pixel → List Instr
  | [] => flushPending pending
  | p :: ps => rowEntriesFrom (Run.ofPending pending) p ps

theorem blockRepeats_one (p : Pixel) : blockRepeats p 1 = [] := rfl

theorem blockLoose_one (p : Pixel) : blockLoose p 1 = [p] := rfl

/-- Up to the cap a block of 2 pixels or more is one entry (41_rle_encode R160). -/
theorem blockRepeats_of_le {L : Nat} (h : 2 ≤ L) (hcap : L ≤ 128) (p : Pixel) :
    blockRepeats p L = [.rep L p] := by
  have hdiv : (L - 1) / 128 = 0 := by omega
  have hmod : (L - 1) % 128 = L - 1 := by omega
  have hne : L - 1 ≠ 0 := by omega
  have hL : L - 1 + 1 = L := by omega
  rw [blockRepeats, hdiv, hmod, if_neg hne, hL, List.replicate_zero, List.nil_append]

theorem blockLoose_of_le {L : Nat} (h : 2 ≤ L) (hcap : L ≤ 128) (p : Pixel) : blockLoose p L = [] :=
  if_neg (by rw [maxRun_eq]; omega)

/-- Past the cap a block begins with a full entry (41_rle_encode R160). -/
theorem blockRepeats_add_cap {L : Nat} (h : 1 ≤ L) (p : Pixel) :
    blockRepeats p (128 + L) = .rep 128 p :: blockRepeats p L := by
  have hdiv : (128 + L - 1) / 128 = (L - 1) / 128 + 1 := by omega
  have hmod : (128 + L - 1) % 128 = (L - 1) % 128 := by omega
  simp only [blockRepeats, maxRun_eq, hdiv, hmod, List.replicate_succ, List.cons_append]

theorem blockLoose_add_cap {L : Nat} (h : 1 ≤ L) (p : Pixel) :
    blockLoose p (128 + L) = blockLoose p L := by
  have hmod : (128 + L - 1) % 128 = (L - 1) % 128 := by omega
  simp only [blockLoose, maxRun_eq, hmod]

theorem blockRepeats_ne_nil {L : Nat} (h : 2 ≤ L) (p : Pixel) : blockRepeats p L ≠ [] := by
  by_cases hcap : L ≤ 128
  · simp [blockRepeats_of_le h hcap]
  · obtain ⟨L', rfl⟩ : ∃ L', L = 128 + L' := Nat.exists_eq_add_of_le (by omega)
    simp [blockRepeats_add_cap (show 1 ≤ L' by omega)]

/-- A pixel that the rest of the row does not begin with differs from its successor. -/
theorem ne_of_head? {p q : Pixel} {tail : List Pixel} (h : (q :: tail).head? ≠ some p) : p ≠ q :=
  fun heq => h (congrArg some heq.symm)

/-- A loose pixel joins the pending literal run, which goes out at the cap (41_rle_encode R147, R160). -/
theorem entriesAfter_loose {pending : List Pixel} {p : Pixel} {tail : List Pixel}
    (hend : tail.head? ≠ some p) :
    entriesAfter pending (p :: tail) =
      if (pending ++ [p]).length = 128 then .lit (pending ++ [p]) :: entriesAfter [] tail
      else entriesAfter (pending ++ [p]) tail := by
  rw [entriesAfter, List.length_append, List.length_singleton]
  cases tail with
  | nil => simp [rowEntriesFrom, entriesAfter, Run.close_ofPending, flushPending]
  | cons q tail =>
    rw [rowEntriesFrom, Run.compare_ofPending_differ (ne_of_head? hend)]
    split
    · rfl
    · rfl

/-- The last pixel of a block goes into the repeat run counted so far; with none counted it is loose
(41_rle_encode R146, R147, R150). -/
theorem rowEntriesFrom_ofCount_last {k : Nat} (hk : k ≤ 127) {p : Pixel} {tail : List Pixel}
    (hend : tail.head? ≠ some p) :
    rowEntriesFrom (Run.ofCount k) p tail =
      blockRepeats p (k + 1) ++ entriesAfter (blockLoose p (k + 1)) tail := by
  cases k with
  | zero =>
    have hloose := entriesAfter_loose (pending := []) hend
    rwa [if_neg (by simp)] at hloose
  | succ k =>
    rw [blockRepeats_of_le (by omega) (by omega), blockLoose_of_le (by omega) (by omega)]
    cases tail with
    | nil => rfl
    | cons q tail =>
      have hne : p ≠ q := ne_of_head? hend
      simp [rowEntriesFrom, entriesAfter, Run.ofCount, Run.compare, Run.ofPending, hne]

/-- With `k` equal pixels counted, `m + 1` more that end their block are emitted as one block of all of
them (41_rle_encode R149, R160). -/
theorem rowEntriesFrom_ofCount {k : Nat} (hk : k ≤ 127) (m : Nat) {p : Pixel} {tail : List Pixel}
    (hend : tail.head? ≠ some p) :
    rowEntriesFrom (Run.ofCount k) p (List.replicate m p ++ tail) =
      blockRepeats p (k + (m + 1)) ++ entriesAfter (blockLoose p (k + (m + 1))) tail := by
  induction m generalizing k with
  | zero => exact rowEntriesFrom_ofCount_last hk hend
  | succ m ih =>
    rw [List.replicate_succ, List.cons_append, rowEntriesFrom, Run.compare_ofCount_equal]
    by_cases hcap : k + 1 = 128
    · have hsum : k + (m + 1 + 1) = 128 + (m + 1) := by omega
      have hzero := ih (k := 0) (by omega)
      rw [Nat.zero_add, Run.ofCount] at hzero
      rw [if_pos hcap, hsum, blockRepeats_add_cap (by omega), blockLoose_add_cap (by omega), hzero]
      rfl
    · have hsum : k + (m + 1 + 1) = k + 1 + (m + 1) := by omega
      rw [if_neg hcap, hsum, ih (by omega), List.nil_append]

/-- A block of 2 pixels or more: what is pending goes out, then the block's entries (41_rle_encode R148,
R160). -/
theorem entriesAfter_block (pending : List Pixel) (m : Nat) {p : Pixel} {tail : List Pixel}
    (hend : tail.head? ≠ some p) :
    entriesAfter pending (List.replicate (m + 2) p ++ tail) =
      flushPending pending ++ blockRepeats p (m + 2) ++ entriesAfter (blockLoose p (m + 2)) tail := by
  have hrun := rowEntriesFrom_ofCount (k := 1) (by decide) m hend
  rw [Nat.add_comm 1 (m + 1), Run.ofCount] at hrun
  rw [List.replicate_succ, List.replicate_succ, List.cons_append, List.cons_append, entriesAfter,
    rowEntriesFrom, Run.compare_ofPending_equal, hrun, List.append_assoc]

/-! ### The maximal equal runs of a row -/

/-- The pixels of a list of equal runs. -/
def runsPixels (runs : List (Pixel × Nat)) : List Pixel := runs.flatMap fun r => List.replicate r.2 r.1

theorem runsPixels_cons (p : Pixel) (L : Nat) (rest : List (Pixel × Nat)) :
    runsPixels ((p, L) :: rest) = List.replicate L p ++ runsPixels rest := rfl

/-- No run is empty, and none goes on into the next (41_rle_encode R160). -/
def MaximalRuns : List (Pixel × Nat) → Prop
  | [] => True
  | (p, L) :: rest => 1 ≤ L ∧ (runsPixels rest).head? ≠ some p ∧ MaximalRuns rest

theorem consEqualRun_spec (p : Pixel) {runs : List (Pixel × Nat)} (h : MaximalRuns runs) :
    MaximalRuns (consEqualRun p runs) ∧ runsPixels (consEqualRun p runs) = p :: runsPixels runs := by
  cases runs with
  | nil => exact ⟨⟨le_rfl, nofun, trivial⟩, rfl⟩
  | cons r rest =>
    obtain ⟨q, L⟩ := r
    obtain ⟨hL, hend, hrest⟩ := h
    by_cases hpq : p = q
    · rw [consEqualRun, if_pos hpq]
      subst hpq
      exact ⟨⟨by omega, hend, hrest⟩, rfl⟩
    · rw [consEqualRun, if_neg hpq]
      refine ⟨⟨le_rfl, ?_, hL, hend, hrest⟩, rfl⟩
      obtain ⟨L, rfl⟩ := Nat.exists_eq_add_one.2 hL
      simpa [runsPixels_cons, List.replicate_succ] using Ne.symm hpq

/-- The runs that `equalRuns` lists are maximal, and they are the row (41_rle_encode R160). -/
theorem equalRuns_spec (row : List Pixel) :
    MaximalRuns (equalRuns row) ∧ runsPixels (equalRuns row) = row := by
  induction row with
  | nil => exact ⟨trivial, rfl⟩
  | cons p ps ih =>
    obtain ⟨hmax, hpixels⟩ := ih
    obtain ⟨hmax', hpixels'⟩ := consEqualRun_spec p hmax
    exact ⟨hmax', by rw [equalRuns, hpixels', hpixels]⟩

/-- Run by run the step rules emit what the closed form says (41_rle_encode R160). -/
theorem entriesAfter_runsPixels {runs : List (Pixel × Nat)} (h : MaximalRuns runs)
    (pending : List Pixel) : entriesAfter pending (runsPixels runs) = closedEntries pending runs := by
  induction runs generalizing pending with
  | nil => rfl
  | cons r rest ih =>
    obtain ⟨p, L⟩ := r
    obtain ⟨hL, hend, hrest⟩ := h
    rw [runsPixels_cons, closedEntries]
    match L, hL with
    | 1, _ =>
      rw [if_pos (blockRepeats_one p), blockLoose_one, ← ih hrest, ← ih hrest]
      exact entriesAfter_loose hend
    | m + 2, _ =>
      rw [if_neg (blockRepeats_ne_nil (by omega) p), ← ih hrest]
      exact entriesAfter_block pending m hend

/-- Settles O30: the row is its maximal equal runs, and the step rules emit each as the closed form
does. -/
theorem closedFormIsTheEncoder : Obligations.ClosedFormIsTheEncoder := by
  unfold Obligations.ClosedFormIsTheEncoder
  intro row hne
  obtain ⟨p, ps, rfl⟩ := List.exists_cons_of_ne_nil hne
  obtain ⟨hmax, hpixels⟩ := equalRuns_spec (p :: ps)
  rw [closedRowEntries, ← entriesAfter_runsPixels hmax, hpixels]
  rfl

/-! ### The extreme rows -/

/-- A row of identical pixels is one block (41_rle_encode R157). -/
theorem rowEntries_replicate {W : Nat} (hW : 1 ≤ W) (p : Pixel) :
    rowEntries (List.replicate W p) =
      .ok (List.replicate ((W - 1) / 128) (.rep 128 p) ++
        [if (W - 1) % 128 = 0 then .lit [p] else .rep ((W - 1) % 128 + 1) p]) := by
  obtain ⟨m, rfl⟩ := Nat.exists_eq_add_one.2 hW
  have hblock := rowEntriesFrom_ofCount (k := 0) (by decide) m (p := p) (tail := []) nofun
  rw [Run.ofCount, List.append_nil, Nat.zero_add] at hblock
  rw [List.replicate_succ, rowEntries_cons, hblock, blockRepeats, blockLoose, List.append_assoc]
  split
  · rfl
  · rfl

theorem ceilDiv_pos {a : Nat} (h : 1 ≤ a) : ceilDiv a 128 = (a - 1) / 128 + 1 := by
  rw [ceilDiv]
  omega

theorem literalChunks_nil (fuel : Nat) : literalChunks fuel [] = [] := by cases fuel <;> rfl

theorem literalChunks_of_ne {row : List Pixel} (h : row ≠ []) (fuel : Nat) :
    literalChunks (fuel + 1) row = .lit (row.take 128) :: literalChunks fuel (row.drop 128) := if_neg h

theorem literalChunks_length {fuel : Nat} {row : List Pixel} (h : row.length ≤ fuel) :
    (literalChunks fuel row).length = ceilDiv row.length 128 := by
  induction fuel generalizing row with
  | zero => rw [List.length_eq_zero_iff.1 (Nat.le_zero.1 h)]; rfl
  | succ fuel ih =>
    by_cases hne : row = []
    · subst hne
      rfl
    · have hpos := List.length_pos_iff.2 hne
      rw [literalChunks_of_ne hne, List.length_cons, ih (by rw [List.length_drop]; omega),
        List.length_drop, ceilDiv, ceilDiv]
      omega

/-- Where no two adjacent pixels are equal, every pixel joins the pending literal run (41_rle_encode
R157). -/
theorem rowEntriesFrom_of_adjacentDiffer {pending : List Pixel} {cur : Pixel} {rest : List Pixel}
    (hd : AdjacentDiffer (cur :: rest)) (hpending : pending.length ≤ 127) {fuel : Nat}
    (hfuel : (pending ++ cur :: rest).length ≤ fuel) :
    rowEntriesFrom (Run.ofPending pending) cur rest = literalChunks fuel (pending ++ cur :: rest) := by
  induction rest generalizing pending cur fuel with
  | nil =>
    obtain ⟨fuel, rfl⟩ : ∃ k, fuel = k + 1 := Nat.exists_eq_add_one.2 (by simp at hfuel; omega)
    have hlen : (pending ++ [cur]).length ≤ 128 := by simp; omega
    rw [rowEntriesFrom, Run.close_ofPending, literalChunks_of_ne (by simp),
      List.take_of_length_le hlen, List.drop_of_length_le hlen, literalChunks_nil]
  | cons nxt rest ih =>
    obtain ⟨hne, hd⟩ := hd
    have hsplit : pending ++ cur :: nxt :: rest = (pending ++ [cur]) ++ nxt :: rest := by simp
    rw [hsplit] at hfuel ⊢
    rw [rowEntriesFrom, Run.compare_ofPending_differ hne]
    by_cases hcap : pending.length + 1 = 128
    · obtain ⟨fuel, rfl⟩ : ∃ k, fuel = k + 1 := Nat.exists_eq_add_one.2 (by simp at hfuel; omega)
      have hlen : (pending ++ [cur]).length = 128 := by simpa using hcap
      have hrest := ih (pending := []) (fuel := fuel) hd (by simp) (by simp at hfuel ⊢; omega)
      rw [if_pos hcap, literalChunks_of_ne (by simp), List.take_left' hlen, List.drop_left' hlen]
      exact congrArg _ hrest
    · rw [if_neg hcap]
      exact ih hd (by simp; omega) hfuel

/-- A row in which every adjacent pair differs is cut into literal entries (41_rle_encode R157). -/
theorem rowEntries_of_adjacentDiffer {row : List Pixel} (hne : row ≠ []) (hd : AdjacentDiffer row) :
    rowEntries row = .ok (literalChunks row.length row) := by
  obtain ⟨p, ps, rfl⟩ := List.exists_cons_of_ne_nil hne
  rw [rowEntries_cons]
  exact congrArg _ (rowEntriesFrom_of_adjacentDiffer (pending := []) hd (by simp) le_rfl)

/-- Settles O27: identical pixels are one block, and where neighbours differ every pixel is loose. -/
theorem entriesOfTheExtremeRows : Obligations.EntriesOfTheExtremeRows := by
  unfold Obligations.EntriesOfTheExtremeRows
  refine ⟨fun W p hW => ⟨_, rowEntries_replicate hW p, ?_, rfl⟩, fun row hne hd =>
    ⟨_, rowEntries_of_adjacentDiffer hne hd, literalChunks_length le_rfl, rfl⟩⟩
  rw [ceilDiv_pos hW, List.length_append, List.length_replicate, List.length_singleton]

end Sys2Proof.Machine
end

section
/-! SUPPORT. The size of an encoded row and body (41_rle_encode R163). -/

namespace Sys2Proof.Machine

/-! ### The upper bound -/

/-- The size of `n` pixels as literal entries, all but the last one full: the upper bound of a row
(41_rle_encode R163). -/
def literalSize (n : Nat) : Nat := 3 * n + ceilDiv n 128

theorem literalSize_of_le {n : Nat} (hpos : 1 ≤ n) (hcap : n ≤ 128) : literalSize n = 3 * n + 1 := by
  rw [literalSize, ceilDiv]
  omega

theorem literalSize_add_cap (n : Nat) : literalSize (128 + n) = 385 + literalSize n := by
  rw [literalSize, literalSize, ceilDiv, ceilDiv]
  omega

/-- Each pixel more adds three bytes at least. -/
theorem literalSize_add_le (m n : Nat) : 3 * m + literalSize n ≤ literalSize (m + n) := by
  rw [literalSize, literalSize, ceilDiv, ceilDiv]
  omega

theorem encode_lit_length (ps : List Pixel) : (encode (.lit ps)).length = 3 * ps.length + 1 := by
  rw [encode_length, Instr.payloadLength, pixelBytes_eq, Nat.add_comm]

theorem encode_rep_length (n : Nat) (p : Pixel) : (encode (.rep n p)).length = 4 := rfl

theorem flushPending_encode_length_le (pending : List Pixel) :
    (encodeAll (flushPending pending)).length ≤ 3 * pending.length + 1 := by
  rw [flushPending]
  split
  · simp
  · rw [encodeAll_singleton, encode_lit_length]

/-- The size of what the step rules emit from `cur` on. -/
def sizeFrom (run : Run) (cur : Pixel) (rest : List Pixel) : Nat :=
  (encodeAll (rowEntriesFrom run cur rest)).length

theorem sizeFrom_nil (run : Run) (cur : Pixel) : sizeFrom run cur [] = (encode (run.close cur)).length := by
  rw [sizeFrom, rowEntriesFrom, encodeAll_singleton]

theorem sizeFrom_cons (run : Run) (cur nxt : Pixel) (rest : List Pixel) :
    sizeFrom run cur (nxt :: rest) =
      (encodeAll (run.compare cur nxt).2).length + sizeFrom (run.compare cur nxt).1 nxt rest := by
  rw [sizeFrom, rowEntriesFrom, encodeAll_append, List.length_append, sizeFrom]

/-- From `cur` on a repeat run of `k` pixels saves two bytes or more of the bound, which pay for the
literal run cut off before it (41_rle_encode R163). -/
def RepeatSaves (cur : Pixel) (rest : List Pixel) : Prop :=
  ∀ k, 1 ≤ k → k ≤ 127 → sizeFrom (.rep k) cur rest + 2 ≤ literalSize (k + (rest.length + 1))

/-- From `cur` on a pending literal run keeps to the bound, and reaches it exactly where no two adjacent
pixels are equal (41_rle_encode R163). -/
def LiteralBound (cur : Pixel) (rest : List Pixel) : Prop :=
  ∀ pending : List Pixel, pending.length ≤ 127 →
    sizeFrom (Run.ofPending pending) cur rest ≤ literalSize (pending.length + (rest.length + 1)) ∧
      (sizeFrom (Run.ofPending pending) cur rest = literalSize (pending.length + (rest.length + 1)) ↔
        AdjacentDiffer (cur :: rest))

theorem LiteralBound.none_le {cur : Pixel} {rest : List Pixel} (h : LiteralBound cur rest) :
    sizeFrom .none cur rest ≤ literalSize (rest.length + 1) := by
  simpa [Run.ofPending] using (h [] (by simp)).1

theorem repeatSaves_nil (cur : Pixel) : RepeatSaves cur [] := by
  intro k hpos hle
  rw [sizeFrom_nil, Run.close, encode_rep_length, List.length_nil,
    literalSize_of_le (by omega) (by omega)]
  omega

theorem literalBound_nil (cur : Pixel) : LiteralBound cur [] := by
  intro pending hle
  have hsize : sizeFrom (Run.ofPending pending) cur [] = literalSize (pending.length + 1) := by
    rw [sizeFrom_nil, Run.close_ofPending, encode_lit_length, List.length_append,
      List.length_singleton, literalSize_of_le (by omega) (by omega)]
  exact ⟨hsize.le, iff_of_true hsize trivial⟩

/-- A repeat run that is flushed with `cur` costs four bytes for two pixels or more. -/
theorem repeatSaves_of_flush {k : Nat} {nxt : Pixel} {rest : List Pixel} (hpos : 1 ≤ k)
    (hnxt : LiteralBound nxt rest) :
    4 + sizeFrom .none nxt rest + 2 ≤ literalSize (k + (rest.length + 1 + 1)) := by
  have hle := hnxt.none_le
  have hadd := literalSize_add_le (k + 1) (rest.length + 1)
  have hsum : k + 1 + (rest.length + 1) = k + (rest.length + 1 + 1) := by omega
  rw [hsum] at hadd
  omega

theorem repeatSaves_cons {nxt : Pixel} {rest : List Pixel} (cur : Pixel) (hrep : RepeatSaves nxt rest)
    (hlit : LiteralBound nxt rest) : RepeatSaves cur (nxt :: rest) := by
  intro k hpos hle
  rw [sizeFrom_cons, List.length_cons]
  by_cases heq : cur = nxt
  · by_cases hcap : k + 1 = 128
    · simpa [Run.compare, heq, hcap, Instr.payloadLength] using repeatSaves_of_flush hpos hlit
    · have hnext := hrep (k + 1) (by omega) (by omega)
      have hsum : k + 1 + (rest.length + 1) = k + (rest.length + 1 + 1) := by omega
      rw [hsum] at hnext
      simpa [Run.compare, heq, hcap] using hnext
  · simpa [Run.compare, heq, Instr.payloadLength] using repeatSaves_of_flush hpos hlit

/-- Where `cur` has an equal successor the literal run is cut off, and the row stays below the bound. -/
theorem sizeFrom_equal_lt {p : Pixel} {rest : List Pixel} (hrep : RepeatSaves p rest)
    (pending : List Pixel) :
    sizeFrom (Run.ofPending pending) p (p :: rest) < literalSize (pending.length + (rest.length + 1 + 1)) := by
  have hrun := hrep 1 le_rfl (by decide)
  have hflush := flushPending_encode_length_le pending
  have hadd := literalSize_add_le pending.length (rest.length + 1 + 1)
  rw [Nat.add_comm 1 (rest.length + 1)] at hrun
  rw [sizeFrom_cons, Run.compare_ofPending_equal]
  dsimp only
  omega

/-- A pixel that differs from its successor joins the literal run, at the cost the bound allows. -/
theorem literalBound_differ {cur nxt : Pixel} {rest : List Pixel} (hne : cur ≠ nxt)
    (hlit : LiteralBound nxt rest) : LiteralBound cur (nxt :: rest) := by
  intro pending hle
  have hdiffer : AdjacentDiffer (cur :: nxt :: rest) ↔ AdjacentDiffer (nxt :: rest) := and_iff_right hne
  rw [hdiffer, sizeFrom_cons, Run.compare_ofPending_differ hne, List.length_cons]
  by_cases hcap : pending.length + 1 = 128
  · obtain ⟨hbound, hiff⟩ := hlit [] (by simp)
    rw [List.length_nil, Nat.zero_add] at hbound hiff
    have hsum : pending.length + (rest.length + 1 + 1) = 128 + (rest.length + 1) := by omega
    have hcost : (encode (.lit (pending ++ [cur]))).length = 385 := by
      rw [encode_lit_length, List.length_append, List.length_singleton, hcap]
    rw [if_pos hcap, hsum, literalSize_add_cap, encodeAll_singleton, hcost, ← hiff]
    exact ⟨Nat.add_le_add_left hbound 385, Nat.add_left_cancel_iff⟩
  · have hnext := hlit (pending ++ [cur]) (by simp; omega)
    have hsum : (pending ++ [cur]).length + (rest.length + 1) =
        pending.length + (rest.length + 1 + 1) := by simp; omega
    rw [hsum] at hnext
    rw [if_neg hcap, encodeAll_nil, List.length_nil, Nat.zero_add]
    exact hnext

theorem literalBound_equal {p : Pixel} {rest : List Pixel} (hrep : RepeatSaves p rest) :
    LiteralBound p (p :: rest) := by
  intro pending hle
  have hlt := sizeFrom_equal_lt hrep pending
  exact ⟨hlt.le, iff_of_false hlt.ne fun hd => hd.1 rfl⟩

/-- Both bounds hold from every pixel of a row on (41_rle_encode R163). -/
theorem repeatSaves_and_literalBound (cur : Pixel) (rest : List Pixel) :
    RepeatSaves cur rest ∧ LiteralBound cur rest := by
  induction rest generalizing cur with
  | nil => exact ⟨repeatSaves_nil cur, literalBound_nil cur⟩
  | cons nxt rest ih =>
    obtain ⟨hrep, hlit⟩ := ih nxt
    refine ⟨repeatSaves_cons cur hrep hlit, ?_⟩
    by_cases heq : cur = nxt
    · subst heq
      exact literalBound_equal hrep
    · exact literalBound_differ heq hlit

/-- An encoded row has at most the size of its pixels as literal entries, and that size exactly where no
two adjacent pixels are equal (41_rle_encode R163). -/
theorem encodeRow_length_le {row : List Pixel} {bytes : List Byte} (h : encodeRow row = .ok bytes) :
    bytes.length ≤ literalSize row.length ∧
      (bytes.length = literalSize row.length ↔ AdjacentDiffer row) := by
  cases row with
  | nil => cases h
  | cons p ps =>
    obtain rfl := OpResult.ok.inj h
    have hbound := (repeatSaves_and_literalBound p ps).2 [] (by simp)
    rw [List.length_nil, Nat.zero_add] at hbound
    exact hbound

/-! ### The lower bound -/

theorem EmittedEntry.four_le_length {e : Instr} (h : EmittedEntry e) : 4 ≤ (encode e).length := by
  obtain ⟨hpos, -, -⟩ := h
  cases e with
  | lit ps =>
    rw [Instr.runLength] at hpos
    rw [encode_lit_length]
    omega
  | rep n p => exact (encode_rep_length n p).ge

/-- Each entry has four bytes at least and stands for 128 pixels at most (41_rle_encode R156, R163). -/
theorem entry_count_bounds {entries : List Instr} (h : ∀ e ∈ entries, EmittedEntry e) :
    4 * entries.length ≤ (encodeAll entries).length ∧
      totalRunLength entries ≤ 128 * entries.length := by
  induction entries with
  | nil => exact ⟨le_rfl, le_rfl⟩
  | cons e es ih =>
    obtain ⟨he, hes⟩ := List.forall_mem_cons.1 h
    obtain ⟨hbytes, hpixels⟩ := ih hes
    have hfour := he.four_le_length
    obtain ⟨-, hcap, -⟩ := he
    rw [encodeAll_cons, List.length_append, totalRunLength_cons, List.length_cons]
    exact ⟨by omega, by omega⟩

theorem length_encodeAll_ge {entries : List Instr} (h : ∀ e ∈ entries, EmittedEntry e) :
    4 * ceilDiv (totalRunLength entries) 128 ≤ (encodeAll entries).length := by
  obtain ⟨hbytes, hpixels⟩ := entry_count_bounds h
  rw [ceilDiv]
  omega

theorem encodeRow_length_ge {row : List Pixel} {bytes : List Byte} (h : encodeRow row = .ok bytes) :
    4 * ceilDiv row.length 128 ≤ bytes.length := by
  obtain ⟨entries, hok, rfl⟩ := encodeRow_eq_ok h
  rw [← totalRunLength_of_rowEntries hok]
  exact length_encodeAll_ge (rowEntries_eq_ok hok).1

theorem encodeAll_replicate_rep_length (k n : Nat) (p : Pixel) :
    (encodeAll (List.replicate k (.rep n p))).length = 4 * k := by
  induction k with
  | zero => rfl
  | succ k ih =>
    rw [List.replicate_succ, encodeAll_cons, List.length_append, encode_rep_length, ih]
    omega

/-- The entries of identical pixels have four bytes each (41_rle_encode R157, R163). -/
theorem encodeRow_replicate_length {W : Nat} {p : Pixel} {bytes : List Byte}
    (h : encodeRow (List.replicate W p) = .ok bytes) : bytes.length = 4 * ceilDiv W 128 := by
  have hW : 1 ≤ W := by
    rcases Nat.eq_zero_or_pos W with rfl | hpos
    · cases h
    · exact hpos
  rw [encodeRow_of_rowEntries (rowEntries_replicate hW p)] at h
  obtain rfl := OpResult.ok.inj h
  rw [encodeAll_append, List.length_append, encodeAll_replicate_rep_length, encodeAll_singleton,
    ceilDiv_pos hW, Nat.mul_succ]
  split
  · rfl
  · rfl

/-! ### The body -/

/-- Rows of one width keep to as many times the bound of a row (41_rle_encode R163). -/
theorem encodeRows_length_le {W : Nat} {rows : List (List Pixel)} {bytes : List Byte}
    (hwidth : ∀ row ∈ rows, row.length = W) (h : encodeRows rows = .ok bytes) :
    bytes.length ≤ rows.length * literalSize W := by
  induction rows generalizing bytes with
  | nil =>
    obtain rfl := OpResult.ok.inj h
    exact Nat.zero_le _
  | cons row rows ih =>
    obtain ⟨hrow, hrows⟩ := List.forall_mem_cons.1 hwidth
    obtain ⟨a, b, ha, hb, rfl⟩ := encodeRows_eq_ok_cons.1 h
    have hle := (encodeRow_length_le ha).1
    rw [hrow] at hle
    rw [List.length_append, List.length_cons, Nat.succ_mul, Nat.add_comm]
    exact Nat.add_le_add (ih hrows hb) hle

/-- Settles O33: a repeat run saves more than the literal entry it cuts off costs, and an entry of four
bytes holds at most 128 pixels. -/
theorem encodedSizeBound : Obligations.EncodedSizeBound := by
  unfold Obligations.EncodedSizeBound
  refine ⟨fun row bytes h => ?_, fun cfg grid W H body h => ?_⟩
  · obtain ⟨hle, hiff⟩ := encodeRow_length_le h
    refine ⟨hle, hiff, encodeRow_length_ge h, fun p hrow => ?_⟩
    rw [hrow] at h
    exact encodeRow_replicate_length h
  · obtain ⟨-, hlen, hrows⟩ := encodeBody_eq_ok.1 h
    obtain ⟨hcount, hwidth, -⟩ := gridRows_spec hlen
    have hle := encodeRows_length_le hwidth hrows
    rw [hcount] at hle
    exact hle

end Sys2Proof.Machine
end

section
/-! SUPPORT. A whole step of `RDEC` on the run entry at its cursor, by the entry's meaning (42_rle_decode
R172 to R178). -/

namespace Sys2Proof.Machine

/-! ### The meaning of an entry, by its conditions -/

/-- A payload that is cut is found before an overshoot (42_rle_decode R175, R217). -/
theorem exec_of_cut {i : Instr} {s : State} (hcut : s.rdec.blen < s.rdec.cursor + i.payloadLength) :
    exec i s = .next (raise .unexpectedEndOfData s) := by
  rcases exec_cases i s with ⟨-, hx⟩ | ⟨hfit, -⟩ | ⟨hfit, -⟩
  · exact hx
  · exact absurd hcut (Nat.not_lt.2 hfit)
  · exact absurd hcut (Nat.not_lt.2 hfit)

theorem exec_of_overshoot {i : Instr} {s : State} (hfit : s.rdec.cursor + i.payloadLength ≤ s.rdec.blen)
    (hover : s.rdec.total < s.rdec.emitted + i.runLength) :
    exec i s = .next (raise .sizeMismatch s) := by
  rcases exec_cases i s with ⟨hcut, -⟩ | ⟨-, -, hx⟩ | ⟨-, hroom, -⟩
  · exact absurd hcut (Nat.not_lt.2 hfit)
  · exact hx
  · exact absurd hover (Nat.not_lt.2 hroom)

theorem exec_of_fits {i : Instr} {s : State} (hfit : s.rdec.cursor + i.payloadLength ≤ s.rdec.blen)
    (hroom : s.rdec.emitted + i.runLength ≤ s.rdec.total) :
    exec i s = .next (entryEffect i s) := by
  rcases exec_cases i s with ⟨hcut, -⟩ | ⟨-, hover, -⟩ | ⟨-, -, hx⟩
  · exact absurd hcut (Nat.not_lt.2 hfit)
  · exact absurd hover (Nat.not_lt.2 hroom)
  · exact hx

theorem entryEffect_lit (ps : List Pixel) (s : State) :
    entryEffect (.lit ps) s = s.afterEntry s.rdec ps (3 * ps.length) := rfl

theorem entryEffect_rep (n : Nat) (p : Pixel) (s : State) :
    entryEffect (.rep n p) s = s.afterEntry { s.rdec with pix := p } (List.replicate n p) 3 := rfl

/-- An entry's pc counts from its control byte (42_rle_decode R176, R177). -/
theorem afterEntry_fetched (s : State) (c : Byte) (r : Rdec) (ps : List Pixel) (need : Nat) :
    (s.fetched c).afterEntry r ps need = s.afterEntry r ps (1 + need) := by
  simp [State.afterEntry, State.fetched, Nat.add_assoc]

/-- Settles O8: both checks pass, and the effect of `LIT` is as stated. -/
theorem litCompletesWithItsPixels : Obligations.LitCompletesWithItsPixels := by
  unfold Obligations.LitCompletesWithItsPixels
  intro ps s hfit hroom
  rw [← entryEffect_lit]
  exact exec_of_fits hfit hroom

/-- Settles O9: both checks pass, and the effect of `REP` is as stated. -/
theorem repCompletesWithItsPixel : Obligations.RepCompletesWithItsPixel := by
  unfold Obligations.RepCompletesWithItsPixel
  intro n p s hfit hroom
  rw [← entryEffect_rep]
  exact exec_of_fits hfit hroom

/-- Settles O10: the payload is checked first. -/
theorem entryErrorsInOrder : Obligations.EntryErrorsInOrder := by
  unfold Obligations.EntryErrorsInOrder
  exact fun i s => ⟨exec_of_cut, exec_of_overshoot⟩

/-! ### A step at an entry boundary -/

theorem step_of_fetchesEntry {s : State} (h : s.FetchesEntry) : step s = entryStep s := by
  obtain ⟨ha, hmore⟩ := h
  simp [step, stepWith, ha, rdecStep, morePixels, hmore]

theorem step_rdec_done {s : State} (ha : s.active = .rdec) (hdone : s.rdec.total ≤ s.rdec.emitted) :
    step s = .next (finish (.grid s.mem.grid) s) := by
  simp [step, stepWith, ha, rdecStep, morePixels, Nat.not_lt.2 hdone]

/-- The step is the meaning of the entry after the fetch of its control byte (42_rle_decode R172 to
R174). -/
theorem step_eq_exec {s : State} {c : Byte} {payload after : List Byte} {i : Instr} (h : s.FetchesEntry)
    (hu : s.unread = c :: payload) (hd : decode s.unread = .ok (i, after)) :
    step s = exec i (s.fetched c) := by
  rw [step_of_fetchesEntry h, entryStep, hd, ← latchControl_of_unread hu]

/-- Settles O7: the step fetches the control byte, then it runs the entry. -/
theorem stepRunsTheDecodedEntry : Obligations.StepRunsTheDecodedEntry := by
  unfold Obligations.StepRunsTheDecodedEntry
  exact fun s c payload after i => step_eq_exec

/-- An exhausted stream at an entry boundary is `SizeMismatch` (42_rle_decode R173). -/
theorem step_of_exhausted {s : State} (h : s.FetchesEntry) (hu : s.unread = []) :
    step s = .next (raise .sizeMismatch s) := by
  rw [step_of_fetchesEntry h, entryStep, hu, decode_nil]

/-- A payload that is cut is `UnexpectedEndOfData`, its control byte consumed (42_rle_decode R175). -/
theorem step_of_payloadCut {s : State} {c : Byte} {payload : List Byte} (h : s.FetchesEntry)
    (hu : s.unread = c :: payload) (hcut : payload.length < controlPayloadLength c) :
    step s = .next (raise .unexpectedEndOfData (s.fetched c)) := by
  rw [step_of_fetchesEntry h, entryStep, latchControl_of_unread hu, hu, decode_cons_payloadCut hcut]

/-- Settles O14: the unread bytes are those of `BODY` from the cursor on. -/
theorem fetchOfTheControlByte : Obligations.FetchOfTheControlByte := by
  unfold Obligations.FetchOfTheControlByte
  intro s h hb
  have hunread := unread_eq_drop hb
  constructor
  · intro hend
    exact step_of_exhausted h (hunread.trans (List.drop_of_length_le (hb ▸ hend)))
  · intro hmore
    rw [hb] at hmore
    have hcons := List.drop_eq_getElem_cons hmore
    refine ⟨_, ?_, latchControl_of_unread (hunread.trans hcons)⟩
    rw [memRead_eq hmore, hcons, List.take_succ_cons, List.take_zero]

/-! ### A step on an entry whose payload is there -/

/-- The entry at the cursor lies in the body (20_memory R66). -/
theorem payload_le_of_decode {s : State} {i : Instr} {after : List Byte}
    (hb : s.rdec.blen = s.mem.body.length) (hd : decode s.unread = .ok (i, after)) :
    s.rdec.cursor + 1 + i.payloadLength ≤ s.rdec.blen := by
  obtain ⟨-, hbytes⟩ := decode_eq_ok hd
  have hlen := congrArg List.length hbytes
  rw [unread_eq_drop hb, List.length_append, encode_length, List.length_drop, ← hb] at hlen
  omega

section
variable {s : State} {c : Byte} {payload after : List Byte} {i : Instr} (h : s.FetchesEntry)
  (hb : s.rdec.blen = s.mem.body.length) (hu : s.unread = c :: payload)
  (hd : decode s.unread = .ok (i, after))
include h hb hu hd

theorem step_of_room (hroom : s.rdec.emitted + i.runLength ≤ s.rdec.total) :
    step s = .next (entryEffect i (s.fetched c)) :=
  (step_eq_exec h hu hd).trans
    (exec_of_fits (s := s.fetched c) (payload_le_of_decode hb hd) hroom)

theorem step_of_overshoot (hover : s.rdec.total < s.rdec.emitted + i.runLength) :
    step s = .next (raise .sizeMismatch (s.fetched c)) :=
  (step_eq_exec h hu hd).trans
    (exec_of_overshoot (s := s.fetched c) (payload_le_of_decode hb hd) hover)

end

/-- Settles O12: the bytes at the cursor are those of the `LIT`, or its payload is cut. -/
theorem litStep : Obligations.LitStep := by
  unfold Obligations.LitStep
  intro s n h hb hpos hcap
  constructor
  · rintro ps after rfl hu
    have hd : decode s.unread = .ok (.lit ps, after) :=
      hu ▸ decode_encode_append ((wellFormed_iff (.lit ps)).2 ⟨hpos, hcap⟩) after
    rw [← afterEntry_fetched, ← entryEffect_lit]
    exact ⟨step_of_room h hb hu hd, step_of_overshoot h hb hu hd⟩
  · intro payload hshort hu
    obtain ⟨hkind, hrun⟩ := controlRunLength_litControl hpos hcap
    refine step_of_payloadCut h hu ?_
    simpa [controlPayloadLength, hkind, hrun] using hshort

/-- Settles O13: the bytes at the cursor are those of the `REP`, or its payload is cut. -/
theorem repStep : Obligations.RepStep := by
  unfold Obligations.RepStep
  intro s n h hb hpos hcap
  constructor
  · intro p after hu
    have hd : decode s.unread = .ok (.rep n p, after) :=
      hu ▸ decode_encode_append ((wellFormed_iff (.rep n p)).2 ⟨hpos, hcap⟩) after
    rw [← afterEntry_fetched _ _ _ _ 3, ← entryEffect_rep]
    exact ⟨step_of_room h hb hu hd, step_of_overshoot h hb hu hd⟩
  · intro payload hshort hu
    obtain ⟨hkind, -⟩ := controlRunLength_repControl hpos hcap
    refine step_of_payloadCut h hu ?_
    simpa [controlPayloadLength, hkind] using hshort

/-! ### Progress of the loop -/

/-- What a step before the total does: it ends the operation with an error, or it moves `emitted` and the pc
(42_rle_decode R172). -/
def EndsOrProgresses (s t : State) : Prop :=
  t.active = .idle ∧ (∃ kind, t.outcome = some (.err kind)) ∨
    t.active = .rdec ∧ s.rdec.emitted < t.rdec.emitted ∧ s.rdec.cursor < t.rdec.cursor

theorem endsOrProgresses_raise (s t : State) (kind : ErrorKind) : EndsOrProgresses s (raise kind t) :=
  .inl ⟨rfl, kind, rfl⟩

/-- A well-formed entry has at least one pixel, and it has a control byte (30_encoding R96). -/
theorem endsOrProgresses_entryEffect {i : Instr} (hwf : i.wellFormed = true) {s : State}
    (ha : s.active = .rdec) (c : Byte) : EndsOrProgresses s (entryEffect i (s.fetched c)) := by
  have hpos := ((wellFormed_iff i).1 hwf).1
  obtain ⟨hactive, -, -, -, -, hcursor, hemitted⟩ := entryEffect_frame i (s.fetched c)
  refine .inr ⟨hactive.trans ha, ?_, ?_⟩
  · rw [hemitted]
    exact Nat.lt_add_of_pos_right hpos
  · rw [hcursor]
    exact Nat.lt_of_lt_of_le (Nat.lt_succ_self _) (Nat.le_add_right _ _)

/-- Settles O15: a stream that is exhausted or cut and an overshoot end the operation, and an entry that
completes has at least one pixel. -/
theorem decodeLoopEndsAtTheTotal : Obligations.DecodeLoopEndsAtTheTotal := by
  unfold Obligations.DecodeLoopEndsAtTheTotal
  intro s ha hs
  refine ⟨step_rdec_done ha, fun hmore => ?_⟩
  have h : s.FetchesEntry := ⟨ha, hmore⟩
  obtain ⟨hb, -, -, -⟩ := (workInv_rdec ha).1 hs.work_inv
  cases hu : s.unread with
  | nil => exact ⟨_, step_of_exhausted h hu, endsOrProgresses_raise s _ _⟩
  | cons c payload =>
    cases hd : decode s.unread with
    | error e =>
      have hcut := (decode_cons_error (hu ▸ hd)).2
      exact ⟨_, step_of_payloadCut h hu hcut, endsOrProgresses_raise s _ _⟩
    | ok entry =>
      obtain ⟨i, after⟩ := entry
      by_cases hroom : s.rdec.emitted + i.runLength ≤ s.rdec.total
      · obtain ⟨hwf, -⟩ := decode_eq_ok hd
        exact ⟨_, step_of_room h hb hu hd hroom, endsOrProgresses_entryEffect hwf ha c⟩
      · have hover := Nat.lt_of_not_le hroom
        exact ⟨_, step_of_overshoot h hb hu hd hover, endsOrProgresses_raise s _ _⟩

end Sys2Proof.Machine
end

section
/-! SUPPORT. `DecodeBody` on any bytes: what a decode that succeeds has read, and how the decode
fails on entries that are cut short (42_rle_decode R170, R173, R175, R179, R187). -/

namespace Sys2Proof.Machine

/-! ### What the loop can do -/

/-- Pixels are missing and no byte is left (42_rle_decode R173). -/
theorem decodeLoop_of_noControlByte {total : Nat} {bytes : List Byte} {grid : List Pixel}
    (hmore : grid.length < total) (fuel : Nat) (hd : decode bytes = .error .noControlByte) :
    decodeLoop total (fuel + 1) bytes grid = .err .sizeMismatch := by
  simp only [decodeLoop, if_pos hmore, hd]

/-- Pixels are missing and the next entry's payload is cut (42_rle_decode R175). -/
theorem decodeLoop_of_payloadCut {total : Nat} {bytes : List Byte} {grid : List Pixel}
    (hmore : grid.length < total) (fuel : Nat) (hd : decode bytes = .error .payloadCut) :
    decodeLoop total (fuel + 1) bytes grid = .err .unexpectedEndOfData := by
  simp only [decodeLoop, if_pos hmore, hd]

/-- The loop at its test: it ends with an error, or with the grid at the total, or it goes on after an
entry whose pixels do not pass the total (42_rle_decode R172 to R178). -/
theorem decodeLoop_cases (total fuel : Nat) (bytes : List Byte) (grid : List Pixel) :
    (∃ kind, decodeLoop total fuel bytes grid = .err kind) ∨
    (total ≤ grid.length ∧ decodeLoop total fuel bytes grid = .ok (grid, bytes)) ∨
    (∃ k i rest, fuel = k + 1 ∧ i.wellFormed = true ∧ bytes = encode i ++ rest ∧
      grid.length + i.runLength ≤ total ∧
      decodeLoop total fuel bytes grid = decodeLoop total k rest (grid ++ i.pixels)) := by
  by_cases hmore : grid.length < total
  case neg => exact .inr (.inl ⟨Nat.le_of_not_lt hmore, decodeLoop_of_le (Nat.le_of_not_lt hmore) _ _⟩)
  cases fuel with
  | zero => exact .inl ⟨_, if_pos hmore⟩
  | succ k =>
    cases hd : decode bytes with
    | error e =>
      cases e with
      | noControlByte => exact .inl ⟨_, decodeLoop_of_noControlByte hmore k hd⟩
      | payloadCut => exact .inl ⟨_, decodeLoop_of_payloadCut hmore k hd⟩
    | ok entry =>
      obtain ⟨i, rest⟩ := entry
      obtain ⟨hwf, rfl⟩ := decode_eq_ok hd
      by_cases hroom : grid.length + i.runLength ≤ total
      · exact .inr (.inr ⟨k, i, rest, rfl, hwf, rfl, hroom, decodeLoop_encode_append hwf hroom k rest⟩)
      · refine .inl ⟨.sizeMismatch, ?_⟩
        simp only [decodeLoop, if_pos hmore, hd, if_pos (Nat.lt_of_not_le hroom)]

theorem decodeLoop_ne_refused (total fuel : Nat) (bytes : List Byte) (grid : List Pixel)
    (reason : Refusal) : decodeLoop total fuel bytes grid ≠ .refused reason := by
  induction fuel using Nat.strong_induction_on generalizing bytes grid with
  | _ fuel ih =>
    rcases decodeLoop_cases total fuel bytes grid with
      ⟨kind, h⟩ | ⟨-, h⟩ | ⟨k, i, rest, rfl, -, -, -, h⟩
    · rw [h]; nofun
    · rw [h]; nofun
    · rw [h]; exact ih k (Nat.lt_succ_self k) rest _

/-- A loop that ends with `OK` has read entries that bring the grid to the total (42_rle_decode R172). -/
theorem decodeLoop_eq_ok {total fuel : Nat} {bytes rest : List Byte} {grid grid' : List Pixel}
    (hle : grid.length ≤ total) (hok : decodeLoop total fuel bytes grid = .ok (grid', rest)) :
    ∃ entries : List Instr, (∀ e ∈ entries, e.wellFormed = true) ∧ bytes = encodeAll entries ++ rest ∧
      grid' = grid ++ allPixels entries ∧ grid.length + totalRunLength entries = total := by
  induction fuel using Nat.strong_induction_on generalizing bytes grid with
  | _ fuel ih =>
    rcases decodeLoop_cases total fuel bytes grid with
      ⟨kind, h⟩ | ⟨hge, h⟩ | ⟨k, i, rest', rfl, hwf, rfl, hroom, h⟩
    · cases h.symm.trans hok
    · cases h.symm.trans hok
      exact ⟨[], nofun, rfl, (List.append_nil _).symm, Nat.le_antisymm hle hge⟩
    · obtain ⟨entries, hwfs, rfl, rfl, hsum⟩ := ih k (Nat.lt_succ_self k)
        (by rwa [List.length_append, pixels_length]) (h.symm.trans hok)
      refine ⟨i :: entries, List.forall_mem_cons.2 ⟨hwf, hwfs⟩, ?_, ?_, ?_⟩
      · rw [encodeAll_cons, List.append_assoc]
      · rw [allPixels_cons, List.append_assoc]
      · rwa [totalRunLength_cons, ← Nat.add_assoc, ← pixels_length, ← List.length_append]

/-! ### A decode that succeeds -/

theorem decodeBodyRest_of_legal {cfg : Config} {W H : Word32} (h : LegalDims cfg W H) (body : List Byte) :
    decodeBodyRest cfg body W H = decodeLoop (pixelTotal W H) (pixelTotal W H) body [] := by
  rw [decodeBodyRest, show checkDims cfg W H = none from h]

theorem decodeBodyRest_of_not_legal {cfg : Config} {W H : Word32} (h : ¬ LegalDims cfg W H)
    (body : List Byte) : decodeBodyRest cfg body W H = .err .dimensionError := by
  obtain ⟨kind, hkind⟩ := Option.ne_none_iff_exists'.1 h
  obtain rfl := checkDims_eq_some hkind
  rw [decodeBodyRest, hkind]

/-- A decode succeeds exactly on legal dimensions and on entries of that many pixels, and leaves what
follows them (42_rle_decode R170, R179). -/
theorem decodeBodyRest_eq_ok {cfg : Config} {body rest : List Byte} {W H : Word32} {grid : List Pixel} :
    decodeBodyRest cfg body W H = .ok (grid, rest) ↔
      LegalDims cfg W H ∧ ∃ entries : List Instr, (∀ e ∈ entries, e.wellFormed = true) ∧
        body = encodeAll entries ++ rest ∧ grid = allPixels entries ∧
        totalRunLength entries = pixelTotal W H := by
  constructor
  · intro h
    by_cases hdims : LegalDims cfg W H
    case neg => cases (decodeBodyRest_of_not_legal hdims body).symm.trans h
    rw [decodeBodyRest_of_legal hdims] at h
    obtain ⟨entries, hwf, hbody, hgrid, hsum⟩ := decodeLoop_eq_ok (Nat.zero_le _) h
    exact ⟨hdims, entries, hwf, hbody, hgrid, (Nat.zero_add _).symm.trans hsum⟩
  · rintro ⟨hdims, entries, hwf, rfl, rfl, hsum⟩
    exact anyEntriesDecodeToTheirPixels cfg entries rest W H hdims hwf hsum

/-- Settles O16: the bytes used are those of the entries read, and these decode whatever follows. -/
theorem trailingBytesAreNotRead : Obligations.TrailingBytesAreNotRead := by
  unfold Obligations.TrailingBytesAreNotRead
  intro cfg body rest rest' W H grid h
  obtain ⟨hdims, entries, hwf, hbody, hgrid, hsum⟩ := decodeBodyRest_eq_ok.1 h
  exact ⟨_, hbody, decodeBodyRest_eq_ok.2 ⟨hdims, entries, hwf, rfl, hgrid, hsum⟩⟩

theorem decodeBodyRest_ne_refused (cfg : Config) (body : List Byte) (W H : Word32) (reason : Refusal) :
    decodeBodyRest cfg body W H ≠ .refused reason := by
  by_cases hdims : LegalDims cfg W H
  · rw [decodeBodyRest_of_legal hdims]
    exact decodeLoop_ne_refused _ _ _ _ reason
  · rw [decodeBodyRest_of_not_legal hdims]
    nofun

/-- Settles O18: the grid of a decode is the pixels of the entries read. -/
theorem decodeBodyGridIsExact : Obligations.DecodeBodyGridIsExact := by
  unfold Obligations.DecodeBodyGridIsExact
  intro cfg body W H
  constructor
  · intro reason h
    exact decodeBodyRest_ne_refused cfg body W H reason (OpResult.andThen_ok_eq_refused h)
  · intro grid h
    obtain ⟨⟨grid', rest⟩, hrest, hgrid⟩ := OpResult.andThen_eq_ok h
    obtain rfl := OpResult.ok.inj hgrid
    obtain ⟨-, entries, -, -, rfl, hsum⟩ := decodeBodyRest_eq_ok.1 hrest
    exact (allPixels_length entries).trans hsum

/-! ### Entry boundaries -/

theorem endsAtBoundary_nil : EndsAtBoundary [] := ⟨[], nofun, rfl⟩

/-- Bytes that begin with an entry end at a boundary exactly where those after it do. -/
theorem endsAtBoundary_encode_append {i : Instr} (hwf : i.wellFormed = true) (bytes : List Byte) :
    EndsAtBoundary (encode i ++ bytes) ↔ EndsAtBoundary bytes := by
  constructor
  · rintro ⟨entries, hwfs, h⟩
    cases entries with
    | nil =>
      have hlen := congrArg List.length h
      simp at hlen
    | cons j js =>
      obtain ⟨hj, hjs⟩ := List.forall_mem_cons.1 hwfs
      have hdecode := (decode_encode_append hwf bytes).symm.trans
        ((congrArg decode h).trans (decode_encode_append hj (encodeAll js)))
      cases hdecode
      exact ⟨js, hjs, rfl⟩
  · rintro ⟨entries, hwfs, rfl⟩
    exact ⟨i :: entries, List.forall_mem_cons.2 ⟨hwf, hwfs⟩, rfl⟩

/-- Bytes that begin with an entry that is cut end at no boundary. -/
theorem not_endsAtBoundary_of_payloadCut {bytes : List Byte} (h : decode bytes = .error .payloadCut) :
    ¬ EndsAtBoundary bytes := by
  rintro ⟨entries, hwf, rfl⟩
  cases entries with
  | nil => cases h
  | cons i is => cases (decode_encode_append (hwf i List.mem_cons_self) (encodeAll is)).symm.trans h

/-- What is left of an entry cut short is empty or its payload is cut (42_rle_decode R173, R175). -/
theorem decode_of_cut_entry {i : Instr} (hwf : i.wellFormed = true) {cut t : List Byte}
    (h : encode i = cut ++ t) (ht : t ≠ []) : cut = [] ∨ decode cut = .error .payloadCut := by
  cases cut with
  | nil => exact .inl rfl
  | cons c payload =>
    refine .inr (decode_cons_payloadCut ?_)
    rw [controlPayloadLength_of_encode (after := []) hwf ((List.append_nil _).trans h)]
    have hlen := congrArg List.length h
    have hpos := List.length_pos_of_ne_nil ht
    rw [encode_length, List.length_append, List.length_cons] at hlen
    omega

/-! ### A decode of entries cut short -/

/-- How the decode of a body cut short ends (42_rle_decode R187). -/
def FailsAsPrefix {α : Type} (cut : List Byte) (o : OpResult α) : Prop :=
  (EndsAtBoundary cut → o = .err .sizeMismatch) ∧
    (¬ EndsAtBoundary cut → o = .err .unexpectedEndOfData)

/-- At an entry cut short, with pixels missing, the loop fails (42_rle_decode R173, R175). -/
theorem decodeLoop_failsAsPrefix_of_entry {total : Nat} {grid : List Pixel}
    (hmore : grid.length < total) (fuel : Nat) {i : Instr} (hwf : i.wellFormed = true)
    {cut t : List Byte} (h : encode i = cut ++ t) (ht : t ≠ []) :
    FailsAsPrefix cut (decodeLoop total (fuel + 1) cut grid) := by
  rcases decode_of_cut_entry hwf h ht with rfl | hd
  · exact ⟨fun _ => decodeLoop_of_noControlByte hmore fuel decode_nil,
      fun hnot => absurd endsAtBoundary_nil hnot⟩
  · exact ⟨fun hends => absurd hends (not_endsAtBoundary_of_payloadCut hd),
      fun _ => decodeLoop_of_payloadCut hmore fuel hd⟩

/-- A cut of two parts lies in the second part or strictly inside the first. -/
theorem append_cut_cases {α : Type} {first second cut t : List α} (h : first ++ second = cut ++ t) :
    (∃ cut', cut = first ++ cut' ∧ second = cut' ++ t) ∨ ∃ t', t' ≠ [] ∧ first = cut ++ t' := by
  rcases List.append_eq_append_iff.1 h with hsecond | ⟨t', hfirst, ht⟩
  · exact .inl hsecond
  · cases t' with
    | nil => exact .inl ⟨[], by simpa using hfirst.symm, ht.symm⟩
    | cons x xs => exact .inr ⟨x :: xs, List.cons_ne_nil x xs, hfirst⟩

/-- Where entries that would bring the grid to the total are cut short, the loop reads those still whole and
fails at the one that is cut (42_rle_decode R187). -/
theorem decodeLoop_failsAsPrefix {total : Nat} {entries : List Instr}
    (hwf : ∀ e ∈ entries, e.wellFormed = true) {cut t : List Byte} (hcut : encodeAll entries = cut ++ t)
    (ht : t ≠ []) {grid : List Pixel} (hsum : grid.length + totalRunLength entries = total) {fuel : Nat}
    (hfuel : totalRunLength entries ≤ fuel) :
    FailsAsPrefix cut (decodeLoop total fuel cut grid) := by
  induction entries generalizing cut grid fuel with
  | nil => exact absurd (List.append_eq_nil_iff.1 hcut.symm).2 ht
  | cons i is ih =>
    obtain ⟨hi, his⟩ := List.forall_mem_cons.1 hwf
    have hpos := ((wellFormed_iff i).1 hi).1
    rw [totalRunLength_cons] at hsum hfuel
    obtain ⟨fuel, rfl⟩ : ∃ k, fuel = k + 1 := Nat.exists_eq_add_one.2 (by omega)
    rcases append_cut_cases hcut with ⟨cut', rfl, hcut'⟩ | ⟨t', ht', hi'⟩
    · rw [FailsAsPrefix, endsAtBoundary_encode_append hi, decodeLoop_encode_append hi (by omega)]
      exact ih his hcut' (by rw [List.length_append, pixels_length]; omega) (by omega)
    · exact decodeLoop_failsAsPrefix_of_entry (by omega) fuel hi hi' ht'

/-- An encoded body is the bytes of entries that stand for the grid (41_rle_encode R154). -/
theorem exists_entries_of_encodeBody {cfg : Config} {grid : List Pixel} {W H : Word32} {body : List Byte}
    (h : encodeBody cfg grid W H = .ok body) :
    ∃ entries : List Instr, (∀ e ∈ entries, e.wellFormed = true) ∧ body = encodeAll entries ∧
      grid = allPixels entries ∧ totalRunLength entries = pixelTotal W H := by
  obtain ⟨hdims, hlen, -⟩ := encodeBody_eq_ok.1 h
  obtain ⟨body', hbody, hdecode⟩ := encodedBodyDecodesToTheGrid cfg grid W H hdims hlen
  obtain rfl := OpResult.ok.inj (h.symm.trans hbody)
  obtain ⟨-, entries, hwf, rfl, hgrid, hsum⟩ := decodeBodyRest_eq_ok.1 hdecode
  exact ⟨entries, hwf, List.append_nil _, hgrid, hsum⟩

/-- Settles O34: the body is the bytes of entries; with any bytes after them it decodes to their pixels,
and cut short it fails at the entry that is cut. -/
theorem properPrefixesFail : Obligations.ProperPrefixesFail := by
  unfold Obligations.ProperPrefixesFail
  intro cfg grid W H body h
  obtain ⟨hdims, -, -⟩ := encodeBody_eq_ok.1 h
  obtain ⟨entries, hwf, rfl, rfl, hsum⟩ := exists_entries_of_encodeBody h
  constructor
  · intro t
    rw [decodeBody, anyEntriesDecodeToTheirPixels cfg entries t W H hdims hwf hsum, OpResult.andThen_ok]
  · intro cut t hcut ht
    have hloop : FailsAsPrefix cut (decodeBodyRest cfg cut W H) := by
      rw [decodeBodyRest_of_legal hdims]
      exact decodeLoop_failsAsPrefix hwf hcut ht (grid := []) ((Nat.zero_add _).trans hsum) hsum.le
    obtain ⟨hends, hcuts⟩ := hloop
    exact ⟨fun hb => by rw [decodeBody, hends hb, OpResult.andThen_err],
      fun hb => by rw [decodeBody, hcuts hb, OpResult.andThen_err]⟩

end Sys2Proof.Machine
end

section
/-! SUPPORT. `RAW` in both directions: the bytes of pixels by their offset, and the bodies that decode
(43_raw_pixconv R190 to R193); and `PIXCONV` (R194). -/

namespace Sys2Proof.Machine

/-! ### Pixels in a space -/

/-- A read of the bytes that stand between two parts of a space. -/
theorem memRead_append_append (before v after : List Byte) :
    memRead (before ++ (v ++ after)) before.length v.length = some v := by
  rw [memRead_eq (by simp only [List.length_append]; omega), List.drop_left, List.take_left]

/-- Pixel `k` of a sequence stands at `3 * k` in its bytes, in storage order (20_memory R61). -/
theorem memRead_pixelsBytes {ps : List Pixel} {k : Nat} {p : Pixel} (h : ps[k]? = some p) :
    memRead (pixelsBytes ps) (3 * k) 3 = some (pixbytes p) := by
  obtain ⟨hk, hp⟩ := List.getElem?_eq_some_iff.1 h
  have hsplit : ps = ps.take k ++ p :: ps.drop (k + 1) := by
    rw [← hp, ← List.drop_eq_getElem_cons hk, List.take_append_drop]
  have hbytes : pixelsBytes ps =
      pixelsBytes (ps.take k) ++ (pixbytes p ++ pixelsBytes (ps.drop (k + 1))) := by
    conv_lhs => rw [hsplit, pixelsBytes_append]
    rfl
  have hoffset : (pixelsBytes (ps.take k)).length = 3 * k := by
    rw [pixelsBytes_length, List.length_take_of_le hk.le]
  rw [hbytes, ← hoffset]
  exact memRead_append_append _ (pixbytes p) _

/-- Any `3 * n` bytes are those of `n` pixels (30_encoding R101). -/
theorem exists_pixels_of_le {n : Nat} {bytes : List Byte} (h : 3 * n ≤ bytes.length) :
    ∃ ps rest, ps.length = n ∧ bytes = pixelsBytes ps ++ rest := by
  obtain ⟨⟨ps, rest⟩, htake⟩ := Option.isSome_iff_exists.1 (takePixels_isSome.2 h)
  obtain ⟨hlen, hbytes⟩ := takePixels_eq_some htake
  exact ⟨ps, rest, hlen, hbytes.symm⟩

/-! ### What `EncodeRaw` and `DecodeRaw` answer -/

theorem checkDims_of_not_legalDims {cfg : Config} {W H : Word32} (h : ¬ LegalDims cfg W H) :
    checkDims cfg W H = some .dimensionError := by
  obtain ⟨kind, hkind⟩ := Option.ne_none_iff_exists'.1 h
  rw [hkind, checkDims_eq_some hkind]

theorem encodeRaw_of_not_legal {cfg : Config} {W H : Word32} (h : ¬ LegalDims cfg W H)
    (grid : List Pixel) : encodeRaw cfg grid W H = .err .dimensionError := by
  rw [encodeRaw, checkDims_of_not_legalDims h]

theorem encodeRaw_of_legal {cfg : Config} {W H : Word32} (h : LegalDims cfg W H) (grid : List Pixel) :
    encodeRaw cfg grid W H =
      if grid.length = pixelTotal W H then .ok (pixelsBytes grid) else .refused .gridSize := by
  rw [encodeRaw, show checkDims cfg W H = none from h]

theorem encodeRaw_of_length {cfg : Config} {grid : List Pixel} {W H : Word32} (h : LegalDims cfg W H)
    (hlen : grid.length = pixelTotal W H) : encodeRaw cfg grid W H = .ok (pixelsBytes grid) :=
  (encodeRaw_of_legal h grid).trans (if_pos hlen)

theorem decodeRaw_of_not_legal {cfg : Config} {W H : Word32} (h : ¬ LegalDims cfg W H)
    (body : List Byte) : decodeRaw cfg body W H = .err .dimensionError := by
  rw [decodeRaw, checkDims_of_not_legalDims h]

theorem decodeRaw_of_short {cfg : Config} {body : List Byte} {W H : Word32} (h : LegalDims cfg W H)
    (hshort : body.length < 3 * pixelTotal W H) : decodeRaw cfg body W H = .err .sizeMismatch := by
  rw [decodeRaw, show checkDims cfg W H = none from h]
  exact if_pos hshort

/-- The bytes of a grid decode to it whatever follows them (43_raw_pixconv R192). -/
theorem decodeRaw_pixelsBytes_append {cfg : Config} {grid : List Pixel} {W H : Word32}
    (h : LegalDims cfg W H) (hlen : grid.length = pixelTotal W H) (rest : List Byte) :
    decodeRaw cfg (pixelsBytes grid ++ rest) W H = .ok grid := by
  have hlong : ¬ (pixelsBytes grid ++ rest).length < pixelBytes * grid.length := by
    rw [List.length_append, pixelsBytes_length, pixelBytes_eq]
    omega
  rw [decodeRaw, show checkDims cfg W H = none from h, ← hlen]
  simp only [if_neg hlong, takePixels_pixelsBytes]

/-! ### The obligations -/

/-- Settles O41: the body is the bytes of the grid, with pixel `k` at `3 * k`. -/
theorem rawBodyLayout : Obligations.RawBodyLayout := by
  unfold Obligations.RawBodyLayout
  intro cfg grid W H
  refine ⟨fun hbad => encodeRaw_of_not_legal hbad grid,
    fun hdims hlen => (encodeRaw_of_legal hdims grid).trans (if_neg hlen), fun hdims hlen => ?_⟩
  refine ⟨pixelsBytes grid, encodeRaw_of_length hdims hlen, ?_, ?_⟩
  · rw [pixelsBytes_length, hlen]
  · intro x y p _ _ hp
    exact memRead_pixelsBytes hp

/-- Settles O42: a body that is long enough begins with the bytes of a grid. -/
theorem rawDecodeOutcomes : Obligations.RawDecodeOutcomes := by
  unfold Obligations.RawDecodeOutcomes
  intro cfg body W H
  refine ⟨fun hbad => decodeRaw_of_not_legal hbad body, decodeRaw_of_short, fun hdims hlong => ?_⟩
  obtain ⟨grid, rest, hlen, rfl⟩ := exists_pixels_of_le hlong
  refine ⟨grid, decodeRaw_pixelsBytes_append hdims hlen rest, hlen, fun t => ?_⟩
  rw [List.append_assoc]
  exact decodeRaw_pixelsBytes_append hdims hlen (rest ++ t)

/-- Settles O43: the bytes of a grid decode to it, and a body that is long enough begins with the bytes
of the grid it decodes to. -/
theorem rawRoundTrip : Obligations.RawRoundTrip := by
  unfold Obligations.RawRoundTrip
  constructor
  · intro cfg grid W H hdims hlen
    refine ⟨pixelsBytes grid, encodeRaw_of_length hdims hlen, ?_⟩
    simpa using decodeRaw_pixelsBytes_append hdims hlen []
  · intro cfg body W H hdims hlong
    obtain ⟨grid, rest, hlen, rfl⟩ := exists_pixels_of_le hlong
    have hfront : (pixelsBytes grid ++ rest).take (3 * (W.toNat * H.toNat)) = pixelsBytes grid := by
      rw [← hlen, ← pixelsBytes_length, List.take_left]
    refine ⟨grid, decodeRaw_pixelsBytes_append hdims hlen rest, ?_⟩
    rw [hfront]
    exact encodeRaw_of_length hdims hlen

/-- The high byte of a sample is its quotient by 256 (43_raw_pixconv R194). -/
theorem sampleHigh_toNat (v : Sample) : (sampleHigh v).toNat = v.toNat / 256 := by
  have hlt := v.isLt
  rw [sampleHigh, BitVec.extractLsb'_toNat, Nat.shiftRight_eq_div_pow]
  omega

/-- `PIXCONV` at work ends in one step with its pixel (43_raw_pixconv R194). -/
theorem stepWith_pixConv {r16 g16 b16 a16 : Sample} {s : State} (h : s.active = .pixConv r16 g16 b16 a16)
    (cfg : Config) : stepWith cfg s = .next (finish (.pixel (pixconv r16 g16 b16 a16)) s) := by
  simp only [stepWith, h, pixConvStep]

/-- Settles O44: each channel is the high byte of its sample, and the step ends the call. -/
theorem pixconvTruncatesEachChannel : Obligations.PixconvTruncatesEachChannel := by
  unfold Obligations.PixconvTruncatesEachChannel
  intro r16 g16 b16 a16
  refine ⟨sampleHigh_toNat b16, sampleHigh_toNat g16, sampleHigh_toNat r16, fun _ => rfl, ?_⟩
  intro cfg s h
  exact ⟨_, stepWith_pixConv h cfg, rfl, rfl, rfl⟩

end Sys2Proof.Machine
end

section
/-! SUPPORT. The container: its header gives the fields back, and its body is the one its kind names
(44_container R201 to R205). -/

namespace Sys2Proof.Machine

/-! ### The header of a container -/

/-- The checks of `HSER` and `HDES` pass exactly on legal dimensions and a legal kind (40_header R121). -/
theorem checkFields_eq_none {cfg : Config} {w h k : Word32} :
    checkFields cfg w h k = none ↔ LegalDims cfg w h ∧ kindLegal k = true := by
  cases hd : checkDims cfg w h with
  | some kind => simp [checkFields_of_checkDims_some hd, LegalDims, hd]
  | none => simp [checkFields_of_checkDims_none hd, LegalDims, hd]

theorem hser_of_checkFields_none {cfg : Config} {w h k : Word32} (hf : checkFields cfg w h k = none)
    (bodyLength : Nat) :
    hser cfg w h k bodyLength =
      (blockCountOf cfg bodyLength).elim (.refused .blockCount) fun bc => .ok (headerBytes w h k bc) := by
  rw [hser, hf]
  cases blockCountOf cfg bodyLength <;> rfl

/-- `HDES` sees no byte after the 512 of the header (40_header R129). -/
theorem hdes_take_512 (cfg : Config) (buf : List Byte) : hdes cfg (buf.take 512) = hdes cfg buf := by
  by_cases hlen : 512 ≤ buf.length
  · rw [hdes, hdesOn_take cfg _ hlen, List.length_take_of_le hlen, hdes, hdesOn_length cfg le_rfl hlen]
  · rw [List.take_of_length_le (Nat.le_of_not_le hlen)]

/-- The fields `HDES` answers have passed its checks (40_header R133). -/
theorem checkFields_of_hdes {cfg : Config} {buf : List Byte} {f : HeaderFields}
    (h : hdes cfg buf = .ok f) : checkFields cfg f.width f.height f.kind = none := by
  obtain ⟨hlen, htake⟩ := hdes_eq_ok h
  rw [hdes_of_take_24 cfg hlen htake, fieldsOutcome] at h
  cases hf : checkFields cfg f.width f.height f.kind with
  | none => rfl
  | some kind => rw [hf] at h; cases h

/-- A container that opens with a valid header is decoded by its body alone (44_container R203). -/
theorem decodeContainer_headerBytes_append {cfg : Config} {w h k : Word32}
    (hf : checkFields cfg w h k = none) (bc : Word32) (body : List Byte) :
    decodeContainer cfg (headerBytes w h k bc ++ body) =
      (bodyDec cfg body w h k).andThen fun grid => .ok ⟨w, h, grid⟩ := by
  have htake : (headerBytes w h k bc ++ body).take 24 = fieldBytes ⟨w, h, k, bc⟩ := by
    rw [headerBytes, List.append_assoc]
    exact take_fieldBytes_append ⟨w, h, k, bc⟩ (zeroBytes 488 ++ body)
  rw [decodeContainer, hdes_of_take_24 cfg (by simp) htake, fieldsOutcome, hf, OpResult.andThen_ok,
    List.drop_left' (headerBytes_length w h k bc)]

/-! ### The body of a container -/

theorem kindLegal_bodyKind (rleEnable : Bool) : kindLegal (bodyKind rleEnable) = true := by
  cases rleEnable <;> rfl

/-- The fields of a container's header are legal where its dimensions are (43_raw_pixconv R197). -/
theorem checkFields_bodyKind {cfg : Config} {W H : Word32} (hdims : LegalDims cfg W H) (rleEnable : Bool) :
    checkFields cfg W H (bodyKind rleEnable) = none :=
  checkFields_eq_none.2 ⟨hdims, kindLegal_bodyKind rleEnable⟩

/-- Missing body bytes are `SizeMismatch` in the decoder of either kind (42_rle_decode R173,
43_raw_pixconv R191). -/
theorem bodyDec_nil {cfg : Config} {W H kind : Word32} (hdims : LegalDims cfg W H)
    (hkind : kindLegal kind = true) : bodyDec cfg [] W H kind = .err .sizeMismatch := by
  have hpos := pixelTotal_pos hdims
  rcases (kindLegal_iff kind).1 hkind with rfl | rfl
  · exact decodeRaw_of_short hdims (by rw [List.length_nil]; omega)
  · obtain ⟨n, hn⟩ := Nat.exists_eq_add_one.2 hpos
    have hrest : decodeBodyRest cfg [] W H = .err .sizeMismatch := by
      rw [decodeBodyRest_of_legal hdims, hn]
      exact decodeLoop_of_noControlByte n.succ_pos n rfl
    rw [bodyDec, if_pos rfl, decodeBody, hrest, OpResult.andThen_err]

/-- A whole grid has a body, and it decodes to the grid whatever follows it (41_rle_encode R162,
43_raw_pixconv R192, R193). -/
theorem exists_bodyEnc {cfg : Config} {grid : List Pixel} {W H : Word32} (hdims : LegalDims cfg W H)
    (hlen : grid.length = pixelTotal W H) (rleEnable : Bool) :
    ∃ body, bodyEnc cfg grid W H rleEnable = .ok body ∧
      ∀ t, bodyDec cfg (body ++ t) W H (bodyKind rleEnable) = .ok grid := by
  cases rleEnable with
  | true =>
    obtain ⟨body, hbody, -⟩ := encodedBodyDecodesToTheGrid cfg grid W H hdims hlen
    exact ⟨body, hbody, (properPrefixesFail cfg grid W H body hbody).1⟩
  | false =>
    exact ⟨pixelsBytes grid, encodeRaw_of_length hdims hlen, decodeRaw_pixelsBytes_append hdims hlen⟩

/-- Once there is a body, its container is decided by the block count (44_container R201, 40_header R124). -/
theorem encodeContainer_of_bodyEnc {cfg : Config} {grid : List Pixel} {W H : Word32} {rleEnable : Bool}
    {body : List Byte} (hdims : LegalDims cfg W H) (hbody : bodyEnc cfg grid W H rleEnable = .ok body) :
    encodeContainer cfg grid W H rleEnable =
      (blockCountOf cfg body.length).elim (.refused .blockCount)
        fun bc => .ok (headerBytes W H (bodyKind rleEnable) bc ++ body) := by
  rw [encodeContainer, hbody, OpResult.andThen_ok,
    hser_of_checkFields_none (checkFields_bodyKind hdims rleEnable)]
  cases blockCountOf cfg body.length <;> rfl

/-! ### The obligations -/

/-- Settles O45: past the refusal the container is a valid header and a body that decodes to the grid
whatever follows. -/
theorem containerRoundTrip : Obligations.ContainerRoundTrip := by
  unfold Obligations.ContainerRoundTrip
  intro cfg grid W H rleEnable hdims hlen
  obtain ⟨body, hbody, hdecode⟩ := exists_bodyEnc hdims hlen rleEnable
  rw [encodeContainer_of_bodyEnc hdims hbody]
  cases blockCountOf cfg body.length with
  | none => exact .inl rfl
  | some bc =>
    refine .inr ⟨_, rfl, fun t => ?_⟩
    rw [List.append_assoc, decodeContainer_headerBytes_append (checkFields_bodyKind hdims rleEnable),
      hdecode, OpResult.andThen_ok]

/-- Settles O46: a whole grid has a body, the block count decides its container, and what is no body is
passed on. -/
theorem containerIsHeaderThenBody : Obligations.ContainerIsHeaderThenBody := by
  unfold Obligations.ContainerIsHeaderThenBody
  intro cfg grid W H rleEnable
  refine ⟨fun hdims hlen => ?_, fun kind h => ?_, fun reason h => ?_⟩
  · obtain ⟨body, hbody, -⟩ := exists_bodyEnc hdims hlen rleEnable
    rw [encodeContainer_of_bodyEnc hdims hbody]
    refine ⟨body, hbody, fun bc hbc => ?_, fun hnone => by rw [hnone]; rfl⟩
    rw [hbc]
    exact ⟨_, rfl, rfl, by rw [List.length_append, headerBytes_length]⟩
  · rw [encodeContainer, h, OpResult.andThen_err]
  · rw [encodeContainer, h, OpResult.andThen_refused]

/-- Settles O47: the decoder runs `HDES` first, which does not see past the header; and the empty body
is too short for either kind. -/
theorem headerErrorsComeFirst : Obligations.HeaderErrorsComeFirst := by
  unfold Obligations.HeaderErrorsComeFirst
  constructor
  · intro cfg cont kind h
    rw [decodeContainer, ← hdes_take_512, h, OpResult.andThen_err]
  · intro cfg hdr f hlen h
    obtain ⟨hdims, hkind⟩ := checkFields_eq_none.1 (checkFields_of_hdes h)
    rw [decodeContainer, h, OpResult.andThen_ok, List.drop_of_length_le hlen.le,
      bodyDec_nil hdims hkind, OpResult.andThen_err]

end Sys2Proof.Machine
end

section
/-! SUPPORT. The errors and the refusals each operation can give, and the port of the host
(60_exceptions R214, R216, R222). -/

namespace Sys2Proof.Machine

/-! ### The header units -/

/-- The errors of the checks `HSER` and `HDES` share (40_header R121, R133). -/
theorem checkFields_eq_some {cfg : Config} {w h k : Word32} {e : ErrorKind}
    (hf : checkFields cfg w h k = some e) : e = .unsupportedKind ∨ e = .dimensionError := by
  unfold checkFields at hf
  split at hf
  · next hd => exact .inr ((Option.some.inj hf).symm.trans (checkDims_eq_some hd))
  · split at hf
    · cases hf
    · exact .inl (Option.some.inj hf).symm

theorem hser_eq_err {cfg : Config} {w h k : Word32} {bodyLength : Nat} {e : ErrorKind}
    (ho : hser cfg w h k bodyLength = .err e) : e = .unsupportedKind ∨ e = .dimensionError := by
  unfold hser at ho
  split at ho
  · next hf =>
    obtain rfl := OpResult.err.inj ho
    exact checkFields_eq_some hf
  · split at ho <;> cases ho

/-- `HSER` refuses only a block count that does not fit (40_header R124). -/
theorem hser_eq_refused {cfg : Config} {w h k : Word32} {bodyLength : Nat} {r : Refusal}
    (ho : hser cfg w h k bodyLength = .refused r) : r = .blockCount := by
  unfold hser at ho
  split at ho
  · cases ho
  · split at ho <;> cases ho
    rfl

theorem hdesOn_eq_err {cfg : Config} {length : Nat} {hdr : List Byte} {e : ErrorKind}
    (h : hdesOn cfg length hdr = .err e) :
    e = .headerFormatError ∨ e = .unsupportedKind ∨ e = .dimensionError := by
  unfold hdesOn at h
  split at h
  · exact .inl (OpResult.err.inj h).symm
  · split at h
    · exact .inl (OpResult.err.inj h).symm
    · split at h
      · exact .inl (OpResult.err.inj h).symm
      · split at h
        · next hf =>
          obtain rfl := OpResult.err.inj h
          exact .inr (checkFields_eq_some hf)
        · cases h

/-! ### The encoders of a body -/

theorem exists_encodeRow {row : List Pixel} (h : row ≠ []) : ∃ bytes, encodeRow row = .ok bytes := by
  obtain ⟨entries, hentries⟩ := exists_rowEntries h
  exact ⟨_, encodeRow_of_rowEntries hentries⟩

/-- `EncodeBody` has three outcomes: the dimensions are illegal, the grid has another size, or there is a
body, since no row of a legal width is empty (41_rle_encode R142, R154). -/
theorem encodeBody_cases (cfg : Config) (grid : List Pixel) (W H : Word32) :
    encodeBody cfg grid W H = .err .dimensionError ∨ encodeBody cfg grid W H = .refused .gridSize ∨
      ∃ body, encodeBody cfg grid W H = .ok body := by
  by_cases hdims : LegalDims cfg W H
  · by_cases hlen : grid.length = pixelTotal W H
    · obtain ⟨body, hbody, -⟩ := encodedBodyDecodesToTheGrid cfg grid W H hdims hlen
      exact .inr (.inr ⟨body, hbody⟩)
    · rw [encodeBody, show checkDims cfg W H = none from hdims]
      exact .inr (.inl (if_neg hlen))
  · rw [encodeBody, checkDims_of_not_legalDims hdims]
    exact .inl rfl

theorem encodeBody_eq_err {cfg : Config} {grid : List Pixel} {W H : Word32} {e : ErrorKind}
    (h : encodeBody cfg grid W H = .err e) : e = .dimensionError := by
  rcases encodeBody_cases cfg grid W H with h' | h' | ⟨body, h'⟩ <;> cases h'.symm.trans h
  rfl

theorem encodeBody_eq_refused {cfg : Config} {grid : List Pixel} {W H : Word32} {r : Refusal}
    (h : encodeBody cfg grid W H = .refused r) : r = .gridSize := by
  rcases encodeBody_cases cfg grid W H with h' | h' | ⟨body, h'⟩ <;> cases h'.symm.trans h
  rfl

theorem encodeRaw_eq_err {cfg : Config} {grid : List Pixel} {W H : Word32} {e : ErrorKind}
    (h : encodeRaw cfg grid W H = .err e) : e = .dimensionError := by
  by_cases hdims : LegalDims cfg W H
  · rw [encodeRaw_of_legal hdims] at h
    split at h <;> cases h
  · exact (OpResult.err.inj ((encodeRaw_of_not_legal hdims grid).symm.trans h)).symm

/-! ### The decoders of a body -/

/-- The errors of the loop: bytes are missing at an entry or inside one, or an entry overshoots
(42_rle_decode R173, R175, R178). -/
theorem decodeLoop_eq_err {total fuel : Nat} {bytes : List Byte} {grid : List Pixel} {e : ErrorKind}
    (h : decodeLoop total fuel bytes grid = .err e) : e = .unexpectedEndOfData ∨ e = .sizeMismatch := by
  induction fuel generalizing bytes grid with
  | zero =>
    unfold decodeLoop at h
    split at h <;> cases h
    exact .inr rfl
  | succ fuel ih =>
    unfold decodeLoop at h
    split at h
    · split at h
      · exact .inr (OpResult.err.inj h).symm
      · exact .inl (OpResult.err.inj h).symm
      · split at h
        · exact .inr (OpResult.err.inj h).symm
        · exact ih h
    · cases h

theorem OpResult.andThen_ok_eq_err {α β : Type} {o : OpResult α} {k : α → β} {e : ErrorKind}
    (h : (o.andThen fun v => .ok (k v)) = .err e) : o = .err e := by
  cases o with
  | ok v => cases h
  | err e' => exact congrArg _ (OpResult.err.inj h)
  | refused r => cases h

theorem decodeBody_eq_err {cfg : Config} {body : List Byte} {W H : Word32} {e : ErrorKind}
    (h : decodeBody cfg body W H = .err e) :
    e = .unexpectedEndOfData ∨ e = .sizeMismatch ∨ e = .dimensionError := by
  have hrest := OpResult.andThen_ok_eq_err h
  by_cases hdims : LegalDims cfg W H
  · rw [decodeBodyRest_of_legal hdims] at hrest
    exact (decodeLoop_eq_err hrest).imp_right .inl
  · rw [decodeBodyRest_of_not_legal hdims] at hrest
    exact .inr (.inr (OpResult.err.inj hrest).symm)

/-- `DecodeRaw` errs on illegal dimensions and on a body that is too short; a longer one begins with the
bytes of a grid (43_raw_pixconv R191, R192). -/
theorem decodeRaw_eq_err {cfg : Config} {body : List Byte} {W H : Word32} {e : ErrorKind}
    (h : decodeRaw cfg body W H = .err e) : e = .sizeMismatch ∨ e = .dimensionError := by
  by_cases hdims : LegalDims cfg W H
  case neg => exact .inr (OpResult.err.inj ((decodeRaw_of_not_legal hdims body).symm.trans h)).symm
  rcases Nat.lt_or_ge body.length (3 * pixelTotal W H) with hshort | hlong
  · exact .inl (OpResult.err.inj ((decodeRaw_of_short hdims hshort).symm.trans h)).symm
  · obtain ⟨grid, rest, hlen, rfl⟩ := exists_pixels_of_le hlong
    cases (decodeRaw_pixelsBytes_append hdims hlen rest).symm.trans h

/-! ### The obligations -/

/-- Settles O48, unit by unit: each outcome that is an error or a refusal comes from one of the unit's
checks, and the decoders have no refusal. -/
theorem unitsRaiseOnlyTheirKinds : Obligations.UnitsRaiseOnlyTheirKinds := by
  unfold Obligations.UnitsRaiseOnlyTheirKinds
  intro cfg
  refine ⟨?hser, ?hdes, ?encodeRow, ?encodeBody, ?decodeBody, ?encodeRaw, ?decodeRaw⟩
  case hser => exact fun w h k L => ⟨fun e => hser_eq_err, fun r => hser_eq_refused⟩
  case hdes => exact fun buf => ⟨fun e => hdesOn_eq_err, hdesOn_ne_refused cfg _ buf⟩
  case encodeRow => exact fun row => exists_encodeRow
  case encodeBody => exact fun grid W H => ⟨fun e => encodeBody_eq_err, fun r => encodeBody_eq_refused⟩
  case decodeBody =>
    exact fun body W H => ⟨fun e => decodeBody_eq_err, (decodeBodyGridIsExact cfg body W H).1⟩
  case encodeRaw => exact fun grid W H => ⟨fun e => encodeRaw_eq_err, fun r => encodeRaw_refused⟩
  case decodeRaw => exact fun body W H => ⟨fun e => decodeRaw_eq_err, decodeRaw_ne_refused cfg body W H⟩

/-- Settles O49: a dimension out of its bounds fails a check, and dimensions within them pass all four. -/
theorem checkDimsRaisesExactly : Obligations.CheckDimsRaisesExactly := by
  unfold Obligations.CheckDimsRaisesExactly
  intro cfg W H
  refine ⟨checkDims_of_not_legal, fun hW hH hWmax hHmax => ?_⟩
  refine checkDims_eq_none.2 ⟨?_, ?_, hWmax, hHmax⟩
  · rintro rfl
    exact absurd hW (by decide)
  · rintro rfl
    exact absurd hH (by decide)

/-- Settles O52: the host's move exists only from an idle machine with no call. -/
theorem hostMovesOnlyWhenIdle : Obligations.HostMovesOnlyWhenIdle := by
  unfold Obligations.HostMovesOnlyWhenIdle
  intro c s
  refine ⟨fun ha hc => present_eq_some.2 ⟨ha, hc, rfl⟩, fun hbusy => ?_⟩
  refine Option.eq_none_iff_forall_ne_some.2 fun t ht => ?_
  obtain ⟨ha, hc, -⟩ := present_eq_some.1 ht
  exact hbusy.elim (· ha) (· hc)

end Sys2Proof.Machine
end

section
/-! ## 70_reset_and_hazards: an idle machine -/

namespace Sys2Proof.Machine

/-- Settles O55: with no unit at work and no call presented, the step's own equation
`stepWith_of_no_call` gives the same state again, under every configuration (R242). -/
theorem idleMachineStays : Obligations.IdleMachineStays := by
  unfold Obligations.IdleMachineStays
  intro cfg s hidle hnone
  exact stepWith_of_no_call hidle hnone cfg

end Sys2Proof.Machine
end
